-- ==== Sys2Proof/Word.lean ====
section
/-! DEFINITION. The word types of the LZ8S block: bytes, position registers, costs, and the cell of the parser table. -/

namespace Sys2Proof

/-- Every access to `DATA`, `RING`, `IN` and `OUT` moves one byte (R48). -/
abbrev Byte := BitVec 8

/-- A position register the host writes: 18 bits (R6, R20, R21). -/
abbrev PosReg := BitVec 18

/-- `COST = ℕ ∪ {INF}`, in bits (R7, R80). -/
inductive Cost where
  | fin (bits : Nat)
  | inf
  deriving DecidableEq, Repr, Inhabited

/-- One cell of the per-position table `SP` (R22). -/
structure SpCell where
  llen  : Nat
  lbits : Cost
  mlen  : Nat
  mpos  : Nat
  mbits : Cost
  deriving DecidableEq, Repr, Inhabited

end Sys2Proof
end

