-- ==== Sys2Proof/Config.lean ====
section
/-! DEFINITION. What an implementation fixes (R5), the configuration record `CFG` (R10), and the free values: constants
with no body, one for each value the spec leaves open. -/

namespace Sys2Proof

/-- `CFG`, the record of R10 with the widths of its registers; `FLAGS` is its three bits. -/
structure Cfg where
  bitsMoff    : BitVec 5
  maxMlen     : BitVec 16
  maxLlen     : BitVec 16
  zeroOffset  : Bool
  offsetRelEn : Bool
  exorOffset  : Bool
  offsetRel   : BitVec 16
  deriving DecidableEq, Repr

/-- The values of `CFG` after reset (R10, R32). -/
def Cfg.reset : Cfg :=
  { bitsMoff := 8, maxMlen := 255, maxLlen := 255, zeroOffset := false, offsetRelEn := false, exorOffset := false,
    offsetRel := 0 }

/-- `N_CAP` (R5, D19). PRESUMED: KiB read as 1024 bytes; assumption log 22. -/
abbrev Config.nCap : Nat := 131072

/-- `LEN_MAX` (R5). -/
abbrev Config.lenMax : Nat := 32895

/-- `FANOUT` (R5, R103). -/
abbrev Config.fanout : Nat := 5

/-- FREE VALUE: the byte a `RING` cell holds that nothing has written since reset (R30, R151, U4); one value per cell,
stable until the cell is written. Assumption log 5. -/
opaque Config.ringPowerOn : Nat → Byte

/-- FREE VALUE: the byte a `DATA` index holds that the host has not loaded (R32). Assumption log 6. -/
opaque Config.dataPowerOn : Nat → Byte

/-- FREE VALUE: the cell an `SP` index holds that nothing has written (R32, U9). Assumption log 7. -/
opaque Config.spPowerOn : Nat → SpCell

/-- FREE VALUE: the cell an out-of-order `DP.FILL` writes (R186, U8), one for each value of the free-value counter of
State. Assumption log 8. -/
opaque Config.freeCell : Nat → SpCell

end Sys2Proof
end

