-- ==== Sys2Proof/Machine/CfgRegs.lean ====
section
/-! DEFINITION. What is computed from `CFG`: the derived constants (R17), the predicate `CfgValid` (R18), and the reading
and writing of its five registers by index (R10, R19). -/

namespace Sys2Proof.Cfg

/-- `BITS_MOFF` as a number (R11). -/
abbrev bits (c : Cfg) : Nat := c.bitsMoff.toNat

/-- `MAX_MLEN` as a number (R12). -/
abbrev mlenLimit (c : Cfg) : Nat := c.maxMlen.toNat

/-- `MAX_LLEN` as a number (R13). -/
abbrev llenLimit (c : Cfg) : Nat := c.maxLlen.toNat

/-- `max_off = 1 << BITS_MOFF` (R17; 90_conflicts.md C8). -/
def maxOff (c : Cfg) : Nat := 1 <<< c.bits

/-- `mask` (R17): the ring has `mask + 1` bytes. -/
def mask (c : Cfg) : Nat := if c.bits > 8 then 0xFFFF else 0xFF

/-- `off_bytes` (R17). -/
def offBytes (c : Cfg) : Nat := if c.bits = 0 then 0 else if c.bits ≤ 8 then 1 else 2

/-- `CfgValid` (R18). -/
def valid (c : Cfg) : Bool :=
  decide (c.bits ≤ 16) &&
  (decide (1 ≤ c.mlenLimit) && decide (c.mlenLimit ≤ Config.lenMax)) &&
  (decide (1 ≤ c.llenLimit) && decide (c.llenLimit ≤ Config.lenMax)) &&
  (!c.offsetRelEn ||
    ((decide (c.bits = 8) || decide (c.bits = 16)) && decide (c.offsetRel.toNat ≤ c.maxOff - 1)))

/-- A match block of length `m` carries an offset field: "present iff M > 0 or zero_offset" (R63). -/
def offsetDue (c : Cfg) (m : Nat) : Bool := decide (0 < m) || c.zeroOffset

/-- The register at an index of R10, as the host reads it; `FLAGS` holds its three flags in bits 0 to 2. The bits
above a register's width read as 0 (assumption log 34). -/
def readReg (c : Cfg) : Nat → Option (BitVec 16)
  | 0 => some (c.bitsMoff.setWidth 16)
  | 1 => some c.maxMlen
  | 2 => some c.maxLlen
  | 3 => some ((BitVec.ofBool c.zeroOffset).setWidth 16 ||| ((BitVec.ofBool c.offsetRelEn).setWidth 16 <<< 1) |||
          ((BitVec.ofBool c.exorOffset).setWidth 16 <<< 2))
  | 4 => some c.offsetRel
  | _ => none

/-- A host write of a register of R10: it "holds whatever value of their width the host writes" (R19). DESIGN CHOICE: the
host writes 16 bits, and of a register that is narrower the bits above its width are dropped and read back as 0
(assumption log 34). -/
def writeReg (c : Cfg) (v : BitVec 16) : Nat → Option Cfg
  | 0 => some { c with bitsMoff := v.setWidth 5 }
  | 1 => some { c with maxMlen := v }
  | 2 => some { c with maxLlen := v }
  | 3 => some { c with zeroOffset := v.getLsbD 0, offsetRelEn := v.getLsbD 1, exorOffset := v.getLsbD 2 }
  | 4 => some { c with offsetRel := v }
  | _ => none

end Sys2Proof.Cfg
end

