-- ==== Sys2Proof/Syntax.lean ====
section
/-! DEFINITION. The instructions: one constructor for each row of spec/opcode_table.json. A token carries the fields of its
length or offset field; the data bytes of a literal and the offset field of a match stand in the stream behind it. -/

namespace Sys2Proof

inductive Instr where
  /-- LIT.B: one-byte literal length under `MAX_LLEN ≤ 255` (R65, R73). -/
  | litB (n : Byte)
  /-- LIT.S: one-byte literal length under `MAX_LLEN > 255`, the seven bits of a first byte below 128 (R65, R73). -/
  | litS (n : BitVec 7)
  /-- LIT.W: two-byte literal length; `lo` are bits 6..0 of the first byte (bit 7 is set), `hi` the second (R66, R73). -/
  | litW (lo : BitVec 7) (hi : Byte)
  /-- MAT.B (R65, R73). -/
  | matB (m : Byte)
  /-- MAT.S (R65, R73). -/
  | matS (m : BitVec 7)
  /-- MAT.W (R66, R73). -/
  | matW (lo : BitVec 7) (hi : Byte)
  /-- OFF.0: the empty offset field of `BITS_MOFF = 0` (R64, R142). -/
  | off0
  /-- OFF.1: one offset byte (R64, R141). -/
  | off1 (b0 : Byte)
  /-- OFF.2: two offset bytes, low byte first (R46, R64, R141). -/
  | off2 (b0 b1 : Byte)
  /-- END: the end of `IN` where a length field would start (R71, R148). -/
  | eos
  /-- ZLIT: pseudo-token, LIT with `L = 0` (R61, R74). -/
  | zlit
  /-- ZMAT: pseudo-token, MAT with `M = 0` (R62, R74). -/
  | zmat
  /-- NOP, code 0x00 (R76). -/
  | nop
  /-- CM.MOFF, code 0x10 (R81). -/
  | cmMoff
  /-- CM.MLEN, code 0x11 (R82). -/
  | cmMlen
  /-- CM.ZMC, code 0x12 (R83). -/
  | cmZmc
  /-- CM.LLEN, code 0x13 (R84). -/
  | cmLlen
  /-- MF.FIND, code 0x20 (R90). -/
  | mfFind
  /-- DP.INIT, code 0x30 (R100). -/
  | dpInit
  /-- DP.FILL, code 0x31 (R102). -/
  | dpFill
  /-- DP.RUN, code 0x32 (R101). -/
  | dpRun
  /-- DP.SELECT, code 0x33 (R109). -/
  | dpSelect
  /-- DEC.START, code 0x40 (R136). -/
  | decStart
  /-- DEC.RUN, code 0x41 (R137). -/
  | decRun
  /-- DEC.STEP, code 0x42 (R152). -/
  | decStep
  deriving DecidableEq, Repr

/-- Where the next instruction stands: in the command register, or at one of the three places of the stream where a token
can start. "Which kind (`LIT` or `MAT`) a length byte belongs to is decided by position alone" (R73). -/
inductive Slot where
  | command
  | literalLength
  | matchLength
  | offsetField
  deriving DecidableEq, Repr

end Sys2Proof
end

