-- ==== Sys2Proof/WellFormed.lean ====
section
/-! DEFINITION. Well-formedness: an instruction is well formed for the place it stands at. The widths of its fields are in
its type; what is left is the condition column of the token table (R73) and the kind of place (R60, R73). -/

namespace Sys2Proof

/-- The place an instruction is read at: the configuration, the kind of place, and whether the input has ended there (only
`END` asks for it). -/
structure Ctx where
  cfg   : Cfg
  slot  : Slot
  ended : Bool
  deriving DecidableEq, Repr

/-- A length limit under which length fields may take two bytes (R65, R66). -/
def wideLimit (limit : Nat) : Bool := decide (255 < limit)

/-- The condition of R73 (tokens) or the command slot (R75). -/
def WellFormed (x : Ctx) : Instr → Bool
  | .litB _ => x.slot == .literalLength && !wideLimit x.cfg.llenLimit
  | .litS _ => x.slot == .literalLength && wideLimit x.cfg.llenLimit
  | .litW _ _ => x.slot == .literalLength && wideLimit x.cfg.llenLimit
  | .matB _ => x.slot == .matchLength && !wideLimit x.cfg.mlenLimit
  | .matS _ => x.slot == .matchLength && wideLimit x.cfg.mlenLimit
  | .matW _ _ => x.slot == .matchLength && wideLimit x.cfg.mlenLimit
  | .off0 => x.slot == .offsetField && x.cfg.offBytes == 0
  | .off1 _ => x.slot == .offsetField && x.cfg.offBytes == 1
  | .off2 _ _ => x.slot == .offsetField && x.cfg.offBytes == 2
  | .eos => (x.slot == .literalLength || x.slot == .matchLength) && x.ended
  | .zlit => x.slot == .literalLength
  | .zmat => x.slot == .matchLength
  | .nop => x.slot == .command
  | .cmMoff => x.slot == .command
  | .cmMlen => x.slot == .command
  | .cmZmc => x.slot == .command
  | .cmLlen => x.slot == .command
  | .mfFind => x.slot == .command
  | .dpInit => x.slot == .command
  | .dpFill => x.slot == .command
  | .dpRun => x.slot == .command
  | .dpSelect => x.slot == .command
  | .decStart => x.slot == .command
  | .decRun => x.slot == .command
  | .decStep => x.slot == .command

end Sys2Proof
end

