-- ==== Sys2Proof/Decode.lean ====
section
/-! DEFINITION. The decoder, total on any bytes and rejecting by name, and the encoder, both from the tables of
30_encoding.md. -/

namespace Sys2Proof

/-- Why no instruction can be read. -/
inductive DecodeReject where
  /-- The byte in `CMD` is no code of R75 (R76). -/
  | unknownCommand (code : Byte)
  /-- No byte stands here (and, in the stream, no end of input that would be the token END). -/
  | noByte
  /-- The first byte of a two-byte field stands here, the second does not. -/
  | cutField
  deriving DecidableEq, Repr

/-- What decoding answers: an instruction and the bytes behind it, or a reason. -/
inductive Decoded where
  | instr (i : Instr) (rest : List Byte)
  | reject (r : DecodeReject)
  deriving DecidableEq, Repr

/-- The operation codes of R75. -/
def commandTable : List (Byte × Instr) :=
  [(0x00, .nop),
   (0x10, .cmMoff), (0x11, .cmMlen), (0x12, .cmZmc), (0x13, .cmLlen),
   (0x20, .mfFind),
   (0x30, .dpInit), (0x31, .dpFill), (0x32, .dpRun), (0x33, .dpSelect),
   (0x40, .decStart), (0x41, .decRun), (0x42, .decStep)]

/-- The operation a code names, if any (R75, R76). -/
def decodeCommand (code : Byte) : Option Instr := commandTable.lookup code

/-- A token at the start of a literal block: END, LIT.B, LIT.S or LIT.W (R65, R66, R71, R73). -/
def decodeLiteral (limit : Nat) (ended : Bool) : List Byte → Decoded
  | [] => if ended then .instr .eos [] else .reject .noByte
  | c :: rest =>
    if wideLimit limit then
      if c.toNat < 128 then .instr (.litS (c.setWidth 7)) rest
      else match rest with
        | [] => .reject .cutField
        | c2 :: rest' => .instr (.litW (c.setWidth 7) c2) rest'
    else .instr (.litB c) rest

/-- A token at the start of a match block: END, MAT.B, MAT.S or MAT.W (R65, R66, R71, R73). -/
def decodeMatch (limit : Nat) (ended : Bool) : List Byte → Decoded
  | [] => if ended then .instr .eos [] else .reject .noByte
  | c :: rest =>
    if wideLimit limit then
      if c.toNat < 128 then .instr (.matS (c.setWidth 7)) rest
      else match rest with
        | [] => .reject .cutField
        | c2 :: rest' => .instr (.matW (c.setWidth 7) c2) rest'
    else .instr (.matB c) rest

/-- An offset field of the given number of bytes: OFF.0, OFF.1 or OFF.2 (R63, R64, R73). -/
def decodeOffset (offBytes : Nat) (bs : List Byte) : Decoded :=
  if offBytes = 0 then .instr .off0 bs
  else match bs with
    | [] => .reject .noByte
    | b0 :: rest =>
      if offBytes = 1 then .instr (.off1 b0) rest
      else match rest with
        | [] => .reject .cutField
        | b1 :: rest' => .instr (.off2 b0 b1) rest'

/-- The instruction that stands at a place (R67, R73, R75): what a byte means depends on the place and on `CFG`. -/
def decode (x : Ctx) (bs : List Byte) : Decoded :=
  match x.slot with
  | .command =>
    match bs with
    | [] => .reject .noByte
    | code :: rest =>
      match decodeCommand code with
      | some i => .instr i rest
      | none => .reject (.unknownCommand code)
  | .literalLength => decodeLiteral x.cfg.llenLimit x.ended bs
  | .matchLength => decodeMatch x.cfg.mlenLimit x.ended bs
  | .offsetField => decodeOffset x.cfg.offBytes bs

/-- The value of a two-byte length field, `c + (c2 << 7)` (R66; 90_conflicts.md C1). -/
def wideLength (c c2 : Byte) : Nat := c.toNat + (c2.toNat <<< 7)

/-- The first byte of a two-byte length field: bit 7 set over the low seven bits (R66). -/
def wideFirst (lo : BitVec 7) : Byte := 0x80 ||| lo.setWidth 8

/-- The bytes of an instruction (R60-R66, R75). The data bytes of a literal and the offset field of a match follow as their
own bytes. -/
def encode : Instr → List Byte
  | .litB n => [n]
  | .litS n => [n.setWidth 8]
  | .litW lo hi => [wideFirst lo, hi]
  | .matB m => [m]
  | .matS m => [m.setWidth 8]
  | .matW lo hi => [wideFirst lo, hi]
  | .off0 => []
  | .off1 b0 => [b0]
  | .off2 b0 b1 => [b0, b1]
  | .eos => []
  | .zlit => [0x00]
  | .zmat => [0x00]
  | .nop => [0x00]
  | .cmMoff => [0x10]
  | .cmMlen => [0x11]
  | .cmZmc => [0x12]
  | .cmLlen => [0x13]
  | .mfFind => [0x20]
  | .dpInit => [0x30]
  | .dpFill => [0x31]
  | .dpRun => [0x32]
  | .dpSelect => [0x33]
  | .decStart => [0x40]
  | .decRun => [0x41]
  | .decStep => [0x42]

/-- The core token a pseudo-token is another name of (R74: "`ZLIT` is `LIT 0`", "`ZMAT` is `MAT 0`"); every other
instruction is itself. Assumption log 19. -/
def coreToken (c : Cfg) : Instr → Instr
  | .zlit => if wideLimit c.llenLimit then .litS 0 else .litB 0
  | .zmat => if wideLimit c.mlenLimit then .matS 0 else .matB 0
  | i => i

/-- The bytes of a length field for `x` under a limit, as the producer of a stream writes it (R60, R65, R66, R124). -/
def lenField (limit x : Nat) : List Byte :=
  if 255 < limit ∧ 127 < x then [BitVec.ofNat 8 (0x80 ||| (x &&& 0x7F)), BitVec.ofNat 8 ((x >>> 7) - 1)]
  else [BitVec.ofNat 8 x]

/-- The place at which a row's bits, given alone, are read. The opcode table's words do not say where they stand, and one
byte is several tokens and a command; the choice made is assumption log 20: no bits are the end of a stream, eight bits
that are a code of R75 are that command, other words are read at the start of a literal block under a limit above 255 where
that gives a token of their size, and as an offset field of two bytes otherwise. -/
def tableCtx (nbits w : Nat) : Ctx :=
  if nbits = 0 then { cfg := Cfg.reset, slot := .literalLength, ended := true }
  else if nbits = 8 ∧ (decodeCommand (BitVec.ofNat 8 w)).isSome then
    { cfg := Cfg.reset, slot := .command, ended := false }
  else if nbits = 8 ∨ (BitVec.ofNat 8 w).getLsbD 7 then
    { cfg := { Cfg.reset with maxLlen := 32895 }, slot := .literalLength, ended := false }
  else { cfg := { Cfg.reset with bitsMoff := 16 }, slot := .offsetField, ended := false }

/-- The bytes of a word as the stream holds them, first byte lowest, zeros above `nbits` up to the longest instruction
(two bytes). -/
def tableBytes (nbits w : Nat) : List Byte :=
  if nbits = 0 then [] else [BitVec.ofNat 8 w, if nbits ≤ 8 then 0 else BitVec.ofNat 8 (w >>> 8)]

/-- The instruction the decoder reads from a word numbered as spec/opcode_table.json numbers it, alone (log 20). -/
def decodeTableWord (nbits w : Nat) : Option Instr :=
  if nbits = 0 ∨ nbits = 8 ∨ nbits = 16 then
    match decode (tableCtx nbits w) (tableBytes nbits w) with
    | .instr i _ => some i
    | .reject _ => none
  else none

end Sys2Proof
end

