-- ==== Sys2Proof/Machine/State.lean ====
section
/-! DEFINITION. The state of the block as plain data, the reasons a step can stop, and the state after reset. -/

namespace Sys2Proof.Machine

/-- Data by index, in the one form every operation keeps: indexes strictly rising (`SMap.wf`). An index that is not listed
holds no value here; what the machine reads there is a free value (assumption logs 5, 6, 7, 9). -/
abbrev SMap (α : Type) := List (Nat × α)

/-- A byte memory: `DATA` or `RING` (R40). -/
abbrev Memory := List Host.Cell

/-- The per-position table `SP` (R22, R42). -/
abbrev Table := SMap SpCell

/-- The canonical form of a memory or table. -/
abbrev SMap.wf {α : Type} (m : SMap α) : Prop := m.Pairwise (fun x y => x.1 < y.1)

/-- The canonical form of a byte memory. -/
abbrev Memory.wf (m : Memory) : Prop := SMap.wf m

/-- `STATE` of a status register (R27). -/
inductive UnitState where
  | idle
  | busy
  | done
  | err
  deriving DecidableEq, Repr

/-- The error kinds (R160); `none` is code 0. -/
inductive ErrKind where
  | none
  | cfgError
  | truncated
  | oversize
  | infeasible
  deriving DecidableEq, Repr

/-- `ERREXP`: what the decoder expected (R27, R162); `none` is code 0. -/
inductive Expected where
  | none
  | literalByte
  | secondLengthByte
  | offsetByte
  deriving DecidableEq, Repr

/-- `STATE` and `ERRCODE`, the part every status register has (R27). -/
structure Status where
  state   : UnitState
  errcode : ErrKind
  deriving DecidableEq, Repr

/-- `DEC.PHASE` (R26). -/
inductive Phase where
  | idle
  | llen
  | llen2
  | lit
  | mlen
  | mlen2
  | offlo
  | offhi
  | copy
  | done
  | err
  deriving DecidableEq, Repr

/-- `DP.CHOICE` (R21): 0 is LITERAL, 1 is MATCH. -/
inductive Choice where
  | literal
  | matched
  deriving DecidableEq, Repr

/-- The result of a cost operation: "return either a cost or the indication `CfgError`" (R27, R80). -/
inductive CmResult where
  | nothing
  | cost (c : Cost)
  | cfgError
  deriving DecidableEq, Repr

/-- The ports of `CM`: the operand given to it and the result it last gave. The unit itself has no state (R80); the two are
the model's own fields (assumption log 4). -/
structure CmPorts where
  operand : Nat
  result  : CmResult
  deriving DecidableEq, Repr

/-- The registers of the match finder (R20, R27). -/
structure MfRegs where
  n      : PosReg
  p      : PosReg
  ml     : Nat
  mp     : Nat
  status : Status
  errpos : PosReg
  deriving DecidableEq, Repr

/-- The registers of the parser (R21, R27). `fill` is the model's own: `some (n, f)` says that this encode has input length
`n` and the cells `f..=n` hold their final values (R102, R186; assumption log 8). -/
structure DpRegs where
  n       : PosReg
  p       : PosReg
  prevLit : Bool
  choice  : Choice
  status  : Status
  errpos  : PosReg
  fill    : Option (Nat × Nat)
  deriving DecidableEq, Repr

/-- The decoder: its registers (R24), its status (R27), its ring (R43), its input stream with the end indication (R44) and
its output stream (R45), oldest byte first. -/
structure Dec where
  phase  : Phase
  pos    : Nat
  src    : BitVec 16
  off    : BitVec 16
  cnt    : Nat
  lenlo  : Byte
  ip     : Nat
  status : Status
  errpos : Nat
  errip  : Nat
  errexp : Expected
  ring   : Memory
  inp    : List Byte
  inEnd  : Bool
  out    : List Byte
  deriving DecidableEq, Repr

/-- The whole machine. `cmd` is the command register (R75) and `cmdReq` its request bit (assumption log 1); `freeCount` is
the counter of free values (assumption log 8); `held` is the number of `DATA` bytes that belong to an encode under way, 0 when
none is (R41, R187; assumption log 36). -/
structure State where
  cfg       : Cfg
  cmd       : Byte
  cmdReq    : Bool
  cm        : CmPorts
  mf        : MfRegs
  dp        : DpRegs
  sp        : Table
  data      : Memory
  dec       : Dec
  freeCount : Nat
  held      : Nat
  deriving DecidableEq, Repr

/-- No fault stops this machine: every error kind of the spec is recorded in a status register and the machine goes on
(R160, R168). The type has no constructor (assumption log 31). -/
inductive Fault where
  deriving DecidableEq, Repr

/-- Why a step has no meaning. -/
inductive Refusal where
  /-- Raised by exec's arm of an instruction that has no meaning in the model. Safe. -/
  | notModelled (mnemonic : String)
  /-- Raised by step on a code in `CMD` that R75 does not list: "refused: ... a model gives such a code no meaning" (R76).
  Safe. -/
  | unknownCommand (code : Byte)
  /-- Raised by MF.FIND with `p > N`, DP.FILL and DP.SELECT with `p ≥ N`: "the operation is given no meaning" (R97, D13).
  Safe. -/
  | operandOutOfRange
  /-- Raised by the meaning of a token asked for where the stream cannot hold it (R60, R73); step never asks (assumption
  log 28). Safe. -/
  | tokenOutOfPlace
  /-- Raised by a host write of `CFG` while a unit is busy (R19, U12), and by a change of stream under a running decoder
  (assumption log 25). Safe. -/
  | unitBusy
  /-- Raised by a host write that changes a byte of `DATA` of an encode under way (R41, R187, U13; assumption log 36). Safe. -/
  | encodeUnderWay
  /-- Raised when the host supplies a byte behind the end indication of `IN` (R44; assumption log 25). Safe. -/
  | streamEnded
  /-- Raised by a host access to a register index or a data index that does not exist (R10, R41). Safe. -/
  | noSuchPlace
  deriving DecidableEq, Repr

/-- A status register after reset (R32). -/
def Status.reset : Status := { state := .idle, errcode := .none }

/-- The machine right after reset (R32, R180); the fields the table of R32 does not list are assumption logs 1, 3, 4, 8,
36. -/
def State.reset : State :=
  { cfg := Cfg.reset
    cmd := 0x00
    cmdReq := false
    cm := { operand := 0, result := .nothing }
    mf := { n := 0, p := 0, ml := 0, mp := 0, status := Status.reset, errpos := 0 }
    dp := { n := 0, p := 0, prevLit := false, choice := .literal, status := Status.reset, errpos := 0, fill := none }
    sp := []
    data := []
    dec :=
      { phase := .idle, pos := 0, src := 0, off := 0, cnt := 0, lenlo := 0, ip := 0, status := Status.reset,
        errpos := 0, errip := 0, errexp := .none, ring := [], inp := [], inEnd := false, out := [] }
    freeCount := 0
    held := 0 }

end Sys2Proof.Machine
end

