-- ==== Sys2Proof/Machine/Flags.lean ====
section
/-! DEFINITION. The status registers. The block has no condition codes (R28, R86): what other hardware keeps in flags is
here `STATE`, `ERRCODE`, `ERREXP` (R27) and the flags of `CFG`. This file gives the numbers the host reads there, and the
changes of `STATE` and `ERRCODE`. -/

namespace Sys2Proof.Machine

/-- The code of `STATE` (R27). -/
def UnitState.code : UnitState → BitVec 2
  | .idle => 0
  | .busy => 1
  | .done => 2
  | .err => 3

/-- The code of `ERRCODE` (R160). -/
def ErrKind.code : ErrKind → BitVec 4
  | .none => 0
  | .cfgError => 1
  | .truncated => 2
  | .oversize => 3
  | .infeasible => 4

/-- The code of `ERREXP` (R162). -/
def Expected.code : Expected → BitVec 2
  | .none => 0
  | .literalByte => 1
  | .secondLengthByte => 2
  | .offsetByte => 3

/-- The code of `DP.CHOICE` (R21). -/
def Choice.code : Choice → BitVec 1
  | .literal => 0
  | .matched => 1

/-- A run begins: `STATE <- BUSY; ERRCODE <- 0` (R136, R169). -/
def Status.started : Status := { state := .busy, errcode := .none }

/-- A fresh start operation that is complete at once: `STATE <- DONE; ERRCODE <- 0` (R101, R169; assumption log 11). -/
def Status.completed : Status := { state := .done, errcode := .none }

/-- A run ends cleanly: `STATE <- DONE`, nothing else of the status (R148). -/
def Status.finished (st : Status) : Status := { st with state := .done }

/-- `STATE <- ERR; ERRCODE <- code(E)` (R168). -/
def Status.raised (kind : ErrKind) : Status := { state := .err, errcode := kind }

end Sys2Proof.Machine
end

