-- ==== Sys2Proof/Machine/Operands.lean ====
section
/-! DEFINITION. The arithmetic of the block (R86): costs, loops, ring indexes and source indexes. -/

namespace Sys2Proof

/-- Saturating addition: `INF + x = x + INF = INF` (R7). -/
def Cost.add : Cost → Cost → Cost
  | .fin a, .fin b => .fin (a + b)
  | .fin _, .inf => .inf
  | .inf, _ => .inf

/-- The subtraction of R103: a finite minuend, a subtrahend not above it. What lies outside R103's use is assumption
log 23. -/
def Cost.sub : Cost → Cost → Cost
  | .fin a, .fin b => .fin (a - b)
  | .fin _, .inf => .fin 0
  | .inf, _ => .inf

/-- `a < b`: `INF` is the largest element, `INF < x` is false for every `x` (R7). -/
def Cost.lt : Cost → Cost → Bool
  | .fin a, .fin b => decide (a < b)
  | .fin _, .inf => true
  | .inf, _ => false

/-- `a ≤ b`: `INF ≤ INF` is true, `INF ≤ a` is false for finite `a` (R7). -/
def Cost.le : Cost → Cost → Bool
  | .fin a, .fin b => decide (a ≤ b)
  | .inf, .fin _ => false
  | _, .inf => true

/-- The loop `for i in 1..=n` in ascending order (R7, R8). -/
def loopUp {α : Type} (body : Nat → α → α) : Nat → α → α
  | 0, a => a
  | n + 1, a => body (n + 1) (loopUp body n a)

/-- The largest `k ≤ cap` such that `same j` for every `j < k` (R92), counted on from `j`. -/
def prefixFrom (same : Nat → Bool) : Nat → Nat → Nat
  | 0, j => j
  | cap + 1, j => if same j then prefixFrom same cap (j + 1) else j

/-- The ring index of a position: `pos & mask` (R43). -/
def Cfg.ringIndex (c : Cfg) (i : Nat) : Nat := i &&& c.mask

/-- The complement of R143: the whole mask. -/
def Cfg.complement (c : Cfg) (off : BitVec 16) : BitVec 16 := off ^^^ BitVec.ofNat 16 c.mask

/-- `DEC.SRC` from the offset: normal mode (R145) `(pos - off + mask) & mask`, address-relative mode (R146)
`(off + mask + 1 - OFFSET_REL) & mask`. The sums are taken before the differences (R86). -/
def Cfg.sourceIndex (c : Cfg) (pos : Nat) (off : BitVec 16) : BitVec 16 :=
  if c.offsetRelEn then BitVec.ofNat 16 ((off.toNat + c.mask + 1 - c.offsetRel.toNat) &&& c.mask)
  else BitVec.ofNat 16 ((pos + c.mask - off.toNat) &&& c.mask)

end Sys2Proof
end

