-- ==== Sys2Proof/Machine/Ops.lean ====
section
/-! DEFINITION. The shared operations: memories and table, streams, ring, state updates, and raising an error with the
return from one. -/

namespace Sys2Proof.Machine

/-! ## Memories -/

/-- The value stored at an index, if one has been stored. -/
def SMap.get? {α : Type} : SMap α → Nat → Option α
  | [], _ => none
  | (k, v) :: m, a => if k = a then some v else SMap.get? m a

/-- Store a value at an index; the list stays in its form. -/
def SMap.put {α : Type} : SMap α → Nat → α → SMap α
  | [], a, x => [(a, x)]
  | (k, v) :: m, a, x =>
    if a < k then (a, x) :: (k, v) :: m
    else if k = a then (a, x) :: m
    else (k, v) :: SMap.put m a x

/-- `Data[i] = MemRead(DATA, i, 1)` (R7, R41); a byte nothing has loaded is a free value (assumption log 6). -/
def dataByte (m : Memory) (i : Nat) : Byte := (SMap.get? m i).getD (Config.dataPowerOn i)

/-- `SP[p]` (R22); a cell nothing has written is a free value (R32, U9; assumption log 7). -/
def cellAt (t : Table) (p : Nat) : SpCell := (SMap.get? t p).getD (Config.spPowerOn p)

/-- `Ring[i & mask]` (R43); a cell nothing has written is a free value, the same at every read until it is written (R151;
assumption log 5). -/
def ringByte (c : Cfg) (ring : Memory) (i : Nat) : Byte :=
  (SMap.get? ring (c.ringIndex i)).getD (Config.ringPowerOn (c.ringIndex i))

/-! ## State updates -/

namespace State

def setCmdReq (b : Bool) (s : State) : State := { s with cmdReq := b }
def setCm (x : CmPorts) (s : State) : State := { s with cm := x }
def setMf (x : MfRegs) (s : State) : State := { s with mf := x }
def setDp (x : DpRegs) (s : State) : State := { s with dp := x }
def setSp (x : Table) (s : State) : State := { s with sp := x }
def setDec (x : Dec) (s : State) : State := { s with dec := x }
def setFree (x : Nat) (s : State) : State := { s with freeCount := x }

/-- The first `n` bytes of `DATA` belong to the encode under way (R41, R187; assumption log 36). -/
def holdData (n : Nat) (s : State) : State := { s with held := max s.held n }

end State

/-! ## Raising an error, and the return from one

`raise E(info)` (R168): `STATE <- ERR`, `ERRCODE <- code(E)`, the recorded fields of R160, for `DEC` also `PHASE <- ERR`;
nothing else changes. There is no handler and no transfer of control. The shared part is `Status.raised`; each unit adds
its recorded fields. -/

/-- MF raises (R160, R163): `Oversize` records `N`, `CfgError` nothing more. -/
def MfRegs.raise (kind : ErrKind) (r : MfRegs) : MfRegs :=
  { r with status := Status.raised kind, errpos := if kind = .oversize then r.n else r.errpos }

/-- DP raises (R160, R163, R164): `Oversize` records `N`, `Infeasible` records `p`, `CfgError` nothing more. -/
def DpRegs.raise (kind : ErrKind) (r : DpRegs) : DpRegs :=
  { r with
    status := Status.raised kind
    errpos := if kind = .oversize then r.n else if kind = .infeasible then r.p else r.errpos }

/-- DEC raises `CfgError`: "nothing more" is recorded (R160, R161). -/
def Dec.raiseCfg (d : Dec) : Dec := { d with phase := .err, status := Status.raised .cfgError }

/-- DEC raises `Truncated`: what was expected, `DEC.POS` and `DEC.IP` are recorded (R149, R162, R166). -/
def Dec.raiseTruncated (e : Expected) (d : Dec) : Dec :=
  { d with phase := .err, status := Status.raised .truncated, errpos := d.pos, errip := d.ip, errexp := e }

/-- The return from an error is a fresh start operation (R169): `DEC.START`'s effect on the decoder (R136). `RING`, `IN` and
`OUT` stay as they are (R191). -/
def Dec.start (d : Dec) : Dec :=
  { d with
    pos := 0, ip := 0, cnt := 0, src := 0, off := 0, lenlo := 0
    phase := .llen, status := Status.started }

/-- The clean end of a run (R148). -/
def Dec.finish (d : Dec) : Dec := { d with phase := .done, status := d.status.finished }

/-! ## Streams and ring -/

/-- What `InByte()` answers (R44): a byte and the decoder that has consumed it, the end of the stream, or neither yet: the
host has given no byte and no end indication, and the decoder waits (R170, U15; assumption log 3). -/
inductive InByte where
  | byte (b : Byte) (d : Dec)
  | eof
  | wait

/-- `InByte()`: a successful one adds one to `DEC.IP` (R26, R44). -/
def Dec.inByte (d : Dec) : InByte :=
  match d.inp with
  | b :: rest => .byte b { d with inp := rest, ip := d.ip + 1 }
  | [] => if d.inEnd then .eof else .wait

/-- Store a byte at the ring's write index, output it, advance `DEC.POS` (R139, R147). -/
def Dec.emit (c : Cfg) (x : Byte) (d : Dec) : Dec :=
  { d with ring := SMap.put d.ring (c.ringIndex d.pos) x, out := d.out ++ [x], pos := d.pos + 1 }

/-- One literal byte, of the `DEC.CNT` that remain (R139, R152). -/
def Dec.literalByte (c : Cfg) (x : Byte) (d : Dec) : Dec := { d.emit c x with cnt := d.cnt - 1 }

/-- One iteration of the copy: read, then write, then advance both (R147, R184, R185). -/
def Dec.copyByte (c : Cfg) (d : Dec) : Dec :=
  { d.emit c (ringByte c d.ring d.src.toNat) with src := d.src + 1, cnt := d.cnt - 1 }

/-- The offset is assembled: complement it if so configured (R143) and compute the source index (R145, R146). -/
def Dec.computeSrc (c : Cfg) (d : Dec) : Dec :=
  let off := if c.exorOffset then c.complement d.off else d.off
  { d with off := off, src := c.sourceIndex d.pos off }

/-- RLE mode: `off = 0`, the complement is not applied (R142, R144), and the source index. -/
def Dec.rleSrc (c : Cfg) (d : Dec) : Dec := { d with off := 0, src := c.sourceIndex d.pos 0 }

end Sys2Proof.Machine
end

