-- ==== Sys2Proof/Machine/CostUnit.lean ====
section
/-! DEFINITION. The cost model unit `CM` (40_cost_model.md): the four cost functions and the commands that answer with
them. -/

namespace Sys2Proof

/-- `moff_cost(o)` (R81), the tests in the order given there. -/
def Cfg.moffCost (c : Cfg) (o : Nat) : Cost :=
  if o < 1 ∨ c.maxOff < o then .inf
  else if c.bits = 0 then .fin 0
  else if c.bits ≤ 8 then .fin 8
  else .fin 16

/-- `mlen_cost(l)` (R82). -/
def Cfg.mlenCost (c : Cfg) (l : Nat) : Cost :=
  if c.mlenLimit < l then .inf
  else if 255 < c.mlenLimit ∧ 127 < l then .fin 16
  else .fin 8

/-- `zero_match_cost` (R17, R83). -/
def Cfg.zeroMatchCost (c : Cfg) : Cost :=
  (c.mlenCost 0).add (if c.zeroOffset then c.moffCost 1 else .fin 0)

/-- The loop of R84 on `acc` and `l`: while `l > MAX_LLEN`, one "split". The first argument bounds the number of rounds; `l`
rounds are enough, since `MAX_LLEN ≥ 1` under `CfgValid` (assumption log 29). -/
def Cfg.llenSplits (c : Cfg) : Nat → Cost → Nat → Cost × Nat
  | 0, acc, l => (acc, l)
  | k + 1, acc, l =>
    if c.llenLimit < l then c.llenSplits k ((acc.add (.fin 8)).add c.zeroMatchCost) (l - c.llenLimit) else (acc, l)

/-- `llen_cost(l)` (R84; 90_conflicts.md C6). -/
def Cfg.llenCost (c : Cfg) (l : Nat) : Cost :=
  if l = 0 then .fin 0
  else
    match c.llenSplits l (.fin 0) l with
    | (acc, r) => (Cost.fin 8).add (if 255 < c.llenLimit ∧ 127 < r then acc.add (.fin 8) else acc)

namespace Machine

/-- An operation of `CM`: `CfgError` when `CfgValid` fails, else the cost; no state and no flag is written, the result goes
to the result port (R80; assumption log 4). -/
def answerCost (c : Cost) (s : State) : State :=
  s.setCm { s.cm with result := if s.cfg.valid then .cost c else .cfgError }

/-- CM.MOFF (R81). -/
def execCmMoff (s : State) : Host.Outcome State Fault Refusal := .next (answerCost (s.cfg.moffCost s.cm.operand) s)

/-- CM.MLEN (R82). -/
def execCmMlen (s : State) : Host.Outcome State Fault Refusal := .next (answerCost (s.cfg.mlenCost s.cm.operand) s)

/-- CM.ZMC (R83). -/
def execCmZmc (s : State) : Host.Outcome State Fault Refusal := .next (answerCost s.cfg.zeroMatchCost s)

/-- CM.LLEN (R84). -/
def execCmLlen (s : State) : Host.Outcome State Fault Refusal := .next (answerCost (s.cfg.llenCost s.cm.operand) s)

/-- NOP "does nothing" (R76). -/
def execNop (s : State) : Host.Outcome State Fault Refusal := .next s

end Machine

end Sys2Proof
end

