-- ==== Sys2Proof/Machine/MatchFinder.lean ====
section
/-! DEFINITION. The match finder unit `MF` (41_match_finder.md). -/

namespace Sys2Proof

/-- `lcp(i)` (R92): the longest common prefix of `data[p..]` and `data[i..]`, at most `cap`. -/
def commonPrefix (dat : Nat → Byte) (cap p i : Nat) : Nat := prefixFrom (fun j => dat (p + j) == dat (i + j)) cap 0

/-- `MF.FIND(p)` (R91 to R94): `(ml, mp)`, the scan of R93 over `i` from `max(p - max_off, 0)` up to `p - 1`. -/
def findMatch (c : Cfg) (dat : Nat → Byte) (n p : Nat) : Nat × Nat :=
  loopUp
    (fun j best =>
      let i := (p - c.maxOff) + (j - 1)
      let k := commonPrefix dat (min c.mlenLimit (n - p)) p i
      if 1 ≤ k ∧ best.1 ≤ k then (k, p - i) else best)
    (min p c.maxOff) (0, 0)

namespace Machine

/-- MF.FIND: `CfgError`, then `Oversize`, then no meaning for `p > N` (R97, R167), else `MF.ML`, `MF.MP` and the unit's own
status (R90; assumption logs 11, 14). `DATA` is then held (R187; assumption log 36). -/
def execMfFind (s : State) : Host.Outcome State Fault Refusal :=
  if s.cfg.valid = false then .next (s.setMf (s.mf.raise .cfgError))
  else if Config.nCap < s.mf.n.toNat then .next (s.setMf (s.mf.raise .oversize))
  else if s.mf.n.toNat < s.mf.p.toNat then .refused .operandOutOfRange
  else
    match findMatch s.cfg (dataByte s.data) s.mf.n.toNat s.mf.p.toNat with
    | (ml, mp) =>
      .next ((s.setMf { s.mf with ml := ml, mp := mp, status := Status.completed }).holdData s.mf.n.toNat)

end Machine

end Sys2Proof
end

