-- ==== Sys2Proof/Machine/Parser.lean ====
section
/-! DEFINITION. The parser table state machine `DP` (42_dp_parser.md). -/

namespace Sys2Proof

/-- The sentinel cell (R23, R100). -/
def SpCell.sentinel : SpCell := { llen := 0, lbits := .fin 0, mlen := 0, mpos := 0, mbits := .inf }

/-- `lbits`, `llen` and the running maximum `ml` of the literal path (R103). -/
structure LitPath where
  lbits : Cost
  llen  : Nat
  ml    : Nat
  deriving DecidableEq, Repr

/-- One round of the first loop (R103): join a literal that starts `i` bytes later. -/
def joinRound (c : Cfg) (cell : Nat → SpCell) (n p i : Nat) (x : LitPath) : LitPath :=
  if p + i ≤ n then
    let a := (cell (p + i)).llen
    let cand := ((((cell (p + i)).lbits).add (.fin (8 * i))).add (c.llenCost (a + i))).sub (c.llenCost a)
    let ml := max x.ml (a + i)
    if cand.lt x.lbits then { lbits := cand, llen := a + i, ml := ml } else { x with ml := ml }
  else x

/-- The first loop (R103), `i` in `1..=5`. -/
def joinLiterals (c : Cfg) (cell : Nat → SpCell) (n p : Nat) : LitPath :=
  loopUp (joinRound c cell n p) Config.fanout { lbits := .inf, llen := 0, ml := 0 }

/-- One round of the second loop (R104): `i` literal bytes, then a match. -/
def shortLiteralRound (c : Cfg) (cell : Nat → SpCell) (p i : Nat) (x : LitPath) : LitPath :=
  let cand := (((cell (p + i)).mbits).add (.fin (8 * i))).add (c.llenCost i)
  if cand.lt x.lbits then { x with lbits := cand, llen := i } else x

/-- The literal path: the first loop, then the second with the `ml` it leaves (R103, R104). -/
def literalPath (c : Cfg) (cell : Nat → SpCell) (n p : Nat) : LitPath :=
  let x := joinLiterals c cell n p
  loopUp (shortLiteralRound c cell p) (x.ml - 1) x

/-- One round of the match path (R105), with the tie policy of R106. -/
def matchRound (c : Cfg) (cell : Nat → SpCell) (p mp l : Nat) (x : Cost × Nat) : Cost × Nat :=
  let base := (c.moffCost mp).add (c.mlenCost l)
  let lbitsCand := ((cell (p + l)).lbits).add base
  let mbitsCand := (((cell (p + l)).mbits).add (c.llenCost 1)).add base
  let y := if lbitsCand.lt x.1 then (lbitsCand, l) else x
  if mbitsCand ≠ .inf ∧ mbitsCand.le y.1 then (mbitsCand, l) else y

/-- The match path (R105): `mbits` and `mlen` over all `l` in `1..=fl` at the one distance `mp`. -/
def matchPath (c : Cfg) (cell : Nat → SpCell) (p fl mp : Nat) : Cost × Nat :=
  loopUp (matchRound c cell p mp) fl (.inf, 0)

/-- The cell `DP.FILL(p)` computes (R103 to R107). -/
def fillCell (c : Cfg) (dat : Nat → Byte) (n : Nat) (cell : Nat → SpCell) (p : Nat) : SpCell :=
  let lit := literalPath c cell n p
  let found := findMatch c dat n p
  let mat := matchPath c cell p found.1 found.2
  { llen := lit.llen, lbits := lit.lbits, mlen := mat.2, mpos := if 1 ≤ found.1 then found.2 else 0, mbits := mat.1 }

/-- The choice of R109; no answer when both costs are `INF` (R110). -/
def selectChoice (c : Cfg) (x : SpCell) (prevLit : Bool) : Option Machine.Choice :=
  if x.lbits = .inf ∧ x.mbits = .inf then none
  else if (x.lbits.add (if prevLit then c.zeroMatchCost else .fin 0)).le x.mbits then some .literal
  else some .matched

namespace Machine

/-- `SP[p] <- fillCell` (R107). -/
def fillInto (c : Cfg) (dat : Nat → Byte) (n : Nat) (t : Table) (p : Nat) : Table :=
  SMap.put t p (fillCell c dat n (cellAt t) p)

/-- `DP.FILL(p)` for `p` from `k - 1` down to 0 (R101). -/
def fillDown (c : Cfg) (dat : Nat → Byte) (n : Nat) : Nat → Table → Table
  | 0, t => t
  | k + 1, t => fillDown c dat n k (fillInto c dat n t k)

/-- DP.INIT (R100): the sentinel at `SP[N]`; a fresh start operation (R169; assumption logs 8, 11). The commands
of `DP` that use an encode's `DATA` hold it (R41, R187; assumption log 36). -/
def execDpInit (s : State) : Host.Outcome State Fault Refusal :=
  if s.cfg.valid = false then .next (s.setDp (s.dp.raise .cfgError))
  else if Config.nCap < s.dp.n.toNat then .next (s.setDp (s.dp.raise .oversize))
  else
    .next (((s.setSp (SMap.put s.sp s.dp.n.toNat SpCell.sentinel)).setDp
      { s.dp with status := Status.completed, fill := some (s.dp.n.toNat, s.dp.n.toNat) }).holdData s.dp.n.toNat)

/-- The cells above `p` hold their final values of an encode of length `n` (R102, R186): the lowest final position, if so. -/
def finalAbove (fill : Option (Nat × Nat)) (n p : Nat) : Option Nat :=
  match fill with
  | some (m, f) => if m = n ∧ f ≤ p + 1 then some f else none
  | none => none

/-- The effect of DP.FILL on the table (R102, R107). When the cells above are not all final, the cell written is a free
value (R186, U8) and the counter of free values advances; an encode of another length is then no longer tracked. -/
def fillEffect (s : State) : State :=
  match finalAbove s.dp.fill s.dp.n.toNat s.dp.p.toNat with
  | some f =>
    (s.setSp (fillInto s.cfg (dataByte s.data) s.dp.n.toNat s.sp s.dp.p.toNat)).setDp
      { s.dp with fill := some (s.dp.n.toNat, min f s.dp.p.toNat) }
  | none =>
    ((s.setSp (SMap.put s.sp s.dp.p.toNat (Config.freeCell s.freeCount))).setFree (s.freeCount + 1)).setDp
      { s.dp with fill := if s.dp.fill.map Prod.fst = some s.dp.n.toNat then s.dp.fill else none }

/-- DP.FILL (R102 to R107): not accepted by a unit in ERR (R169; assumption log 12); `CfgError`, `Oversize` before any read
(R107); no meaning for `p ≥ N` (D13; assumption log 14). -/
def execDpFill (s : State) : Host.Outcome State Fault Refusal :=
  if s.dp.status.state = .err then .next s
  else if s.cfg.valid = false then .next (s.setDp (s.dp.raise .cfgError))
  else if Config.nCap < s.dp.n.toNat then .next (s.setDp (s.dp.raise .oversize))
  else if s.dp.n.toNat ≤ s.dp.p.toNat then .refused .operandOutOfRange
  else .next ((fillEffect s).holdData s.dp.n.toNat)

/-- DP.RUN (R101): the sentinel, then every cell in descending order; `DP.P` follows the fill and ends at 0 (it is not
written when `N = 0`), `STATE <- DONE`. -/
def execDpRun (s : State) : Host.Outcome State Fault Refusal :=
  if s.cfg.valid = false then .next (s.setDp (s.dp.raise .cfgError))
  else if Config.nCap < s.dp.n.toNat then .next (s.setDp (s.dp.raise .oversize))
  else
    .next (((s.setSp (fillDown s.cfg (dataByte s.data) s.dp.n.toNat s.dp.n.toNat
        (SMap.put s.sp s.dp.n.toNat SpCell.sentinel))).setDp
      { s.dp with
        p := if s.dp.n = 0 then s.dp.p else 0
        status := Status.completed
        fill := some (s.dp.n.toNat, 0) }).holdData s.dp.n.toNat)

/-- DP.SELECT (R109, R110): not accepted by a unit in ERR (R169; assumption log 12); `CfgError`; no meaning for `p ≥ N` (D13;
assumption log 14); `Infeasible` when both costs are `INF`; else `DP.CHOICE`. -/
def execDpSelect (s : State) : Host.Outcome State Fault Refusal :=
  if s.dp.status.state = .err then .next s
  else if s.cfg.valid = false then .next (s.setDp (s.dp.raise .cfgError))
  else if s.dp.n.toNat ≤ s.dp.p.toNat then .refused .operandOutOfRange
  else
    match selectChoice s.cfg (cellAt s.sp s.dp.p.toNat) s.dp.prevLit with
    | none => .next (s.setDp (s.dp.raise .infeasible))
    | some x => .next (s.setDp { s.dp with choice := x })

end Machine

end Sys2Proof
end

