-- ==== Sys2Proof/Machine/Decoder.lean ====
section
/-! DEFINITION. The stream decoder unit `DEC` (44_decoder.md), twice over the same shared operations: block by block, as the
loop of R137 to R148, and byte by byte, as the table of R152. -/

namespace Sys2Proof.Machine

/-! ## Block by block (R137 to R149) -/

/-- What `GetLen` answers: a length, or the decoder stopped in it (clean end, `Truncated`, or waiting for input). -/
inductive LenResult where
  | length (n : Nat) (d : Dec)
  | stop (d : Dec)

/-- `GetLen(limit)` (R138); `second` is the phase that waits for the second byte. -/
def Dec.getLen (limit : Nat) (second : Phase) (d : Dec) : LenResult :=
  match d.inByte with
  | .eof => .stop d.finish
  | .wait => .stop d
  | .byte c d1 =>
    if limit < 256 ∨ c.toNat < 128 then .length c.toNat d1
    else
      match Dec.inByte { d1 with lenlo := c } with
      | .eof => .stop (Dec.raiseTruncated .secondLengthByte { d1 with lenlo := c })
      | .wait => .stop { d1 with lenlo := c, phase := second }
      | .byte c2 d2 => .length (wideLength c c2) d2

/-- The loop of R139 over the bytes that remain; a match length is expected behind them. -/
def Dec.literalLoop (c : Cfg) : Nat → Dec → Dec
  | 0, d => { d with phase := .mlen }
  | n + 1, d =>
    match d.inByte with
    | .byte x d1 => Dec.literalLoop c n (d1.literalByte c x)
    | .eof => d.raiseTruncated .literalByte
    | .wait => { d with phase := .lit }

/-- `Literal(n)` (R139), with `DEC.CNT` counting the bytes that remain (R24). -/
def Dec.literal (c : Cfg) (n : Nat) (d : Dec) : Dec := Dec.literalLoop c n { d with cnt := n }

/-- The loop of R147; a literal length is expected behind it. -/
def Dec.copyLoop (c : Cfg) : Nat → Dec → Dec
  | 0, d => { d with phase := .llen }
  | n + 1, d => Dec.copyLoop c n (d.copyByte c)

/-- `Copy(n)` (R147) for `n = DEC.CNT`. -/
def Dec.copy (c : Cfg) (d : Dec) : Dec := Dec.copyLoop c d.cnt d

/-- The rest of a match block once the bytes of its offset field are in `DEC.OFF`: complement, source, copy. -/
def Dec.finishOffset (c : Cfg) (d : Dec) : Dec := (d.computeSrc c).copy c

/-- The first offset byte goes to the low half (R141). -/
def Dec.lowOffset (b : Byte) (d : Dec) : Dec := { d with off := b.setWidth 16 }

/-- The second offset byte goes to the high half (R46, R141). -/
def Dec.highOffset (b : Byte) (d : Dec) : Dec := { d with off := d.off ||| (b.setWidth 16 <<< 8) }

/-- `ReadOffset()`, `ComputeSrc()`, `Copy` (R141 to R147). `DEC.OFF` takes each byte as it comes (R152; assumption
log 17). -/
def Dec.offsetField (c : Cfg) (d : Dec) : Dec :=
  if c.bits = 0 then (d.rleSrc c).copy c
  else
    match d.inByte with
    | .eof => d.raiseTruncated .offsetByte
    | .wait => { d with phase := .offlo }
    | .byte b0 d1 =>
      if c.bits > 8 then
        match (d1.lowOffset b0).inByte with
        | .eof => (d1.lowOffset b0).raiseTruncated .offsetByte
        | .wait => { d1.lowOffset b0 with phase := .offhi }
        | .byte b1 d2 => (d2.highOffset b1).finishOffset c
      else (d1.lowOffset b0).finishOffset c

/-- A match block of length `n` (R140): "If `n > 0` or `CFG.ZERO_OFFSET = 1`: read the offset, compute the source, copy.
Otherwise nothing." -/
def Dec.matchBlock (c : Cfg) (n : Nat) (d : Dec) : Dec :=
  if c.offsetDue n then Dec.offsetField c { d with cnt := n } else { d with cnt := n, phase := .llen }

/-- The loop of R137. The first argument bounds the number of rounds: a round that goes on has consumed two bytes of `IN`. -/
def Dec.loop (c : Cfg) : Nat → Dec → Dec
  | 0, d => d
  | k + 1, d =>
    match d.getLen c.llenLimit .llen2 with
    | .stop d1 => d1
    | .length n d1 =>
      if (d1.literal c n).phase = .mlen then
        match (d1.literal c n).getLen c.mlenLimit .mlen2 with
        | .stop d3 => d3
        | .length m d3 =>
          if (d3.matchBlock c m).phase = .llen then Dec.loop c k (d3.matchBlock c m) else d3.matchBlock c m
      else d1.literal c n

/-- A whole run (R137): `DEC.START`, then the loop until it ends (or waits for input). -/
def Dec.run (c : Cfg) (d : Dec) : Dec := Dec.loop c (d.inp.length + 1) d.start

/-! ## Byte by byte (R152) -/

/-- `AfterLLen`. -/
def Dec.afterLLen (d : Dec) : Dec := { d with phase := if 0 < d.cnt then .lit else .mlen }

/-- `AfterSrc`. -/
def Dec.afterSrc (d : Dec) : Dec := { d with phase := if 0 < d.cnt then .copy else .llen }

/-- `AfterOff`. -/
def Dec.afterOff (c : Cfg) (d : Dec) : Dec := (d.computeSrc c).afterSrc

/-- `AfterMLen`. -/
def Dec.afterMLen (c : Cfg) (d : Dec) : Dec :=
  if d.cnt = 0 ∧ c.zeroOffset = false then { d with phase := .llen }
  else if c.bits = 0 then (d.rleSrc c).afterSrc
  else { d with phase := .offlo }

/-- One row of the table of R152 that takes a byte: what is done on a byte and on the end of the stream; with neither there
the phase stays (R170). -/
def Dec.onByte (d : Dec) (atByte : Byte → Dec → Dec) (atEnd : Dec) : Dec :=
  match d.inByte with
  | .byte b d1 => atByte b d1
  | .eof => atEnd
  | .wait => d

/-- One byte step (R152). In phase `OFFLO` under `BITS_MOFF = 0` the offset field is empty (R142; assumption log 18). -/
def Dec.byteStep (c : Cfg) (d : Dec) : Dec :=
  match d.phase with
  | .llen =>
    d.onByte
      (fun b d1 =>
        if 256 ≤ c.llenLimit ∧ 128 ≤ b.toNat then { d1 with lenlo := b, phase := .llen2 }
        else Dec.afterLLen { d1 with cnt := b.toNat })
      d.finish
  | .llen2 =>
    d.onByte (fun b d1 => Dec.afterLLen { d1 with cnt := wideLength d1.lenlo b }) (d.raiseTruncated .secondLengthByte)
  | .lit =>
    d.onByte
      (fun b d1 => let d2 := d1.literalByte c b; if d2.cnt = 0 then { d2 with phase := .mlen } else d2)
      (d.raiseTruncated .literalByte)
  | .mlen =>
    d.onByte
      (fun b d1 =>
        if 256 ≤ c.mlenLimit ∧ 128 ≤ b.toNat then { d1 with lenlo := b, phase := .mlen2 }
        else Dec.afterMLen c { d1 with cnt := b.toNat })
      d.finish
  | .mlen2 =>
    d.onByte (fun b d1 => Dec.afterMLen c { d1 with cnt := wideLength d1.lenlo b }) (d.raiseTruncated .secondLengthByte)
  | .offlo =>
    if c.bits = 0 then (d.rleSrc c).afterSrc
    else
      d.onByte
        (fun b d1 => if c.bits > 8 then { d1.lowOffset b with phase := .offhi } else (d1.lowOffset b).afterOff c)
        (d.raiseTruncated .offsetByte)
  | .offhi => d.onByte (fun b d1 => (d1.highOffset b).afterOff c) (d.raiseTruncated .offsetByte)
  | .copy => let d1 := d.copyByte c; if d1.cnt = 0 then { d1 with phase := .llen } else d1
  | .idle => d
  | .done => d
  | .err => d

/-! ## The commands -/

/-- DEC.START (R136). -/
def execDecStart (s : State) : Host.Outcome State Fault Refusal :=
  if s.cfg.valid = false then .next (s.setDec s.dec.raiseCfg) else .next (s.setDec s.dec.start)

/-- DEC.RUN (R137). -/
def execDecRun (s : State) : Host.Outcome State Fault Refusal :=
  if s.cfg.valid = false then .next (s.setDec s.dec.raiseCfg) else .next (s.setDec (s.dec.run s.cfg))

/-- DEC.STEP (R152): "a stopped unit raises nothing" (R169), `CfgError` (R18, R160; assumption log 13), else one step. -/
def execDecStep (s : State) : Host.Outcome State Fault Refusal :=
  if s.dec.status.state = .err then .next s
  else if s.cfg.valid = false then .next (s.setDec s.dec.raiseCfg)
  else .next (s.setDec (s.dec.byteStep s.cfg))

end Sys2Proof.Machine
end

