-- ==== Sys2Proof/Machine/Tokens.lean ====
section
/-! DEFINITION. The meanings of the tokens. When a meaning is entered, the bytes of the token itself have been consumed; the
data bytes of a literal and the offset field of a match are read from `IN` by the meaning. -/

namespace Sys2Proof.Machine

/-- The kind of place a decoder in this phase reads its next token at, if it is at one (R26, R73). -/
def Phase.slot : Phase → Option Slot
  | .llen => some .literalLength
  | .mlen => some .matchLength
  | .offlo => some .offsetField
  | .llen2 => none
  | .lit => none
  | .mlen2 => none
  | .offhi => none
  | .copy => none
  | .idle => none
  | .done => none
  | .err => none

/-- The place of the next token: at the end of `IN` when no byte is left and the end has been indicated (R44, R71). -/
def tokenCtx (s : State) : Option Ctx :=
  s.dec.phase.slot.map (fun k => { cfg := s.cfg, slot := k, ended := s.dec.inp.isEmpty && s.dec.inEnd })

/-- The token may stand where the decoder is (R60, R73). -/
def placed (i : Instr) (s : State) : Bool :=
  match tokenCtx s with
  | some x => WellFormed x i
  | none => false

/-- A token takes its effect on the decoder where it may stand; elsewhere it has no meaning (assumption log 28). -/
def runToken (i : Instr) (effect : Dec → Dec) (s : State) : Host.Outcome State Fault Refusal :=
  if placed i s then .next (s.setDec (effect s.dec)) else .refused .tokenOutOfPlace

/-- LIT.B (R139). -/
def execLitB (n : Byte) (s : State) : Host.Outcome State Fault Refusal :=
  runToken (.litB n) (fun d => d.literal s.cfg n.toNat) s

/-- LIT.S (R138, R139). -/
def execLitS (n : BitVec 7) (s : State) : Host.Outcome State Fault Refusal :=
  runToken (.litS n) (fun d => d.literal s.cfg n.toNat) s

/-- LIT.W (R66, R138, R139); the first byte has passed through `DEC.LENLO` (R152). -/
def execLitW (lo : BitVec 7) (hi : Byte) (s : State) : Host.Outcome State Fault Refusal :=
  runToken (.litW lo hi)
    (fun d => Dec.literal s.cfg (wideLength (wideFirst lo) hi) { d with lenlo := wideFirst lo }) s

/-- MAT.B (R140). -/
def execMatB (m : Byte) (s : State) : Host.Outcome State Fault Refusal :=
  runToken (.matB m) (fun d => d.matchBlock s.cfg m.toNat) s

/-- MAT.S (R138, R140). -/
def execMatS (m : BitVec 7) (s : State) : Host.Outcome State Fault Refusal :=
  runToken (.matS m) (fun d => d.matchBlock s.cfg m.toNat) s

/-- MAT.W (R66, R138, R140); the first byte has passed through `DEC.LENLO` (R152). -/
def execMatW (lo : BitVec 7) (hi : Byte) (s : State) : Host.Outcome State Fault Refusal :=
  runToken (.matW lo hi)
    (fun d => Dec.matchBlock s.cfg (wideLength (wideFirst lo) hi) { d with lenlo := wideFirst lo }) s

/-- OFF.0 (R142, R144): `off = 0`, then the rest of the match block. -/
def execOff0 (s : State) : Host.Outcome State Fault Refusal :=
  runToken .off0 (fun d => (d.rleSrc s.cfg).copy s.cfg) s

/-- OFF.1 (R141, R143), then the rest of the match block. -/
def execOff1 (b0 : Byte) (s : State) : Host.Outcome State Fault Refusal :=
  runToken (.off1 b0) (fun d => (d.lowOffset b0).finishOffset s.cfg) s

/-- OFF.2 (R141, R143), then the rest of the match block. -/
def execOff2 (b0 b1 : Byte) (s : State) : Host.Outcome State Fault Refusal :=
  runToken (.off2 b0 b1) (fun d => ((d.lowOffset b0).highOffset b1).finishOffset s.cfg) s

/-- END (R148). -/
def execEos (s : State) : Host.Outcome State Fault Refusal := runToken .eos Dec.finish s

/-- ZLIT, which is `LIT 0` (R74, R139). -/
def execZlit (s : State) : Host.Outcome State Fault Refusal := runToken .zlit (fun d => d.literal s.cfg 0) s

/-- ZMAT, which is `MAT 0` (R74, R140). -/
def execZmat (s : State) : Host.Outcome State Fault Refusal := runToken .zmat (fun d => d.matchBlock s.cfg 0) s

end Sys2Proof.Machine
end

