-- ==== Sys2Proof/Machine/Dispatch.lean ====
section
/-! DEFINITION. One arm for each instruction. -/

namespace Sys2Proof.Machine

def exec (i : Instr) (s : State) : Host.Outcome State Fault Refusal :=
  match i with
  | .litB n => Sys2Proof.Machine.execLitB n s
  | .litS n => Sys2Proof.Machine.execLitS n s
  | .litW lo hi => Sys2Proof.Machine.execLitW lo hi s
  | .matB m => Sys2Proof.Machine.execMatB m s
  | .matS m => Sys2Proof.Machine.execMatS m s
  | .matW lo hi => Sys2Proof.Machine.execMatW lo hi s
  | .off0 => Sys2Proof.Machine.execOff0 s
  | .off1 b0 => Sys2Proof.Machine.execOff1 b0 s
  | .off2 b0 b1 => Sys2Proof.Machine.execOff2 b0 b1 s
  | .eos => Sys2Proof.Machine.execEos s
  | .zlit => Sys2Proof.Machine.execZlit s
  | .zmat => Sys2Proof.Machine.execZmat s
  | .nop => Sys2Proof.Machine.execNop s
  | .cmMoff => Sys2Proof.Machine.execCmMoff s
  | .cmMlen => Sys2Proof.Machine.execCmMlen s
  | .cmZmc => Sys2Proof.Machine.execCmZmc s
  | .cmLlen => Sys2Proof.Machine.execCmLlen s
  | .mfFind => Sys2Proof.Machine.execMfFind s
  | .dpInit => Sys2Proof.Machine.execDpInit s
  | .dpFill => Sys2Proof.Machine.execDpFill s
  | .dpRun => Sys2Proof.Machine.execDpRun s
  | .dpSelect => Sys2Proof.Machine.execDpSelect s
  | .decStart => Sys2Proof.Machine.execDecStart s
  | .decRun => Sys2Proof.Machine.execDecRun s
  | .decStep => Sys2Proof.Machine.execDecStep s

end Sys2Proof.Machine
end

