-- ==== Sys2Proof/Machine/Fetch.lean ====
section
/-! DEFINITION. Reading the next instruction: the command register, or the stream where the decoder is. -/

namespace Sys2Proof.Machine

/-- The token at the decoder's place and the bytes behind it, when all its bytes are there (R2, R73). -/
def fetchToken (s : State) : Option (Instr × List Byte) :=
  match tokenCtx s with
  | none => none
  | some x =>
    match decode x s.dec.inp with
    | .instr i rest => some (i, rest)
    | .reject _ => none

/-- The bytes of a token are consumed: `IN` is what stands behind them, `DEC.IP` counts them (R26). -/
def consume (rest : List Byte) (s : State) : State :=
  s.setDec { s.dec with inp := rest, ip := s.dec.ip + (s.dec.inp.length - rest.length) }

/-- The operation `CMD` asks for may begin: "One instance runs one operation at a time" to completion (R54, D9), and one that has
started "cannot be cancelled or paused" (R170). While the decoder is BUSY every command waits, but for DEC.STEP, which is that
run's own next step (R152; assumption log 32). -/
def mayBegin (i : Instr) (s : State) : Bool := decide (s.dec.status.state ≠ .busy ∨ i = .decStep)

/-- The command in `CMD` is taken up (assumption log 1). -/
def takeCommand (s : State) : State := s.setCmdReq false

/-- What the block does when there is neither a command nor a whole token at its place: a decoder that is inside a token, at
a token of which bytes are missing, or waiting, makes one byte step (R152); a decoder that is not running does nothing: "no
unit does anything until the host starts an operation" (R180; assumption log 2). -/
def advanceDecoder (s : State) : State := s.setDec (s.dec.byteStep s.cfg)

/-- The stream goes on: its next token, else one byte step (assumption log 2). -/
def streamStep (s : State) : Host.Outcome State Fault Refusal :=
  match fetchToken s with
  | some (i, rest) => exec i (consume rest s)
  | none => .next (advanceDecoder s)

/-- A decoder that no run keeps BUSY: a run that is under way is given up, so that a command placed from outside is the next to
begin (assumption log 20). -/
def Dec.giveUp (d : Dec) : Dec :=
  if d.status.state = .busy then { d with phase := .idle, status := Status.reset } else d

/-- The state whose next instruction is a word of spec/opcode_table.json, alone (assumption logs 20, 21): a command goes into
`CMD`; a token becomes the stream of a decoder that is at the place `tableCtx` reads the word at. -/
def placeTableWord (s : State) (nbits w : Nat) : State :=
  match (tableCtx nbits w).slot with
  | .command =>
    { s with
      cmd := BitVec.ofNat 8 w
      cmdReq := true
      dec := if decodeCommand (BitVec.ofNat 8 w) = some .decStep then s.dec else s.dec.giveUp }
  | .literalLength =>
    { s with
      cmdReq := false
      cfg := if nbits = 0 then s.cfg else { s.cfg with maxLlen := (tableCtx nbits w).cfg.maxLlen }
      dec := { s.dec with
        phase := .llen
        status := Status.started
        inp := tableBytes nbits w
        inEnd := if nbits = 0 then true else s.dec.inEnd } }
  | .offsetField =>
    { s with
      cmdReq := false
      cfg := { s.cfg with bitsMoff := (tableCtx nbits w).cfg.bitsMoff }
      dec := { s.dec with phase := .offlo, status := Status.started, inp := tableBytes nbits w } }
  | .matchLength => s

end Sys2Proof.Machine
end

