-- ==== Sys2Proof/Machine/Step.lean ====
section
/-! DEFINITION. One step: the pending command if there is one that may begin, else the next token of the stream, else the
decoder goes on by one byte (assumption logs 2, 32). -/

namespace Sys2Proof.Machine

def step (s : State) : Host.Outcome State Fault Refusal :=
  if s.cmdReq then
    match decodeCommand s.cmd with
    | some i => if mayBegin i s then exec i (takeCommand s) else streamStep s
    | none => .refused (.unknownCommand s.cmd)
  else streamStep s

/-- `s` with a word of the opcode table where step reads its next instruction (assumption log 20). -/
def State.withFetchWord (s : State) (nbits w : Nat) : State := placeTableWord s nbits w

end Sys2Proof.Machine
end

