-- ==== Sys2Proof/Machine/Emitter.lean ====
section
/-! DEFINITION. The reference emitter (43_emitter_reference.md): software, not a unit of the block (R4); it is here because
the wire format is defined through it and R154 speaks of the streams it makes. No step of the machine runs it (assumption
log 27). -/

namespace Sys2Proof.Emitter

/-- The emitter's own state (R120): the position, the flag `in_literal` ("the previous block was a literal", R28), and the
stream so far. -/
structure Progress where
  p         : Nat
  inLiteral : Bool
  stream    : List Byte
  deriving DecidableEq, Repr

/-- `OffsetValue(mpos, p)` (R125; 90_conflicts.md C4). -/
def offsetValue (c : Cfg) (mpos p : Nat) : BitVec 16 :=
  if c.offsetRelEn then BitVec.ofNat 16 ((p + c.offsetRel.toNat - mpos) &&& 0xFFFF) else BitVec.ofNat 16 (mpos - 1)

/-- The bytes of an offset field (R123 step 3), complemented if so configured (R126). -/
def offsetBytes (c : Cfg) (mpos p : Nat) : List Byte :=
  let off := if c.exorOffset then c.complement (offsetValue c mpos p) else offsetValue c mpos p
  (if 0 < c.bits then [off.setWidth 8] else []) ++ (if 8 < c.bits then [(off >>> 8).setWidth 8] else [])

/-- `EmitMatch(M, mpos, p)` (R123). -/
def emitMatch (c : Cfg) (m mpos : Nat) (e : Progress) : Progress :=
  { p := e.p + m
    inLiteral := false
    stream := e.stream ++ (if e.inLiteral then [] else [0x00]) ++ lenField c.mlenLimit m ++
      (if c.offsetDue m then offsetBytes c mpos e.p else []) }

/-- `Data[p], ..., Data[p + l - 1]`. -/
def dataRun (dat : Nat → Byte) (p l : Nat) : List Byte := (List.range l).map (fun j => dat (p + j))

/-- `EmitLiteral(p)` (R122, R127). -/
def emitLiteral (c : Cfg) (dat : Nat → Byte) (llen : Nat) (e : Progress) : Progress :=
  let l := min llen c.llenLimit
  let e1 := if e.inLiteral then emitMatch c 0 1 e else e
  { p := e1.p + l
    inLiteral := true
    stream := e1.stream ++ lenField c.llenLimit l ++ dataRun dat e1.p l }

/-- The main loop (R121). The first argument bounds the number of blocks. No answer when DP.SELECT raises `Infeasible`
("abort", R164), or when the blocks do not reach the end of the input within the bound. -/
def emitFrom (c : Cfg) (dat : Nat → Byte) (n : Nat) (cell : Nat → SpCell) : Nat → Progress → Option (List Byte)
  | 0, e => if e.p < n then none else some e.stream
  | k + 1, e =>
    if e.p < n then
      match selectChoice c (cell e.p) e.inLiteral with
      | none => none
      | some .literal => emitFrom c dat n cell k (emitLiteral c dat (cell e.p).llen e)
      | some .matched => emitFrom c dat n cell k (emitMatch c (cell e.p).mlen (cell e.p).mpos e)
    else some e.stream

/-- `E(cfg, data)` from a filled table (R120, R121, R129): `p = 0`, `in_literal = false`. -/
def emit (c : Cfg) (dat : Nat → Byte) (n : Nat) (cell : Nat → SpCell) : Option (List Byte) :=
  emitFrom c dat n cell n { p := 0, inLiteral := false, stream := [] }

end Sys2Proof.Emitter
end

