-- ==== Sys2Proof/Machine/Port.lean ====
section
/-! DEFINITION. What the host can do to the block between steps (R9 "Host", R19, R41, R44, R45, R75, R180, R182, R183). No
step performs these; a run of the machine is steps with host actions between them (assumption log 25). -/

namespace Sys2Proof.Machine

/-- One action of the host. -/
inductive HostAct where
  /-- Write a register of `CFG` by its index (R10, R19). -/
  | writeCfg (index : Nat) (v : BitVec 16)
  /-- Write the operand of a cost operation. -/
  | writeCmOperand (v : Nat)
  | writeMfN (v : PosReg)
  | writeMfP (v : PosReg)
  | writeDpN (v : PosReg)
  | writeDpP (v : PosReg)
  | writeDpPrevLit (v : Bool)
  /-- Load a byte of `DATA` (R41). -/
  | loadData (index : Nat) (b : Byte)
  /-- The emission that reads the table is over, and the table is discarded (R41, R111, R187). -/
  | endEncode
  /-- Write a command to `CMD` (R75). DESIGN CHOICE: one that is still pending is replaced and lost (assumption log 35). -/
  | command (code : Byte)
  /-- Begin a new input stream, with no byte and no end indication yet. -/
  | openInput
  /-- Supply the next byte of `IN` (R183). -/
  | supply (b : Byte)
  /-- Give the end indication of `IN` (R44). -/
  | endInput
  /-- Take the bytes of `OUT` away (R183). -/
  | drain
  /-- Hard reset (R180). -/
  | reset
  deriving DecidableEq, Repr

/-- A unit is busy (R27). -/
def anyBusy (s : State) : Bool :=
  s.mf.status.state == .busy || s.dp.status.state == .busy || s.dec.status.state == .busy

/-- No table is final any more: a table "is valid only for the `(CFG, N, DATA)` it was filled from" (R188). -/
def voidFill (s : State) : State := s.setDp { s.dp with fill := none }

/-- A host write of a byte of `DATA`. One that changes a byte of the encode under way is refused: "must not change it until the
table has been consumed" (R41, R187, U13; assumption log 36). -/
def writeData (index : Nat) (b : Byte) (s : State) : Host.Outcome State Fault Refusal :=
  if Config.nCap ≤ index then .refused .noSuchPlace
  else if SMap.get? s.data index = some b then .next s
  else if index < s.held then .refused .encodeUnderWay
  else .next { s with data := SMap.put s.data index b }

/-- The effect of a host action. A write of `CFG` stores any value of the register's width and is refused while a unit is
busy (R19); one that changes `CFG` makes the fill mark void; bytes after the end indication, and a change of stream under a
running decoder, are refused. -/
def hostAct (a : HostAct) (s : State) : Host.Outcome State Fault Refusal :=
  match a with
  | .writeCfg index v =>
    if anyBusy s then .refused .unitBusy
    else
      match s.cfg.writeReg v index with
      | some c => if c = s.cfg then .next s else .next { voidFill s with cfg := c }
      | none => .refused .noSuchPlace
  | .writeCmOperand v => .next (s.setCm { s.cm with operand := v })
  | .writeMfN v => .next (s.setMf { s.mf with n := v })
  | .writeMfP v => .next (s.setMf { s.mf with p := v })
  | .writeDpN v => .next (s.setDp { s.dp with n := v })
  | .writeDpP v => .next (s.setDp { s.dp with p := v })
  | .writeDpPrevLit v => .next (s.setDp { s.dp with prevLit := v })
  | .loadData index b => writeData index b s
  | .endEncode => .next { voidFill s with held := 0 }
  | .command code => .next { s with cmd := code, cmdReq := true }
  | .openInput =>
    if s.dec.status.state = .busy then .refused .unitBusy
    else .next (s.setDec { s.dec with inp := [], inEnd := false })
  | .supply b =>
    if s.dec.inEnd then .refused .streamEnded else .next (s.setDec { s.dec with inp := s.dec.inp ++ [b] })
  | .endInput => .next (s.setDec { s.dec with inEnd := true })
  | .drain => .next (s.setDec { s.dec with out := [] })
  | .reset => .next State.reset

end Sys2Proof.Machine
end

