-- ==== Sys2Proof/Safety.lean ====
section
/-! DEFINITION. The terms claims are made in: the invariants of the machine, what a filled table is, what a copy outputs and
what it leaves in the ring. -/

namespace Sys2Proof.Safety

open Sys2Proof.Machine

/-! ## Memories -/

/-- The memories and the table are in their canonical form, and `RING` has no index beyond the largest ring (R40, R43). -/
def MemoriesCanonical (s : State) : Prop :=
  SMap.wf s.dec.ring ∧ SMap.wf s.data ∧ SMap.wf s.sp ∧ ∀ x ∈ s.dec.ring, x.1 ≤ 0xFFFF

/-! ## Commands -/

/-- No operation begins at a step from here: none is asked for, or the one that is has to wait until the decoder's run is over
(R54, R170; assumption log 32). -/
def NoCommandBegins (s : State) : Prop :=
  s.cmdReq = false ∨ ∃ i, decodeCommand s.cmd = some i ∧ mayBegin i s = false

/-- A step from here starts a run of the decoder (R136, R137). -/
def StartsRun (s : State) : Prop :=
  s.cmdReq = true ∧ s.dec.status.state ≠ .busy ∧ s.cfg.valid = true ∧
  (decodeCommand s.cmd = some .decStart ∨ decodeCommand s.cmd = some .decRun)

/-! ## Status registers and phases -/

/-- `ERRCODE` is non-zero exactly in ERR (R27, R168, R169). -/
def ErrorCodeAgrees (st : Status) : Prop := st.state = .err ↔ st.errcode ≠ .none

/-- `STATE` of the decoder says what its phase says (R136, R148, R168). -/
def PhaseAgrees (d : Dec) : Prop :=
  d.status.state =
    match d.phase with
    | .idle => .idle
    | .done => .done
    | .err => .err
    | .llen => .busy
    | .llen2 => .busy
    | .lit => .busy
    | .mlen => .busy
    | .mlen2 => .busy
    | .offlo => .busy
    | .offhi => .busy
    | .copy => .busy

/-- A decoder waits for an offset byte only where `CFG` gives the field that byte: the first under a `BITS_MOFF` above 0, the
second under one above 8 (R64, R142, R152; assumption log 18). -/
def OffsetPhaseFits (c : Cfg) (d : Dec) : Prop :=
  (d.phase = .offlo → 1 ≤ c.bitsMoff.toNat) ∧ (d.phase = .offhi → 8 < c.bitsMoff.toNat)

/-- The status registers are as the rules leave them, `MF` and `DP` are not busy between steps (the model's reading of D21,
assumption log 33), a decoder inside a literal or a copy has bytes left, at most 32895 (R24, R26), and one inside an offset
field has such a field. -/
def StatusSound (s : State) : Prop :=
  (ErrorCodeAgrees s.mf.status ∧ s.mf.status.state ≠ .busy) ∧
  (ErrorCodeAgrees s.dp.status ∧ s.dp.status.state ≠ .busy) ∧
  (ErrorCodeAgrees s.dec.status ∧ PhaseAgrees s.dec) ∧
  ((s.dec.phase = .lit ∨ s.dec.phase = .copy) → 1 ≤ s.dec.cnt) ∧
  s.dec.cnt ≤ Config.lenMax ∧
  OffsetPhaseFits s.cfg s.dec

/-! ## Ring and output -/

/-- "The ring therefore always holds the most recent `min(pos, mask + 1)` output bytes" (R43). -/
def RingHoldsRecentOutput (c : Cfg) (d : Dec) : Prop :=
  d.pos ≤ d.out.length ∧
  ∀ k, k < min d.pos (c.mask + 1) →
    SMap.get? d.ring ((d.pos - 1 - k) % (c.mask + 1)) = d.out[d.out.length - 1 - k]?

/-- The decoder stopped by `Truncated`: what was expected and both positions are recorded (R149, R162, R166, R168). -/
def cutAt (e : Expected) (d : Dec) : Dec :=
  { d with
    phase := .err, status := { state := .err, errcode := .truncated }, errexp := e, errpos := d.pos, errip := d.ip }

/-- What writing `xs` at the ring positions from `pos` on leaves: the last `mask + 1` of them are readable, every index none
of them went to reads as before (R43). -/
def RingWritten (c : Cfg) (ring ring' : Memory) (pos : Nat) (xs : List Byte) : Prop :=
  (∀ j, j < xs.length → xs.length ≤ j + (c.mask + 1) → SMap.get? ring' ((pos + j) % (c.mask + 1)) = xs[j]?) ∧
  (∀ a, (∀ j, j < xs.length → (pos + j) % (c.mask + 1) ≠ a) → SMap.get? ring' a = SMap.get? ring a)

/-- The source distance of R147, `(pos - src) mod (mask + 1)`, where 0 stands for the whole ring. -/
def copyDistance (c : Cfg) (pos src : Nat) : Nat :=
  if (pos + 0x10000 - src) % (c.mask + 1) = 0 then c.mask + 1 else (pos + 0x10000 - src) % (c.mask + 1)

/-- The `n` bytes a copy from ring index `src` outputs at position `pos`: "iteration `i ≥ d` reads the byte iteration `i - d`
wrote", the first `d` read the ring as it was (R147). -/
def CopiedFrom (c : Cfg) (ring : Memory) (pos src n : Nat) (xs : List Byte) : Prop :=
  xs.length = n ∧
  ∀ j, j < n →
    xs[j]? = if j < copyDistance c pos src then some (ringByte c ring (src + j)) else xs[j - copyDistance c pos src]?

/-! ## Offsets -/

/-- The offset value at the head of `IN` after the complement (R141 to R144), if its bytes are there. -/
def offsetAhead (c : Cfg) (inp : List Byte) : Option (BitVec 16) :=
  if c.bits = 0 then some 0
  else if c.bits ≤ 8 then
    match inp with
    | b0 :: _ => some ((b0.setWidth 16) ^^^ (if c.exorOffset then 0x00FF else 0x0000))
    | [] => none
  else
    match inp with
    | b0 :: b1 :: _ => some ((b1 ++ b0 : BitVec 16) ^^^ (if c.exorOffset then 0xFFFF else 0x0000))
    | _ => none

/-- The source index of an offset (R145, R146), as a remainder. -/
def sourceOf (c : Cfg) (pos : Nat) (off : BitVec 16) : Nat :=
  if c.offsetRelEn then (off.toNat + c.mask + 1 - c.offsetRel.toNat) % (c.mask + 1)
  else (pos + c.mask - off.toNat) % (c.mask + 1)

/-! ## The finder -/

/-- A match of `len` bytes at distance `dist` within the window and the length cap (R91, R92). -/
def IsMatch (c : Cfg) (dat : Nat → Byte) (n p len dist : Nat) : Prop :=
  1 ≤ len ∧ len ≤ min c.mlenLimit (n - p) ∧ 1 ≤ dist ∧ dist ≤ min p c.maxOff ∧
  ∀ j, j < len → dat (p + j) = dat (p - dist + j)

/-- "Keep the largest match length; on ties, the later `i` wins (smaller offset)"; `(0, 0)` when there is none (R93, R94). -/
def BestMatch (c : Cfg) (dat : Nat → Byte) (n p ml mp : Nat) : Prop :=
  (ml = 0 ∧ mp = 0 ∧ ∀ len dist, ¬ IsMatch c dat n p len dist) ∨
  (IsMatch c dat n p ml mp ∧
    ∀ len dist, IsMatch c dat n p len dist → len ≤ ml ∧ (len = ml → mp ≤ dist))

/-! ## The table -/

/-- The cells `f..=n` hold their final values of an encode: the sentinel, and below it what DP.FILL computes (R100, R101). -/
def TableFinal (c : Cfg) (dat : Nat → Byte) (n f : Nat) (cell : Nat → SpCell) : Prop :=
  f ≤ n ∧ cell n = SpCell.sentinel ∧ ∀ p, f ≤ p → p < n → cell p = fillCell c dat n cell p

/-- The fill mark says the truth, and the `DATA` of the encode it belongs to is held (R41, R187). -/
def FillMarkSound (s : State) : Prop :=
  ∀ n f, s.dp.fill = some (n, f) →
    s.cfg.valid = true ∧ n ≤ Config.nCap ∧ n ≤ s.held ∧ TableFinal s.cfg (dataByte s.data) n f (cellAt s.sp)

/-- A cost is infinite or a multiple of 8 (R80, R108 (f)). -/
def WholeBytes (x : Cost) : Prop := x = .inf ∨ ∃ k, x = .fin (8 * k)

/-- R108 (a) to (f) for one cell, and the match the cell stands for (R95). -/
structure CellSound (c : Cfg) (dat : Nat → Byte) (n p : Nat) (x : SpCell) : Prop where
  lbitsFinite : x.lbits ≠ .inf
  llenRange : x.llen ≤ n - p ∧ (p < n → 1 ≤ x.llen)
  lbitsCovers : ((c.llenCost x.llen).add (.fin (8 * x.llen))).le x.lbits = true
  mbitsFinite : x.mbits ≠ .inf ↔ 1 ≤ x.mlen
  matchFound : 1 ≤ x.mlen ↔ (p < n ∧ ∃ len dist, IsMatch c dat n p len dist)
  matchRange : 1 ≤ x.mlen → IsMatch c dat n p x.mlen x.mpos
  unusedDistance : x.mlen = 0 → x.mpos = 0
  noMatchAtStart : p = 0 → x.mbits = .inf
  lbitsBytes : WholeBytes x.lbits
  mbitsBytes : WholeBytes x.mbits

/-- The cost of joining a literal that starts `i` bytes later (R103 step 2). -/
def joinCost (c : Cfg) (cell : Nat → SpCell) (p i : Nat) : Cost :=
  ((((cell (p + i)).lbits).add (.fin (8 * i))).add (c.llenCost ((cell (p + i)).llen + i))).sub
    (c.llenCost (cell (p + i)).llen)

/-- The cost of `i` literal bytes followed by a match (R104). -/
def shortLiteralCost (c : Cfg) (cell : Nat → SpCell) (p i : Nat) : Cost :=
  (((cell (p + i)).mbits).add (.fin (8 * i))).add (c.llenCost i)

/-- `lbits_cand` of R105: a match of length `l` at distance `mp`, then a literal. -/
def matchThenLiteral (c : Cfg) (cell : Nat → SpCell) (p mp l : Nat) : Cost :=
  ((cell (p + l)).lbits).add ((c.moffCost mp).add (c.mlenCost l))

/-- `mbits_cand` of R105: a match of length `l` at distance `mp`, then another match. -/
def matchThenMatch (c : Cfg) (cell : Nat → SpCell) (p mp l : Nat) : Cost :=
  (((cell (p + l)).mbits).add (c.llenCost 1)).add ((c.moffCost mp).add (c.mlenCost l))

/-! ## Runs of commands -/

/-- DP.FILL issued by the host for `p = k - 1` down to 0 (R101, R182 (4)). -/
def fillEach : Nat → State → Option State
  | 0, s => some s
  | k + 1, s =>
    match exec .dpFill (s.setDp { s.dp with p := BitVec.ofNat 18 k }) with
    | .next t => fillEach k t
    | _ => none

/-- DEC.STEP issued `k` times (R152). -/
def decSteps : Nat → State → Option State
  | 0, s => some s
  | k + 1, s =>
    match exec .decStep s with
    | .next t => decSteps k t
    | _ => none

/-- `k` byte steps of the decoder (R152). -/
def byteSteps (c : Cfg) : Nat → Dec → Dec
  | 0, d => d
  | k + 1, d => byteSteps c k (d.byteStep c)

/-- The decoder as a run begins that reads the whole stream `bytes` (R44, R183). -/
def fedWith (bytes : List Byte) (d : Dec) : Dec := { d with inp := bytes, inEnd := true }

end Sys2Proof.Safety
end

