-- ==== Sys2Proof/Certificates/Slice0/Obligations.lean ====
section
/-! DEFINITION. The statements about the LZ8S block. Each docstring names the rules it formalises; OBLIGATIONS.json lists
them. A statement that rests on a choice of the model names the assumption log. -/

open Sys2Proof Sys2Proof.Machine Sys2Proof.Safety

/-! ## Encoding -/

/-- Words written out from R73 and R75 decode to the instructions they stand for: each place of the stream, each size of
field, the end of the stream, and a command of each unit. -/
def Obligations.WrittenOutWordsDecode : Prop :=
  decode { cfg := Cfg.reset, slot := .literalLength, ended := false } [0x02, 0x41] = .instr (.litB 0x02) [0x41] ∧
  decode { cfg := { Cfg.reset with maxLlen := 300 }, slot := .literalLength, ended := false } [0b01111111]
    = .instr (.litS 0b1111111) [] ∧
  decode { cfg := { Cfg.reset with maxLlen := 300 }, slot := .literalLength, ended := false } [0b10101100, 0x01]
    = .instr (.litW 0b0101100 0x01) [] ∧
  decode { cfg := Cfg.reset, slot := .matchLength, ended := false } [0b10000000] = .instr (.matB 0x80) [] ∧
  decode { cfg := { Cfg.reset with maxMlen := 300 }, slot := .matchLength, ended := false } [0b10000000, 0x00]
    = .instr (.matW 0 0) [] ∧
  decode { cfg := { Cfg.reset with bitsMoff := 16 }, slot := .offsetField, ended := false } [0x34, 0x12]
    = .instr (.off2 0x34 0x12) [] ∧
  decode { cfg := { Cfg.reset with bitsMoff := 0 }, slot := .offsetField, ended := false } [0x34] = .instr .off0 [0x34] ∧
  decode { cfg := Cfg.reset, slot := .matchLength, ended := true } [] = .instr .eos [] ∧
  decode { cfg := Cfg.reset, slot := .command, ended := false } [0x13] = .instr .cmLlen [] ∧
  decode { cfg := Cfg.reset, slot := .command, ended := false } [0x20] = .instr .mfFind [] ∧
  decode { cfg := Cfg.reset, slot := .command, ended := false } [0x33] = .instr .dpSelect [] ∧
  decode { cfg := Cfg.reset, slot := .command, ended := false } [0x42] = .instr .decStep [] ∧
  decode { cfg := Cfg.reset, slot := .command, ended := false } [0x43] = .reject (.unknownCommand 0x43)

/-- Decoding the encoding of an instruction that is well formed where it stands gives it back, with every operand at every
value, whatever bytes follow (END stands where none follow); a pseudo-token comes back as the token it names (R60 to R66,
R73 to R75; which of the two names comes back is assumption log 19). -/
def Obligations.DecodeOfEncodeIsTheInstruction : Prop :=
  ∀ (x : Ctx) (i : Instr) (rest : List Byte),
    WellFormed x i = true → (i = .eos → rest = []) → decode x (encode i ++ rest) = .instr (coreToken x.cfg i) rest

/-- Whatever decodes is well formed where it stands, and its encoding is exactly the bytes consumed (R67: each length has
exactly one encoding). -/
def Obligations.EncodeOfDecodeIsTheBytes : Prop :=
  ∀ (x : Ctx) (bs : List Byte) (i : Instr) (rest : List Byte),
    decode x bs = .instr i rest → WellFormed x i = true ∧ encode i ++ rest = bs

/-- R66: under a limit above 255 a first byte with bit 7 set is followed by a second, the two directions of the two-byte length
field are inverse, and the two-byte form holds exactly 128 to 32895. -/
def Obligations.TwoByteLengthsAreInverse : Prop :=
  ∀ limit : Nat, 255 < limit →
    (∀ x, 128 ≤ x → x ≤ 32895 →
      ∃ c c2 : Byte, lenField limit x = [c, c2] ∧ 128 ≤ c.toNat ∧ wideLength c c2 = x ∧
        c = 0x80 ||| BitVec.ofNat 8 (x % 128) ∧ c2.toNat = x / 128 - 1) ∧
    (∀ c c2 : Byte, 128 ≤ c.toNat →
      wideLength c c2 = c.toNat + 128 * c2.toNat ∧ 128 ≤ wideLength c c2 ∧ wideLength c c2 ≤ 32895 ∧
        lenField limit (wideLength c c2) = [c, c2]) ∧
    (∀ (x : Ctx) (c c2 : Byte) (rest : List Byte), 128 ≤ c.toNat →
      (x.slot = .literalLength → x.cfg.maxLlen.toNat = limit →
        ∃ lo, decode x (c :: c2 :: rest) = .instr (.litW lo c2) rest ∧ wideFirst lo = c) ∧
      (x.slot = .matchLength → x.cfg.maxMlen.toNat = limit →
        ∃ lo, decode x (c :: c2 :: rest) = .instr (.matW lo c2) rest ∧ wideFirst lo = c))

/-- A word of the opcode table that the decoder reads is what the next step runs once it is placed (assumption log 20). -/
def Obligations.PlacedTableWordRuns : Prop :=
  ∀ (s : State) (nbits w : Nat) (i : Instr), decodeTableWord nbits w = some i →
    step (s.withFetchWord nbits w) = exec i (takeCommand (s.withFetchWord nbits w)) ∨
    ∃ rest, step (s.withFetchWord nbits w) = exec i (consume rest (s.withFetchWord nbits w))

/-! ## The step -/

/-- A pending command: the step runs the operation its code names, with the request taken back (R75; log 1), before any token
(log 2), where it may begin: the decoder is not BUSY, or it is DEC.STEP. Any other waits while the decoder is BUSY: the step is
that without a request, and the request stays, so that no run is cancelled or overtaken (R54, R170, D9; log 32). -/
def Obligations.StepRunsPendingCommand : Prop :=
  ∀ (s : State) (i : Instr), s.cmdReq = true → decodeCommand s.cmd = some i →
    ((s.dec.status.state ≠ .busy ∨ i = .decStep) → step s = exec i { s with cmdReq := false }) ∧
    (s.dec.status.state = .busy → i ≠ .decStep →
      ∃ t, step { s with cmdReq := false } = .next t ∧ step s = .next { t with cmdReq := true })

/-- No command begins: when the bytes at the decoder's place decode to a token, the step runs it, with `IN` behind the
token's bytes and `DEC.IP` counting them (R2, R26, R73; log 2). -/
def Obligations.StepRunsNextToken : Prop :=
  ∀ (s : State) (x : Ctx) (i : Instr) (rest : List Byte), NoCommandBegins s → tokenCtx s = some x →
    decode x s.dec.inp = .instr i rest →
    step s = exec i { s with dec := { s.dec with inp := rest, ip := s.dec.ip + (encode i).length } }

/-- R76: NOP does nothing; a code that is not in the table of R75 is refused, whatever the state. -/
def Obligations.NopIdlesAndUnknownCodesAreRefused : Prop :=
  (∀ s : State, exec .nop s = .next s) ∧
  ∀ s : State, s.cmdReq = true →
    s.cmd ∉ [0x00, 0x10, 0x11, 0x12, 0x13, 0x20, 0x30, 0x31, 0x32, 0x33, 0x40, 0x41, 0x42] →
    step s = .refused (.unknownCommand s.cmd)

/-- R180: after reset, and whenever the decoder is not running, a block with no command pending does nothing. -/
def Obligations.IdleBlockStaysPut : Prop :=
  step State.reset = .next State.reset ∧
  ∀ s : State, s.cmdReq = false → (s.dec.phase = .idle ∨ s.dec.phase = .done ∨ s.dec.phase = .err) → step s = .next s

/-- R170, U15: a decoder that needs a byte and has neither a byte nor the end indication stays in its phase. The phase that
expects an offset byte is meant under a `BITS_MOFF` above 0. What a step without a command is, and that a command may wait, is
the model's (logs 2, 3, 32). -/
def Obligations.DecoderWaitsForInput : Prop :=
  ∀ s : State, NoCommandBegins s → s.dec.inp = [] → s.dec.inEnd = false →
    (s.dec.phase = .llen ∨ s.dec.phase = .llen2 ∨ s.dec.phase = .lit ∨ s.dec.phase = .mlen ∨ s.dec.phase = .mlen2 ∨
      (s.dec.phase = .offlo ∧ 0 < s.cfg.bits) ∨ s.dec.phase = .offhi) →
    step s = .next s

/-- The only steps without a next state: an unknown code (R76) and an operand out of range (R97, D13). Every token, every
byte of every stream and every error of the spec has a next state. -/
def Obligations.OnlySpecRefusalsStopAStep : Prop :=
  ∀ s : State,
    (∃ t, step s = .next t) ∨
    (s.cmdReq = true ∧ decodeCommand s.cmd = none ∧ step s = .refused (.unknownCommand s.cmd)) ∨
    (s.cmdReq = true ∧ s.dec.status.state ≠ .busy ∧ step s = .refused .operandOutOfRange ∧
      ((decodeCommand s.cmd = some .mfFind ∧ s.mf.n.toNat < s.mf.p.toNat) ∨
       (decodeCommand s.cmd = some .dpFill ∧ s.dp.n.toNat ≤ s.dp.p.toNat) ∨
       (decodeCommand s.cmd = some .dpSelect ∧ s.dp.n.toNat ≤ s.dp.p.toNat)))

/-- R10 "No unit ever writes `CFG`", R41 "The units never write `DATA`", R29: what each instruction may write. No
instruction changes `CFG` or `DATA`; the decoder's tokens and commands change the decoder only; `MF.FIND` changes `MF` only;
the commands of `DP` change `DP`, `SP` and the counter of free values only; the cost commands change the result port only; the
finder and the commands that fill hold `DATA`. That a fill leaves `MF` alone is the model's reading (log 15); the request, the
ports, the counter and the hold are the model's own fields (logs 1, 4, 8, 36). -/
def Obligations.EachUnitWritesOnlyItsOwn : Prop :=
  ∀ (i : Instr) (s t : State), exec i s = .next t →
    t.cfg = s.cfg ∧ t.data = s.data ∧ t.cmd = s.cmd ∧ t.cmdReq = s.cmdReq ∧ t.cm.operand = s.cm.operand ∧
    (t.cm ≠ s.cm → i ∈ [Instr.cmMoff, .cmMlen, .cmZmc, .cmLlen]) ∧
    (t.mf ≠ s.mf → i = .mfFind) ∧
    ((t.dp ≠ s.dp ∨ t.sp ≠ s.sp) → i ∈ [Instr.dpInit, .dpFill, .dpRun, .dpSelect]) ∧
    (t.freeCount ≠ s.freeCount → i = .dpFill) ∧
    (t.held ≠ s.held → i ∈ [Instr.mfFind, .dpInit, .dpFill, .dpRun]) ∧
    (t.dec ≠ s.dec → i ∉ [Instr.nop, .cmMoff, .cmMlen, .cmZmc, .cmLlen, .mfFind, .dpInit, .dpFill, .dpRun, .dpSelect])

/-! ## Reset, configuration, host -/

/-- R32: the state after reset: every field the table of R32 gives a value, and the memories, which R32 leaves unspecified: that
every read of `RING`, `DATA` and `SP` gives the free value of its index is the model's reading (logs 5, 6, 7). -/
def Obligations.ResetValues : Prop :=
  let s := State.reset
  s.cfg.bitsMoff.toNat = 8 ∧ s.cfg.maxMlen.toNat = 255 ∧ s.cfg.maxLlen.toNat = 255 ∧
  s.cfg.zeroOffset = false ∧ s.cfg.offsetRelEn = false ∧ s.cfg.exorOffset = false ∧ s.cfg.offsetRel.toNat = 0 ∧
  s.mf.n.toNat = 0 ∧ s.mf.p.toNat = 0 ∧ s.mf.ml = 0 ∧ s.mf.mp = 0 ∧
  s.dp.n.toNat = 0 ∧ s.dp.p.toNat = 0 ∧ s.dp.prevLit = false ∧ s.dp.choice.code = 0 ∧
  s.mf.status.state.code = 0 ∧ s.mf.status.errcode.code = 0 ∧ s.mf.errpos.toNat = 0 ∧
  s.dp.status.state.code = 0 ∧ s.dp.status.errcode.code = 0 ∧ s.dp.errpos.toNat = 0 ∧
  s.dec.status.state.code = 0 ∧ s.dec.status.errcode.code = 0 ∧ s.dec.errpos = 0 ∧ s.dec.errip = 0 ∧
  s.dec.errexp.code = 0 ∧
  s.dec.pos = 0 ∧ s.dec.ip = 0 ∧ s.dec.cnt = 0 ∧ s.dec.src.toNat = 0 ∧ s.dec.off.toNat = 0 ∧ s.dec.lenlo.toNat = 0 ∧
  s.dec.phase = .idle ∧
  (∀ p, cellAt s.sp p = Config.spPowerOn p) ∧ (∀ i, dataByte s.data i = Config.dataPowerOn i) ∧
  (∀ i, i ≤ s.cfg.mask → ringByte s.cfg s.dec.ring i = Config.ringPowerOn i)

/-- R18: the predicate `CfgValid`, spelled out over the numbers in the registers. -/
def Obligations.ConfigurationValidity : Prop :=
  ∀ c : Cfg, c.valid = true ↔
    (c.bitsMoff.toNat ≤ 16 ∧ (1 ≤ c.maxMlen.toNat ∧ c.maxMlen.toNat ≤ 32895) ∧
      (1 ≤ c.maxLlen.toNat ∧ c.maxLlen.toNat ≤ 32895) ∧
      (c.offsetRelEn = true →
        (c.bitsMoff.toNat = 8 ∨ c.bitsMoff.toNat = 16) ∧ c.offsetRel.toNat ≤ 2 ^ c.bitsMoff.toNat - 1))

/-- R161, R18, R80, R168: with `CfgValid` false every operation answers `CfgError` and does nothing else: the cost operations
on the result port (log 4), the others in their unit's status. DP.FILL, DP.SELECT and DEC.STEP are meant for a unit not in ERR
(R169). That DEC.STEP checks is log 13; that MF.FIND, DP.FILL and DP.SELECT answer so with `p` out of range too, where the
refusal of R97 and D13 comes second, is log 14. -/
def Obligations.InvalidConfigurationRaisesCfgError : Prop :=
  ∀ s : State, s.cfg.valid = false →
    let cmErr : State := { s with cm := { s.cm with result := .cfgError } }
    let mfErr : State := { s with mf := { s.mf with status := { state := .err, errcode := .cfgError } } }
    let dpErr : State := { s with dp := { s.dp with status := { state := .err, errcode := .cfgError } } }
    let decErr : State :=
      { s with dec := { s.dec with phase := .err, status := { state := .err, errcode := .cfgError } } }
    exec .cmMoff s = .next cmErr ∧ exec .cmMlen s = .next cmErr ∧ exec .cmZmc s = .next cmErr ∧
    exec .cmLlen s = .next cmErr ∧ exec .mfFind s = .next mfErr ∧ exec .dpInit s = .next dpErr ∧
    exec .dpRun s = .next dpErr ∧ exec .decStart s = .next decErr ∧ exec .decRun s = .next decErr ∧
    (s.dp.status.state ≠ .err → exec .dpFill s = .next dpErr ∧ exec .dpSelect s = .next dpErr) ∧
    (s.dec.status.state ≠ .err → exec .decStep s = .next decErr)

/-- R163: `N > N_CAP` raises `Oversize` with `ERRPOS = N`, and nothing else happens; `N = N_CAP` is not above it. The cap is
log 22; that MF.FIND and DP.FILL answer so with `p` out of range too, where the refusal of R97 and D13 comes second, is
log 14. -/
def Obligations.OversizedInputRaisesOversize : Prop :=
  ∀ s : State, s.cfg.valid = true →
    (131072 < s.mf.n.toNat →
      exec .mfFind s =
        .next { s with mf := { s.mf with status := { state := .err, errcode := .oversize }, errpos := s.mf.n } }) ∧
    (131072 < s.dp.n.toNat →
      let dpErr : State :=
        { s with dp := { s.dp with status := { state := .err, errcode := .oversize }, errpos := s.dp.n } }
      exec .dpInit s = .next dpErr ∧ exec .dpRun s = .next dpErr ∧
      (s.dp.status.state ≠ .err → exec .dpFill s = .next dpErr))

/-- R169: a unit in ERR does not accept DP.FILL, DP.SELECT or DEC.STEP (nothing happens; log 12). -/
def Obligations.UnitInErrorDoesNotGoOn : Prop :=
  ∀ s : State,
    (s.dp.status.state = .err → exec .dpFill s = .next s ∧ exec .dpSelect s = .next s) ∧
    (s.dec.status.state = .err → exec .decStep s = .next s)

/-- R19: a host write stores any value of the register's width, and is refused while a unit is busy. That the bits above the
width of `BITS_MOFF` and `FLAGS` are dropped and read back as 0 is the model's choice (log 34); what else a write does to the
fill mark is log 25. -/
def Obligations.HostWriteOfConfiguration : Prop :=
  ∀ (s : State) (v : BitVec 16),
    ((s.mf.status.state = .busy ∨ s.dp.status.state = .busy ∨ s.dec.status.state = .busy) →
      ∀ k, hostAct (.writeCfg k v) s = .refused .unitBusy) ∧
    ((s.mf.status.state ≠ .busy ∧ s.dp.status.state ≠ .busy ∧ s.dec.status.state ≠ .busy) →
      ∀ k, k ≤ 4 → ∃ t, hostAct (.writeCfg k v) s = .next t ∧
        t.cfg.readReg k = some (v &&& (if k = 0 then 0x1F else if k = 3 then 0x7 else 0xFFFF)) ∧
        (∀ j, j ≠ k → t.cfg.readReg j = s.cfg.readReg j))

/-- R41, R187, U13: while an encode is under way a host write that changes a byte of its `DATA` is refused; every other write of
`DATA` stores its byte and changes nothing else; and whatever the host does, the cells the fill mark calls final stay so or the
mark is gone (R188; logs 8, 25, 36). -/
def Obligations.HostKeepsTheEncodeStable : Prop :=
  (∀ (s : State) (k : Nat) (b : Byte), k < 131072 →
    (k < s.held → SMap.get? s.data k ≠ some b → hostAct (.loadData k b) s = .refused .encodeUnderWay) ∧
    ((s.held ≤ k ∨ SMap.get? s.data k = some b) →
      ∃ m, hostAct (.loadData k b) s = .next { s with data := m } ∧ dataByte m k = b ∧
        ∀ j, j ≠ k → dataByte m j = dataByte s.data j)) ∧
  ∀ (a : HostAct) (s t : State), FillMarkSound s → hostAct a s = .next t → FillMarkSound t

/-! ## The cost model -/

/-- R81: `moff_cost`, code 0x10, the tests in the order of the rule, `CfgError` under an invalid `CFG`; a finite cost is 8 times the size
of the offset field. Only the result port changes (log 4). -/
def Obligations.OffsetCost : Prop :=
  decodeCommand 0x10 = some .cmMoff ∧
  ∀ s : State,
    let o := s.cm.operand
    let cost : Cost :=
      if o < 1 ∨ 2 ^ s.cfg.bitsMoff.toNat < o then .inf
      else if s.cfg.bitsMoff.toNat = 0 then .fin 0
      else if s.cfg.bitsMoff.toNat ≤ 8 then .fin 8
      else .fin 16
    exec .cmMoff s =
      .next { s with cm := { s.cm with result := if s.cfg.valid then .cost cost else .cfgError } } ∧
    (cost ≠ .inf → cost = .fin (8 * s.cfg.offBytes))

/-- R82: `mlen_cost`, code 0x11, `CfgError` under an invalid `CFG`; a finite cost is 8 times the size of the length field. Only the result
port changes (log 4). -/
def Obligations.MatchLengthCost : Prop :=
  decodeCommand 0x11 = some .cmMlen ∧
  ∀ s : State,
    let l := s.cm.operand
    let cost : Cost :=
      if s.cfg.maxMlen.toNat < l then .inf
      else if 255 < s.cfg.maxMlen.toNat ∧ 127 < l then .fin 16
      else .fin 8
    exec .cmMlen s =
      .next { s with cm := { s.cm with result := if s.cfg.valid then .cost cost else .cfgError } } ∧
    (cost ≠ .inf → cost = .fin (8 * (lenField s.cfg.mlenLimit l).length))

/-- R83: `zero_match_cost`, code 0x12, by its formula and by its values, `CfgError` under an invalid `CFG`; it is 8 times the size of a zero-length match
token. Only the result port changes (log 4). -/
def Obligations.ZeroMatchCostValues : Prop :=
  decodeCommand 0x12 = some .cmZmc ∧
  ∀ s : State,
    let bits : Nat :=
      if s.cfg.zeroOffset = false then 8
      else if s.cfg.bitsMoff.toNat = 0 then 8
      else if s.cfg.bitsMoff.toNat ≤ 8 then 16
      else 24
    exec .cmZmc s =
      .next { s with cm := { s.cm with result := if s.cfg.valid then .cost (.fin bits) else .cfgError } } ∧
    Cost.fin bits = (s.cfg.mlenCost 0).add (if s.cfg.zeroOffset then s.cfg.moffCost 1 else .fin 0) ∧
    bits = 8 * (1 + if s.cfg.zeroOffset then s.cfg.offBytes else 0)

/-- R84: `llen_cost` by its closed form, `s = ceil(l / MAX_LLEN) - 1` splits and the rest `r`; only the result port changes
(log 4). -/
def Obligations.LiteralLengthCostClosedForm : Prop :=
  ∀ (s : State) (z : Nat), s.cfg.valid = true → s.cfg.zeroMatchCost = .fin z →
    let l := s.cm.operand
    let m := s.cfg.maxLlen.toNat
    let splits := (l + m - 1) / m - 1
    let r := l - splits * m
    exec .cmLlen s = .next { s with cm := { s.cm with result := .cost (.fin
      (if l = 0 then 0 else 8 + splits * (8 + z) + (if 255 < m ∧ 127 < r then 8 else 0))) } }

/-- R85: `llen_cost` is non-decreasing under every valid `CFG`. -/
def Obligations.LiteralLengthCostMonotone : Prop :=
  ∀ (c : Cfg) (a b : Nat), c.valid = true → a ≤ b → (c.llenCost a).le (c.llenCost b) = true

/-! ## The match finder -/

/-- R90 to R94: MF.FIND answers the longest match within the window and the cap, at the smallest distance among the longest;
`(0, 0)` when there is none. Its status is completed (log 11) and the `N` bytes are held (log 36); nothing else of the machine changes. -/
def Obligations.FinderAnswersBestMatch : Prop :=
  ∀ s : State, s.cfg.valid = true → s.mf.n.toNat ≤ 131072 → s.mf.p.toNat ≤ s.mf.n.toNat →
    ∃ ml mp, exec .mfFind s =
        .next { s with
          mf := { s.mf with ml := ml, mp := mp, status := { state := .done, errcode := .none } }
          held := max s.held s.mf.n.toNat } ∧
      BestMatch s.cfg (dataByte s.data) s.mf.n.toNat s.mf.p.toNat ml mp

/-- R95: the bounds of the finder's result, and the finiteness of the costs the parser forms from it. -/
def Obligations.FinderResultBounds : Prop :=
  ∀ (c : Cfg) (dat : Nat → Byte) (n p : Nat), c.valid = true → p ≤ n →
    let r := findMatch c dat n p
    r.1 ≤ min c.mlenLimit (n - p) ∧
    (1 ≤ r.1 → 1 ≤ r.2 ∧ r.2 ≤ min p c.maxOff ∧ c.moffCost r.2 ≠ .inf ∧ (∀ l, l ≤ r.1 → c.mlenCost l ≠ .inf) ∧
      ∀ l, 1 ≤ l → l ≤ r.1 → ∀ j, j < l → dat (p + j) = dat (p - r.2 + j))

/-! ## The parser -/

/-- R100: DP.INIT writes the sentinel cell and no other; the status is that of a completed start operation (R169; log 11),
the fill mark says that the sentinel is final (log 8), and `DATA` is held (log 36). -/
def Obligations.InitWritesSentinel : Prop :=
  ∀ s : State, s.cfg.valid = true → s.dp.n.toNat ≤ 131072 →
    ∃ sp', exec .dpInit s = .next { s with
        sp := sp'
        dp := { s.dp with
          status := { state := .done, errcode := .none }
          fill := some (s.dp.n.toNat, s.dp.n.toNat) }
        held := max s.held s.dp.n.toNat } ∧
      cellAt sp' s.dp.n.toNat = { llen := 0, lbits := .fin 0, mlen := 0, mpos := 0, mbits := .inf } ∧
      ∀ q, q ≠ s.dp.n.toNat → cellAt sp' q = cellAt s.sp q

/-- R101, R182 (4): DP.RUN completes, and its table, registers and status are those of DP.INIT followed by DP.FILL for
`p = N - 1` down to 0, for `N = 0` of DP.INIT alone; an error that concerns `CFG` or `N` writes no cell
(logs 8, 11, 16, 36). -/
def Obligations.RunIsInitThenFills : Prop :=
  (∀ s : State, s.cfg.valid = false ∨ 131072 < s.dp.n.toNat →
    ∃ t, exec .dpRun s = .next t ∧ t.sp = s.sp ∧ t.dp.status.state = .err) ∧
  ∀ s : State, s.cfg.valid = true → s.dp.n.toNat ≤ 131072 →
    ∃ t u, exec .dpInit s = .next t ∧ fillEach s.dp.n.toNat t = some u ∧ exec .dpRun s = .next u ∧
      u.dp.status = { state := .done, errcode := .none } ∧ (s.dp.n.toNat = 0 → u = t)

/-- R102 to R107: DP.FILL over final cells writes `SP[p]`, and no other cell: `llen` and `lbits` are those of the literal path
(R103, R104), `mlen` and `mbits` those of the match path at the finder's `(fl, mp)`, `mpos` is `mp` when `fl ≥ 1` and 0
otherwise (R105). No register of `DP` changes but the model's fill mark (log 8), none of `MF` (log 15), and `DATA` is held
(log 36). -/
def Obligations.FillWritesItsCell : Prop :=
  ∀ (s : State) (f : Nat), s.dp.status.state ≠ .err → s.cfg.valid = true → s.dp.n.toNat ≤ 131072 →
    s.dp.p.toNat < s.dp.n.toNat → s.dp.fill = some (s.dp.n.toNat, f) → f ≤ s.dp.p.toNat + 1 →
    ∃ sp', exec .dpFill s = .next { s with
        sp := sp'
        dp := { s.dp with fill := some (s.dp.n.toNat, min f s.dp.p.toNat) }
        held := max s.held s.dp.n.toNat } ∧
      cellAt sp' s.dp.p.toNat = fillCell s.cfg (dataByte s.data) s.dp.n.toNat (cellAt s.sp) s.dp.p.toNat ∧
      (let lit := literalPath s.cfg (cellAt s.sp) s.dp.n.toNat s.dp.p.toNat
       let found := findMatch s.cfg (dataByte s.data) s.dp.n.toNat s.dp.p.toNat
       let mat := matchPath s.cfg (cellAt s.sp) s.dp.p.toNat found.1 found.2
       let x := cellAt sp' s.dp.p.toNat
       x.llen = lit.llen ∧ x.lbits = lit.lbits ∧ x.mlen = mat.2 ∧ x.mbits = mat.1 ∧
         (1 ≤ found.1 → x.mpos = found.2) ∧ (found.1 = 0 → x.mpos = 0)) ∧
      ∀ q, q ≠ s.dp.p.toNat → cellAt sp' q = cellAt s.sp q

/-- R186, U8: DP.FILL whose cells above are not all final completes too; the cell it writes is the free value of the
counter, whatever that is, the counter advances, and no other cell changes (log 8); no register of `MF` does (log 15), and
`DATA` is held (log 36). -/
def Obligations.OutOfOrderFillWritesAnyValue : Prop :=
  ∀ s : State, s.dp.status.state ≠ .err → s.cfg.valid = true → s.dp.n.toNat ≤ 131072 →
    s.dp.p.toNat < s.dp.n.toNat →
    (∀ f, s.dp.fill = some (s.dp.n.toNat, f) → s.dp.p.toNat + 1 < f) →
    ∃ t, exec .dpFill s = .next t ∧
      cellAt t.sp s.dp.p.toNat = Config.freeCell s.freeCount ∧ t.freeCount = s.freeCount + 1 ∧
      (∀ q, q ≠ s.dp.p.toNat → cellAt t.sp q = cellAt s.sp q) ∧
      t = { s with
        sp := t.sp, freeCount := t.freeCount, dp := { s.dp with fill := t.dp.fill }, held := max s.held s.dp.n.toNat }

/-- R103, R104: the literal path takes the cheapest candidate. Over finite literal costs the first loop ends with the cheapest
join, the smallest `i` among equals, and with `ml` the greatest reachable run; the second loop replaces it only by a strictly
cheaper literal before a match. -/
def Obligations.LiteralPathIsCheapest : Prop :=
  ∀ (c : Cfg) (cell : Nat → SpCell) (n p : Nat), p < n →
    (∀ i, 1 ≤ i → i ≤ 5 → p + i ≤ n → joinCost c cell p i ≠ .inf) →
    let x := joinLiterals c cell n p
    let y := literalPath c cell n p
    (∃ i, 1 ≤ i ∧ i ≤ 5 ∧ p + i ≤ n ∧ x.lbits = joinCost c cell p i ∧ x.llen = (cell (p + i)).llen + i ∧
      (∀ k, 1 ≤ k → k ≤ 5 → p + k ≤ n → x.lbits.le (joinCost c cell p k) = true) ∧
      (∀ k, 1 ≤ k → k < i → x.lbits.lt (joinCost c cell p k) = true)) ∧
    (∀ i, 1 ≤ i → i ≤ 5 → p + i ≤ n → (cell (p + i)).llen + i ≤ x.ml) ∧
    (∃ i, 1 ≤ i ∧ i ≤ 5 ∧ p + i ≤ n ∧ x.ml = (cell (p + i)).llen + i) ∧
    (∀ i, 1 ≤ i → i < x.ml → y.lbits.le (shortLiteralCost c cell p i) = true) ∧
    ((y.lbits = x.lbits ∧ y.llen = x.llen ∧
        ∀ i, 1 ≤ i → i < x.ml → x.lbits.le (shortLiteralCost c cell p i) = true) ∨
     (∃ i, 1 ≤ i ∧ i < x.ml ∧ y.lbits = shortLiteralCost c cell p i ∧ y.llen = i ∧ y.lbits.lt x.lbits = true ∧
        ∀ k, 1 ≤ k → k < i → y.lbits.lt (shortLiteralCost c cell p k) = true))

/-- R105, R106, D14: the match path takes the cheapest candidate over all lengths; among lengths whose match-candidate ties the
minimum the largest wins, and where only literal-candidates reach it the smallest; with no finite candidate there is no
match. -/
def Obligations.MatchPathTiePolicy : Prop :=
  ∀ (c : Cfg) (cell : Nat → SpCell) (p fl mp : Nat),
    let x := matchPath c cell p fl mp
    (∀ l, 1 ≤ l → l ≤ fl →
      x.1.le (matchThenLiteral c cell p mp l) = true ∧ x.1.le (matchThenMatch c cell p mp l) = true) ∧
    (x.1 = .inf → x.2 = 0) ∧
    (x.1 ≠ .inf →
      1 ≤ x.2 ∧ x.2 ≤ fl ∧
      ((x.1 = matchThenMatch c cell p mp x.2 ∧
          ∀ l, 1 ≤ l → l ≤ fl → matchThenMatch c cell p mp l = x.1 → l ≤ x.2) ∨
       (x.1 = matchThenLiteral c cell p mp x.2 ∧
          (∀ l, 1 ≤ l → l ≤ fl → matchThenMatch c cell p mp l ≠ x.1) ∧
          ∀ l, 1 ≤ l → l < x.2 → matchThenLiteral c cell p mp l ≠ x.1)))

/-- R109: DP.SELECT chooses LITERAL iff `lbits + extra ≤ mbits`, `extra` being `zero_match_cost` after a literal; equality
chooses LITERAL; only `DP.CHOICE` changes. -/
def Obligations.SelectChoosesTheCheaper : Prop :=
  ∀ s : State, s.dp.status.state ≠ .err → s.cfg.valid = true → s.dp.p.toNat < s.dp.n.toNat →
    let x := cellAt s.sp s.dp.p.toNat
    ¬ (x.lbits = .inf ∧ x.mbits = .inf) →
    exec .dpSelect s = .next { s with dp := { s.dp with choice :=
      if (x.lbits.add (if s.dp.prevLit then s.cfg.zeroMatchCost else .fin 0)).le x.mbits then .literal else .matched } }

/-- R110, R164: DP.SELECT on a cell with two infinite costs raises `Infeasible` with `ERRPOS = p`; nothing else changes. -/
def Obligations.SelectOnTwoInfinitesIsInfeasible : Prop :=
  ∀ s : State, s.dp.status.state ≠ .err → s.cfg.valid = true → s.dp.p.toNat < s.dp.n.toNat →
    (cellAt s.sp s.dp.p.toNat).lbits = .inf → (cellAt s.sp s.dp.p.toNat).mbits = .inf →
    exec .dpSelect s =
      .next { s with dp := { s.dp with status := { state := .err, errcode := .infeasible }, errpos := s.dp.p } }

/-- R97, D13: MF.FIND with `p > N`, DP.FILL and DP.SELECT with `p ≥ N` have no meaning; at `p = N` the finder has one. -/
def Obligations.OperandsOutOfRangeAreRefused : Prop :=
  ∀ s : State, s.cfg.valid = true →
    (s.mf.n.toNat ≤ 131072 → s.mf.n.toNat < s.mf.p.toNat → exec .mfFind s = .refused .operandOutOfRange) ∧
    (s.dp.status.state ≠ .err → s.dp.n.toNat ≤ s.dp.p.toNat →
      exec .dpSelect s = .refused .operandOutOfRange ∧
      (s.dp.n.toNat ≤ 131072 → exec .dpFill s = .refused .operandOutOfRange))

/-- R101, R102: whatever a step does, the cells the fill mark calls final are the sentinel and what DP.FILL computes from the
cells above (log 8). -/
def Obligations.StepKeepsFinalCells : Prop :=
  ∀ s t : State, FillMarkSound s → step s = .next t → FillMarkSound t

/-- The invariants hold at reset. -/
def Obligations.ResetMeetsInvariants : Prop :=
  FillMarkSound State.reset ∧ MemoriesCanonical State.reset ∧ StatusSound State.reset ∧
  RingHoldsRecentOutput State.reset.cfg State.reset.dec

/-- R108: in a table filled by the rules every cell is as the rule lists, and a match cell stands for a match (R95). That
`mpos` is 0 where there is none, which R108 leaves unused, is the spec's own decision D6 (R22, R105). -/
def Obligations.FilledTableInvariants : Prop :=
  ∀ (c : Cfg) (dat : Nat → Byte) (n f : Nat) (cell : Nat → SpCell), c.valid = true → TableFinal c dat n f cell →
    ∀ p, f ≤ p → p ≤ n → CellSound c dat n p (cell p) ∧ (p < n → (joinLiterals c cell n p).ml ≤ n - p)

/-- R108 (e), R109: after DP.RUN on a non-empty input the choice at position 0 is LITERAL, whatever `PREV_LIT` is. -/
def Obligations.StreamBeginsWithLiteral : Prop :=
  ∀ (s t : State) (b : Bool), s.cfg.valid = true → 0 < s.dp.n.toNat → s.dp.n.toNat ≤ 131072 →
    exec .dpRun s = .next t →
    exec .dpSelect { t with dp := { t.dp with p := 0, prevLit := b } } =
      .next { t with dp := { t.dp with p := 0, prevLit := b, choice := .literal } }

/-- R111: the table after DP.RUN is a function of `BITS_MOFF`, `MAX_MLEN`, `MAX_LLEN`, `ZERO_OFFSET`, `N` and the `N` bytes of
`DATA`: two machines that agree on these, and on nothing else, fill the same cells. -/
def Obligations.TableIsFunctionOfItsInputs : Prop :=
  ∀ s s' : State, s.cfg.valid = true → s'.cfg.valid = true → s.dp.n.toNat ≤ 131072 →
    s'.cfg.bitsMoff = s.cfg.bitsMoff → s'.cfg.maxMlen = s.cfg.maxMlen → s'.cfg.maxLlen = s.cfg.maxLlen →
    s'.cfg.zeroOffset = s.cfg.zeroOffset → s'.dp.n = s.dp.n →
    (∀ i, i < s.dp.n.toNat → dataByte s'.data i = dataByte s.data i) →
    ∃ t t', exec .dpRun s = .next t ∧ exec .dpRun s' = .next t' ∧
      ∀ p, p ≤ s.dp.n.toNat → cellAt t'.sp p = cellAt t.sp p

/-! ## The decoder -/

/-- R136: DEC.START, code 0x40, also out of ERR (R169); the ring stays (R191), and so do the streams and the rest of the error
record (log 11); `CfgError` under an invalid `CFG` (R168). It holds of a BUSY decoder too, from which a step never begins it
(log 32). -/
def Obligations.StartInitialisesDecoder : Prop :=
  decodeCommand 0x40 = some .decStart ∧
  ∀ s : State,
    (s.cfg.valid = true →
      exec .decStart s = .next { s with dec := { s.dec with
        pos := 0, ip := 0, cnt := 0, src := 0, off := 0, lenlo := 0
        phase := .llen, status := { state := .busy, errcode := .none } } }) ∧
    (s.cfg.valid = false →
      exec .decStart s = .next { s with dec := { s.dec with
        phase := .err, status := { state := .err, errcode := .cfgError } } })

/-- R139 for LIT.B, LIT.S, LIT.W and ZLIT with their data in `IN`: the data bytes are output and stored in the ring, `POS` and
`IP` advance by their number, a match length is expected next, nothing else changes. -/
def Obligations.LiteralBlockIsCopiedOut : Prop :=
  ∀ s : State, s.dec.phase = .llen →
    let result (lenlo : Byte) (n : Nat) (ring' : Memory) : State := { s with dec := { s.dec with
      phase := .mlen, cnt := 0, lenlo := lenlo, pos := s.dec.pos + n, ip := s.dec.ip + n
      inp := s.dec.inp.drop n, out := s.dec.out ++ s.dec.inp.take n, ring := ring' } }
    (∀ n : Byte, s.cfg.maxLlen.toNat ≤ 255 → n.toNat ≤ s.dec.inp.length →
      ∃ ring', exec (.litB n) s = .next (result s.dec.lenlo n.toNat ring') ∧
        RingWritten s.cfg s.dec.ring ring' s.dec.pos (s.dec.inp.take n.toNat)) ∧
    (∀ n : BitVec 7, 255 < s.cfg.maxLlen.toNat → n.toNat ≤ s.dec.inp.length →
      ∃ ring', exec (.litS n) s = .next (result s.dec.lenlo n.toNat ring') ∧
        RingWritten s.cfg s.dec.ring ring' s.dec.pos (s.dec.inp.take n.toNat)) ∧
    (∀ (lo : BitVec 7) (hi : Byte), 255 < s.cfg.maxLlen.toNat →
      128 + lo.toNat + 128 * hi.toNat ≤ s.dec.inp.length →
      ∃ ring', exec (.litW lo hi) s =
          .next (result (0x80 ||| lo.setWidth 8) (128 + lo.toNat + 128 * hi.toNat) ring') ∧
        RingWritten s.cfg s.dec.ring ring' s.dec.pos (s.dec.inp.take (128 + lo.toNat + 128 * hi.toNat))) ∧
    exec .zlit s = .next (result s.dec.lenlo 0 s.dec.ring)

/-- R139, R149, R153, R162, R166: a literal of LIT.B, LIT.S or LIT.W whose data the end of `IN` cuts short has output the
bytes that were there, and raises `Truncated` with the literal byte expected and both positions recorded; `CNT` is what is
missing (R24, R152; log 17). A literal of length 0 cannot be cut; the byte form is a row of DecStepIsOneByte. -/
def Obligations.CutLiteralIsTruncated : Prop :=
  ∀ s : State, s.dec.phase = .llen → s.dec.inEnd = true →
    let result (lenlo : Byte) (n : Nat) (ring' : Memory) : State := { s with dec := { s.dec with
      phase := .err, status := { state := .err, errcode := .truncated }, errexp := .literalByte
      errpos := s.dec.pos + s.dec.inp.length, errip := s.dec.ip + s.dec.inp.length
      cnt := n - s.dec.inp.length, lenlo := lenlo
      pos := s.dec.pos + s.dec.inp.length, ip := s.dec.ip + s.dec.inp.length
      inp := [], out := s.dec.out ++ s.dec.inp, ring := ring' } }
    (∀ n : Byte, s.cfg.maxLlen.toNat ≤ 255 → s.dec.inp.length < n.toNat →
      ∃ ring', exec (.litB n) s = .next (result s.dec.lenlo n.toNat ring') ∧
        RingWritten s.cfg s.dec.ring ring' s.dec.pos s.dec.inp) ∧
    (∀ n : BitVec 7, 255 < s.cfg.maxLlen.toNat → s.dec.inp.length < n.toNat →
      ∃ ring', exec (.litS n) s = .next (result s.dec.lenlo n.toNat ring') ∧
        RingWritten s.cfg s.dec.ring ring' s.dec.pos s.dec.inp) ∧
    (∀ (lo : BitVec 7) (hi : Byte), 255 < s.cfg.maxLlen.toNat →
      s.dec.inp.length < 128 + lo.toNat + 128 * hi.toNat →
      ∃ ring', exec (.litW lo hi) s =
          .next (result (0x80 ||| lo.setWidth 8) (128 + lo.toNat + 128 * hi.toNat) ring') ∧
        RingWritten s.cfg s.dec.ring ring' s.dec.pos s.dec.inp)

/-- R138, R141, R149, R162, R166: where the end of `IN` cuts a field short, `Truncated` is raised with the second length byte
or the offset byte expected and both positions recorded: a two-byte length in the stream and in a run, for a literal and for a
match; the offset field behind MAT.B, MAT.S, MAT.W and ZMAT, its first or its second byte; the offset field on its own. What
`CNT`, `LENLO` and `OFF` hold then is log 17; that the decoder goes there without a command, in one step or two, is log 2 (and
log 32 where a command waits). -/
def Obligations.MissingFieldByteIsTruncated : Prop :=
  ∀ s : State, s.dec.inEnd = true →
    (∀ c : Byte, NoCommandBegins s → s.dec.inp = [c] → 128 ≤ c.toNat →
      ((s.dec.phase = .llen ∧ 255 < s.cfg.maxLlen.toNat) ∨ (s.dec.phase = .mlen ∧ 255 < s.cfg.maxMlen.toNat)) →
      ∃ t, step s = .next t ∧ step t = .next { s with
        dec := cutAt .secondLengthByte { s.dec with inp := [], ip := s.dec.ip + 1, lenlo := c } }) ∧
    (∀ c : Byte, s.cfg.valid = true → 128 ≤ c.toNat →
      let begun (k : Nat) : Dec :=
        { s.dec with pos := 0, ip := k, cnt := 0, src := 0, off := 0, lenlo := c, inp := [] }
      (s.dec.inp = [c] → 255 < s.cfg.maxLlen.toNat →
        exec .decRun s = .next { s with dec := cutAt .secondLengthByte (begun 1) }) ∧
      (s.dec.inp = [0x00, c] → 255 < s.cfg.maxMlen.toNat →
        exec .decRun s = .next { s with dec := cutAt .secondLengthByte (begun 2) })) ∧
    (s.dec.phase = .mlen → 1 ≤ s.cfg.bitsMoff.toNat →
      let cutOffset (i : Instr) (n : Nat) (lenlo : Byte) : Prop :=
        (s.dec.inp = [] →
          exec i s = .next { s with dec := cutAt .offsetByte { s.dec with cnt := n, lenlo := lenlo } }) ∧
        (∀ b0 : Byte, s.dec.inp = [b0] → 8 < s.cfg.bitsMoff.toNat →
          exec i s = .next { s with dec := cutAt .offsetByte { s.dec with
            cnt := n, lenlo := lenlo, inp := [], ip := s.dec.ip + 1, off := (0x00 : Byte) ++ b0 } })
      (∀ m : Byte, s.cfg.maxMlen.toNat ≤ 255 → (0 < m.toNat ∨ s.cfg.zeroOffset = true) →
        cutOffset (.matB m) m.toNat s.dec.lenlo) ∧
      (∀ m : BitVec 7, 255 < s.cfg.maxMlen.toNat → (0 < m.toNat ∨ s.cfg.zeroOffset = true) →
        cutOffset (.matS m) m.toNat s.dec.lenlo) ∧
      (∀ (lo : BitVec 7) (hi : Byte), 255 < s.cfg.maxMlen.toNat →
        cutOffset (.matW lo hi) (128 + lo.toNat + 128 * hi.toNat) (0x80 ||| lo.setWidth 8)) ∧
      (s.cfg.zeroOffset = true → cutOffset .zmat 0 s.dec.lenlo)) ∧
    (s.dec.phase = .offlo → NoCommandBegins s →
      (s.dec.inp = [] → 1 ≤ s.cfg.bitsMoff.toNat → step s = .next { s with dec := cutAt .offsetByte s.dec }) ∧
      (∀ b0 : Byte, s.dec.inp = [b0] → 8 < s.cfg.bitsMoff.toNat →
        ∃ t, step s = .next t ∧ step t = .next { s with dec := cutAt .offsetByte { s.dec with
          inp := [], ip := s.dec.ip + 1, off := (0x00 : Byte) ++ b0 } }))

/-- R140: a match of length 0 under `ZERO_OFFSET = 0` does nothing but expect a literal length next (MAT.B, MAT.S, ZMAT). -/
def Obligations.ZeroMatchDoesNothing : Prop :=
  ∀ s : State, s.dec.phase = .mlen → s.cfg.zeroOffset = false →
    let t : State := { s with dec := { s.dec with phase := .llen, cnt := 0 } }
    exec .zmat s = .next t ∧
    (s.cfg.maxMlen.toNat ≤ 255 → exec (.matB 0) s = .next t) ∧
    (255 < s.cfg.maxMlen.toNat → exec (.matS 0) s = .next t)

/-- R140, R141 to R147 for MAT.B, MAT.S, MAT.W and ZMAT with their offset field in `IN`: the offset is read and kept, the
source computed, `n` bytes copied in the order of R147; `IP` counts the offset bytes; a literal length is expected next;
nothing else changes. -/
def Obligations.MatchBlockIsCopied : Prop :=
  ∀ (s : State) (off : BitVec 16), s.dec.phase = .mlen → offsetAhead s.cfg s.dec.inp = some off →
    let src := sourceOf s.cfg s.dec.pos off
    let result (lenlo : Byte) (n : Nat) (xs : List Byte) (ring' : Memory) : State := { s with dec := { s.dec with
      phase := .llen, cnt := 0, lenlo := lenlo, off := off, src := BitVec.ofNat 16 (src + n), pos := s.dec.pos + n
      ip := s.dec.ip + s.cfg.offBytes, inp := s.dec.inp.drop s.cfg.offBytes, out := s.dec.out ++ xs, ring := ring' } }
    let copied (n : Nat) (xs : List Byte) (ring' : Memory) : Prop :=
      CopiedFrom s.cfg s.dec.ring s.dec.pos src n xs ∧ RingWritten s.cfg s.dec.ring ring' s.dec.pos xs
    (∀ m : Byte, s.cfg.maxMlen.toNat ≤ 255 → (0 < m.toNat ∨ s.cfg.zeroOffset = true) →
      ∃ xs ring', exec (.matB m) s = .next (result s.dec.lenlo m.toNat xs ring') ∧ copied m.toNat xs ring') ∧
    (∀ m : BitVec 7, 255 < s.cfg.maxMlen.toNat → (0 < m.toNat ∨ s.cfg.zeroOffset = true) →
      ∃ xs ring', exec (.matS m) s = .next (result s.dec.lenlo m.toNat xs ring') ∧ copied m.toNat xs ring') ∧
    (∀ (lo : BitVec 7) (hi : Byte), 255 < s.cfg.maxMlen.toNat →
      ∃ xs ring', exec (.matW lo hi) s =
          .next (result (0x80 ||| lo.setWidth 8) (128 + lo.toNat + 128 * hi.toNat) xs ring') ∧
        copied (128 + lo.toNat + 128 * hi.toNat) xs ring') ∧
    (s.cfg.zeroOffset = true → exec .zmat s = .next (result s.dec.lenlo 0 [] s.dec.ring))

/-- R141 to R147 for OFF.0, OFF.1 and OFF.2 where a match of length `DEC.CNT` awaits its offset: the value with its
complement, the source, the copy; nothing else changes. -/
def Obligations.OffsetFieldCompletesTheMatch : Prop :=
  ∀ s : State, s.dec.phase = .offlo →
    let result (off : BitVec 16) (xs : List Byte) (ring' : Memory) : State := { s with dec := { s.dec with
      phase := .llen, cnt := 0, off := off, src := BitVec.ofNat 16 (sourceOf s.cfg s.dec.pos off + s.dec.cnt)
      pos := s.dec.pos + s.dec.cnt, out := s.dec.out ++ xs, ring := ring' } }
    let copied (off : BitVec 16) (xs : List Byte) (ring' : Memory) : Prop :=
      CopiedFrom s.cfg s.dec.ring s.dec.pos (sourceOf s.cfg s.dec.pos off) s.dec.cnt xs ∧
        RingWritten s.cfg s.dec.ring ring' s.dec.pos xs
    (s.cfg.bitsMoff.toNat = 0 → ∃ xs ring', exec .off0 s = .next (result 0 xs ring') ∧ copied 0 xs ring') ∧
    (∀ b0 : Byte, 1 ≤ s.cfg.bitsMoff.toNat → s.cfg.bitsMoff.toNat ≤ 8 →
      let off : BitVec 16 := (0x00 : Byte) ++ (if s.cfg.exorOffset then ~~~b0 else b0)
      ∃ xs ring', exec (.off1 b0) s = .next (result off xs ring') ∧ copied off xs ring') ∧
    (∀ b0 b1 : Byte, 8 < s.cfg.bitsMoff.toNat →
      let off : BitVec 16 := if s.cfg.exorOffset then ~~~(b1 ++ b0) else b1 ++ b0
      ∃ xs ring', exec (.off2 b0 b1) s = .next (result off xs ring') ∧ copied off xs ring')

/-- R148: END is a clean end: `PHASE` and `STATE` are DONE, nothing else changes. -/
def Obligations.EndOfStreamIsClean : Prop :=
  ∀ s : State, (s.dec.phase = .llen ∨ s.dec.phase = .mlen) → s.dec.inp = [] → s.dec.inEnd = true →
    exec .eos s = .next { s with dec := { s.dec with phase := .done, status := { s.dec.status with state := .done } } }

/-- R152: DEC.STEP completes; it takes at most one byte of `IN` (none in phase COPY) and outputs at most one, and makes no step
in IDLE, DONE and ERR; and in a decoder that has not stopped in error it is the row of its phase: on a byte, at the end of
`IN`, and with neither (R170; log 3), with the transient decisions AfterLLen, AfterMLen, AfterOff and AfterSrc written out. The
offset rows are meant under the `BITS_MOFF` under which their phase is entered (log 18). -/
def Obligations.DecStepIsOneByte : Prop :=
  ∀ s : State, s.cfg.valid = true →
    ∃ d, exec .decStep s = .next { s with dec := d } ∧
      ((d.inp = s.dec.inp ∧ d.ip = s.dec.ip) ∨
        (s.dec.phase ≠ .copy ∧ ∃ b, s.dec.inp = b :: d.inp ∧ d.ip = s.dec.ip + 1)) ∧
      ((d.out = s.dec.out ∧ d.pos = s.dec.pos ∧ d.ring = s.dec.ring) ∨
        ∃ x, d.out = s.dec.out ++ [x] ∧ d.pos = s.dec.pos + 1 ∧
          RingWritten s.cfg s.dec.ring d.ring s.dec.pos [x]) ∧
      ((s.dec.phase = .idle ∨ s.dec.phase = .done ∨ s.dec.phase = .err) → d = s.dec) ∧
      (s.dec.status.state ≠ .err →
        let src (off : BitVec 16) : BitVec 16 := BitVec.ofNat 16 (sourceOf s.cfg s.dec.pos off)
        (∀ (b : Byte) (rest : List Byte), s.dec.inp = b :: rest →
          let d0 : Dec := { s.dec with inp := rest, ip := s.dec.ip + 1 }
          let wide2 : Nat := s.dec.lenlo.toNat + 128 * b.toNat
          let afterLLen (n : Nat) : Dec := { d0 with cnt := n, phase := if 0 < n then .lit else .mlen }
          let afterMLen (n : Nat) : Dec :=
            if n = 0 ∧ s.cfg.zeroOffset = false then { d0 with cnt := n, phase := .llen }
            else if s.cfg.bitsMoff.toNat = 0 then
              { d0 with cnt := n, off := 0, src := src 0, phase := if 0 < n then .copy else .llen }
            else { d0 with cnt := n, phase := .offlo }
          let afterOff (off : BitVec 16) : Dec :=
            { d0 with off := off, src := src off, phase := if 0 < s.dec.cnt then .copy else .llen }
          (s.dec.phase = .llen →
            d = if 256 ≤ s.cfg.maxLlen.toNat ∧ 128 ≤ b.toNat then { d0 with lenlo := b, phase := .llen2 }
                else afterLLen b.toNat) ∧
          (s.dec.phase = .llen2 → d = afterLLen wide2) ∧
          (s.dec.phase = .lit →
            d = { d0 with
              out := s.dec.out ++ [b], pos := s.dec.pos + 1, cnt := s.dec.cnt - 1, ring := d.ring
              phase := if s.dec.cnt - 1 = 0 then .mlen else .lit } ∧
            RingWritten s.cfg s.dec.ring d.ring s.dec.pos [b]) ∧
          (s.dec.phase = .mlen →
            d = if 256 ≤ s.cfg.maxMlen.toNat ∧ 128 ≤ b.toNat then { d0 with lenlo := b, phase := .mlen2 }
                else afterMLen b.toNat) ∧
          (s.dec.phase = .mlen2 → d = afterMLen wide2) ∧
          (s.dec.phase = .offlo → 1 ≤ s.cfg.bitsMoff.toNat →
            d = if 8 < s.cfg.bitsMoff.toNat then { d0 with off := (0x00 : Byte) ++ b, phase := .offhi }
                else afterOff ((0x00 : Byte) ++ (if s.cfg.exorOffset then ~~~b else b))) ∧
          (s.dec.phase = .offhi → 8 < s.cfg.bitsMoff.toNat →
            let off : BitVec 16 := s.dec.off ||| (b ++ (0x00 : Byte))
            d = afterOff (if s.cfg.exorOffset then ~~~off else off))) ∧
        (s.dec.inp = [] → s.dec.inEnd = true →
          ((s.dec.phase = .llen ∨ s.dec.phase = .mlen) →
            d = { s.dec with phase := .done, status := { s.dec.status with state := .done } }) ∧
          ((s.dec.phase = .llen2 ∨ s.dec.phase = .mlen2) → d = cutAt .secondLengthByte s.dec) ∧
          (s.dec.phase = .lit → d = cutAt .literalByte s.dec) ∧
          (((s.dec.phase = .offlo ∧ 1 ≤ s.cfg.bitsMoff.toNat) ∨ s.dec.phase = .offhi) → d = cutAt .offsetByte s.dec)) ∧
        (s.dec.inp = [] → s.dec.inEnd = false → s.dec.phase ≠ .copy →
          (s.dec.phase = .offlo → 1 ≤ s.cfg.bitsMoff.toNat) → d = s.dec) ∧
        (s.dec.phase = .copy →
          let x := ringByte s.cfg s.dec.ring s.dec.src.toNat
          d = { s.dec with
            out := s.dec.out ++ [x], pos := s.dec.pos + 1, src := s.dec.src + 1, cnt := s.dec.cnt - 1, ring := d.ring
            phase := if s.dec.cnt - 1 = 0 then .llen else .copy } ∧
          RingWritten s.cfg s.dec.ring d.ring s.dec.pos [x]))

/-- R152: "`DEC.RUN` equals `DEC.START` followed by `DEC.STEP` repeated until `DEC.PHASE ∈ {DONE, ERR}`": the two forms of the
decoder agree on every stream, also on one whose end has not been indicated (then both wait at the same place; log 3). -/
def Obligations.RunIsStartThenSteps : Prop :=
  ∀ s : State, s.cfg.valid = true →
    ∃ t u k, exec .decStart s = .next t ∧ decSteps k t = some u ∧ exec .decRun s = .next u ∧
      exec .decStep u = .next u ∧
      (s.dec.inEnd = true → u.dec.phase = .done ∨ u.dec.phase = .err)

/-- R72, R150, R148, R149: with the end of `IN` indicated, every byte sequence runs to a clean end with all of `IN` consumed
and no error code, or to `Truncated`, which records what was expected and the place; DEC.RUN completes, and `POS` is the number of bytes it has
output (R25). -/
def Obligations.EveryStreamEnds : Prop :=
  ∀ s : State, s.cfg.valid = true → s.dec.inEnd = true →
    ∃ d xs, exec .decRun s = .next { s with dec := d } ∧ d.inp = [] ∧ d.ip = s.dec.inp.length ∧
      d.out = s.dec.out ++ xs ∧ d.pos = xs.length ∧
      ((d.phase = .done ∧ d.status = { state := .done, errcode := .none }) ∨
       (d.phase = .err ∧ d.status = { state := .err, errcode := .truncated } ∧ d.errexp ≠ .none ∧
         d.errpos = d.pos ∧ d.errip = d.ip))

/-- R73, R137, R152: a step that runs a token, or goes on inside one, does to the decoder what some number of byte steps do,
and nothing to the rest of the machine. -/
def Obligations.TokenStepIsByteSteps : Prop :=
  ∀ s : State, NoCommandBegins s → ∃ k, step s = .next { s with dec := byteSteps s.cfg k s.dec }

/-- R45, R153, R25: no step takes back output: `OUT` only grows; where no run is started `POS` grows with it, and a step that
starts a run (DEC.START, DEC.RUN) leaves in `POS` the number of bytes it has output. -/
def Obligations.OutputOnlyGrows : Prop :=
  ∀ s t : State, step s = .next t →
    ∃ xs, t.dec.out = s.dec.out ++ xs ∧
      (¬ StartsRun s → t.dec.pos = s.dec.pos + xs.length) ∧
      (StartsRun s → t.dec.pos = xs.length)

/-- R43: the ring holds the most recent `min(pos, mask + 1)` output bytes, and every step keeps it so. -/
def Obligations.StepKeepsRingRecent : Prop :=
  ∀ s t : State, RingHoldsRecentOutput s.cfg s.dec → step s = .next t → RingHoldsRecentOutput t.cfg t.dec

/-- Every step keeps the memories in their canonical form, and `RING` within its 65536 cells (log 9). -/
def Obligations.StepKeepsMemoriesCanonical : Prop :=
  ∀ s t : State, MemoriesCanonical s → step s = .next t → MemoriesCanonical t

/-- R27, R168, R169, R24, R152: every step keeps `STATE`, `ERRCODE`, `PHASE` and `CNT` consistent, and the phases of the offset
field with `BITS_MOFF`. That no state between steps shows `MF` or `DP` BUSY is the model's reading of D21 (log 33). -/
def Obligations.StepKeepsStatusSound : Prop :=
  ∀ s t : State, StatusSound s → step s = .next t → StatusSound t

/-- R144: in RLE mode the complement flag has no effect, on a run, on one byte step, or on the empty offset field. The byte step
is meant in a decoder that waits for a second offset byte only under a `BITS_MOFF` above 8, which every step keeps
(StepKeepsStatusSound; log 18). -/
def Obligations.ComplementIsVoidInRleMode : Prop :=
  ∀ (s : State) (b : Bool), s.cfg.bitsMoff.toNat = 0 →
    let s' : State := { s with cfg := { s.cfg with exorOffset := b } }
    (∃ d, exec .decRun s = .next { s with dec := d } ∧ exec .decRun s' = .next { s' with dec := d }) ∧
    ((s.dec.phase = .offhi → 8 < s.cfg.bitsMoff.toNat) →
      ∃ d, exec .decStep s = .next { s with dec := d } ∧ exec .decStep s' = .next { s' with dec := d }) ∧
    (s.dec.phase = .offlo →
      ∃ d, exec .off0 s = .next { s with dec := d } ∧ exec .off0 s' = .next { s' with dec := d } ∧ d.off = 0)

/-- R140, U17: the offset value of a zero-length match has no observable effect: two streams that differ only in it leave
decoders that differ only in `DEC.OFF` and `DEC.SRC`: for OFF.1 and OFF.2 where the offset is due and `CNT` is 0, and for
MAT.B 0, MAT.S 0 and ZMAT under `ZERO_OFFSET = 1` with the whole field before them. -/
def Obligations.ZeroMatchOffsetIsIgnored : Prop :=
  ∀ s : State,
    let alike (o o' : Host.Outcome State Fault Refusal) (rest : List Byte) : Prop :=
      ∃ t t', o = .next t ∧ o' = .next t' ∧
        t' = { t with dec := { t.dec with off := t'.dec.off, src := t'.dec.src } } ∧
        t.dec.out = s.dec.out ∧ t.dec.ring = s.dec.ring ∧ t.dec.pos = s.dec.pos ∧ t.dec.inp = rest ∧ t.dec.phase = .llen
    (s.dec.phase = .offlo → s.dec.cnt = 0 →
      (∀ b0 b0' : Byte, 1 ≤ s.cfg.bitsMoff.toNat → s.cfg.bitsMoff.toNat ≤ 8 →
        alike (exec (.off1 b0) s) (exec (.off1 b0') s) s.dec.inp) ∧
      (∀ b0 b1 b0' b1' : Byte, 8 < s.cfg.bitsMoff.toNat →
        alike (exec (.off2 b0 b1) s) (exec (.off2 b0' b1') s) s.dec.inp)) ∧
    (s.dec.phase = .mlen → s.cfg.zeroOffset = true →
      ∀ field field' rest : List Byte, field.length = s.cfg.offBytes → field'.length = s.cfg.offBytes →
        ∀ i : Instr,
          (i = .zmat ∨ (i = .matB 0 ∧ s.cfg.maxMlen.toNat ≤ 255) ∨ (i = .matS 0 ∧ 255 < s.cfg.maxMlen.toNat)) →
          alike (exec i { s with dec := { s.dec with inp := field ++ rest } })
            (exec i { s with dec := { s.dec with inp := field' ++ rest } }) rest)

/-- R153, C3: cutting a stream short cuts the output short: the output on a prefix is a prefix of the output. -/
def Obligations.CutStreamGivesPrefix : Prop :=
  ∀ (s t u : State) (bytes : List Byte) (k : Nat), s.cfg.valid = true →
    exec .decRun (s.setDec (fedWith bytes s.dec)) = .next t →
    exec .decRun (s.setDec (fedWith (bytes.take k) s.dec)) = .next u →
    u.dec.out <+: t.dec.out

/-- R154, the round trip: for every valid `CFG` and every input up to the cap, the reference emitter makes a stream from the
table DP.RUN filled, and DEC.RUN on that stream outputs exactly the input and ends cleanly, whatever the ring held before (the emitter's bound of
`N` blocks is log 27). -/
def Obligations.RoundTrip : Prop :=
  ∀ s : State, s.cfg.valid = true → s.dp.n.toNat ≤ 131072 →
    ∃ t bytes v,
      exec .dpRun s = .next t ∧
      Emitter.emit s.cfg (dataByte s.data) s.dp.n.toNat (cellAt t.sp) = some bytes ∧
      exec .decRun (t.setDec (fedWith bytes t.dec)) = .next v ∧
      v.dec.out = s.dec.out ++ (List.range s.dp.n.toNat).map (dataByte s.data) ∧
      v.dec.phase = .done ∧ v.dec.status = { state := .done, errcode := .none } ∧ v.dec.pos = s.dp.n.toNat
end

