-- ==== Sys2Proof/Laws/Arith.lean ====
section
/-! SUPPORT. Costs, loops, and ring indexes. -/

namespace Sys2Proof

namespace Cost

@[simp] theorem fin_add_fin (a b : Nat) : (Cost.fin a).add (.fin b) = .fin (a + b) := rfl
@[simp] theorem add_inf (a : Cost) : a.add .inf = .inf := by cases a <;> rfl
@[simp] theorem inf_add (a : Cost) : Cost.inf.add a = .inf := rfl
@[simp] theorem fin_sub_fin (a b : Nat) : (Cost.fin a).sub (.fin b) = .fin (a - b) := rfl
@[simp] theorem fin_lt_fin (a b : Nat) : (Cost.fin a).lt (.fin b) = decide (a < b) := rfl
@[simp] theorem fin_lt_inf (a : Nat) : (Cost.fin a).lt .inf = true := rfl
@[simp] theorem inf_lt (a : Cost) : Cost.inf.lt a = false := rfl
@[simp] theorem fin_le_fin (a b : Nat) : (Cost.fin a).le (.fin b) = decide (a ≤ b) := rfl
@[simp] theorem le_inf (a : Cost) : a.le .inf = true := by cases a <;> rfl
@[simp] theorem inf_le_fin (a : Nat) : Cost.inf.le (.fin a) = false := rfl
@[simp] theorem le_refl (a : Cost) : a.le a = true := by cases a <;> simp

theorem le_trans {a b c : Cost} (h : a.le b = true) (h' : b.le c = true) : a.le c = true := by
  cases a <;> cases b <;> cases c <;> simp_all
  omega

theorem lt_eq_not_le (a b : Cost) : a.lt b = !b.le a := by
  cases a <;> cases b <;> simp [← decide_not]

end Cost

@[simp] theorem loopUp_zero {α : Type} (body : Nat → α → α) (a : α) : loopUp body 0 a = a := rfl
@[simp] theorem loopUp_succ {α : Type} (body : Nat → α → α) (n : Nat) (a : α) :
    loopUp body (n + 1) a = body (n + 1) (loopUp body n a) := rfl

/-- A property of every stage of a loop: it holds before the first round and each round keeps it. -/
theorem loopUp_induction {α : Type} {body : Nat → α → α} {a : α} (P : Nat → α → Prop) (h0 : P 0 a) {n : Nat}
    (hstep : ∀ i x, i < n → P i x → P (i + 1) (body (i + 1) x)) : P n (loopUp body n a) := by
  induction n with
  | zero => exact h0
  | succ n ih => exact hstep n _ (Nat.lt_succ_self n) (ih fun i x hi => hstep i x (Nat.lt_succ_of_lt hi))

/-- `prefixFrom` answers the largest count: everything below it agrees, and it stops at the cap or at a difference. -/
theorem prefixFrom_spec (same : Nat → Bool) (cap j : Nat) :
    j ≤ prefixFrom same cap j ∧ prefixFrom same cap j ≤ j + cap ∧
    (∀ i, j ≤ i → i < prefixFrom same cap j → same i = true) ∧
    (prefixFrom same cap j < j + cap → same (prefixFrom same cap j) = false) := by
  induction cap generalizing j with
  | zero => simp [prefixFrom]; omega
  | succ cap ih =>
    unfold prefixFrom
    split
    · rename_i hj
      obtain ⟨h1, h2, h3, h4⟩ := ih (j + 1)
      refine ⟨by omega, by omega, fun i hi hlt => ?_, fun h => h4 (by omega)⟩
      rcases Nat.eq_or_lt_of_le hi with rfl | hi
      · exact hj
      · exact h3 i hi hlt
    · rename_i hj
      exact ⟨Nat.le_refl _, by omega, fun i hi hlt => by omega, fun _ => by simpa using hj⟩

namespace Cfg

theorem mask_cases (c : Cfg) : c.mask = 0xFF ∨ c.mask = 0xFFFF := by
  unfold Cfg.mask
  split <;> simp

theorem mask_le (c : Cfg) : c.mask ≤ 0xFFFF := by
  rcases c.mask_cases with h | h <;> omega

/-- The ring index is a remainder: `mask + 1` is a power of two (R43, R86). -/
theorem ringIndex_eq_mod (c : Cfg) (i : Nat) : c.ringIndex i = i % (c.mask + 1) := by
  unfold Cfg.ringIndex
  rcases c.mask_cases with h | h <;> rw [h]
  · exact Nat.and_two_pow_sub_one_eq_mod i 8
  · exact Nat.and_two_pow_sub_one_eq_mod i 16

theorem ringIndex_le (c : Cfg) (i : Nat) : c.ringIndex i ≤ c.mask := by
  rw [ringIndex_eq_mod]
  have := Nat.mod_lt i (y := c.mask + 1) (Nat.succ_pos _)
  omega

theorem one_le_maxOff (c : Cfg) : 1 ≤ c.maxOff := by
  unfold Cfg.maxOff
  rw [Nat.one_shiftLeft]
  exact Nat.one_le_two_pow

/-- `moff_cost` is finite inside the window (R81). -/
theorem moffCost_finite (c : Cfg) {o : Nat} (h1 : 1 ≤ o) (h2 : o ≤ c.maxOff) : ∃ k, c.moffCost o = .fin (8 * k) := by
  unfold Cfg.moffCost
  rw [if_neg (by omega)]
  split
  · exact ⟨0, rfl⟩
  · split
    · exact ⟨1, rfl⟩
    · exact ⟨2, rfl⟩

/-- `mlen_cost` is finite up to `MAX_MLEN` (R82). -/
theorem mlenCost_finite (c : Cfg) {l : Nat} (h : l ≤ c.mlenLimit) : ∃ k, c.mlenCost l = .fin (8 * k) := by
  unfold Cfg.mlenCost
  rw [if_neg (by omega)]
  split
  · exact ⟨2, rfl⟩
  · exact ⟨1, rfl⟩

end Cfg

end Sys2Proof
end

