-- ==== Sys2Proof/Laws/Memory.lean ====
section
/-! SUPPORT. The laws of memories and the table: a read after a write, the canonical form, and that equal reads make equal
memories. -/

namespace Sys2Proof.Machine.SMap

variable {α : Type}

@[simp] theorem get?_nil (a : Nat) : SMap.get? ([] : SMap α) a = none := rfl

theorem get?_put (m : SMap α) (a b : Nat) (x : α) :
    SMap.get? (SMap.put m a x) b = if a = b then some x else SMap.get? m b := by
  induction m with
  | nil => simp [SMap.put, SMap.get?]
  | cons kv m ih =>
    obtain ⟨k, v⟩ := kv
    unfold SMap.put
    split
    · simp [SMap.get?]
    · split
      · subst_vars
        simp only [SMap.get?]
        split <;> simp_all
      · simp only [SMap.get?, ih]
        split <;> split <;> simp_all

@[simp] theorem get?_put_self (m : SMap α) (a : Nat) (x : α) : SMap.get? (SMap.put m a x) a = some x := by
  simp [get?_put]

theorem get?_put_other (m : SMap α) {a b : Nat} (x : α) (h : a ≠ b) : SMap.get? (SMap.put m a x) b = SMap.get? m b := by
  simp [get?_put, h]

/-- The indexes of a written memory are the old ones and the one written. -/
theorem mem_put {m : SMap α} {a : Nat} {x : α} {y : Nat × α} (h : y ∈ SMap.put m a x) : y = (a, x) ∨ y ∈ m := by
  induction m with
  | nil => simpa [SMap.put] using h
  | cons kv m ih =>
    unfold SMap.put at h
    split at h
    · simpa using h
    · split at h
      · rcases List.mem_cons.1 h with h | h
        · exact .inl h
        · exact .inr (List.mem_cons_of_mem _ h)
      · rcases List.mem_cons.1 h with h | h
        · exact .inr (h ▸ List.mem_cons_self)
        · exact (ih h).imp id (List.mem_cons_of_mem _)

/-- A write keeps the canonical form. -/
theorem put_wf {m : SMap α} (h : SMap.wf m) (a : Nat) (x : α) : SMap.wf (SMap.put m a x) := by
  induction m with
  | nil => simp [SMap.put]
  | cons kv m ih =>
    obtain ⟨k, v⟩ := kv
    obtain ⟨hk, hm⟩ := List.pairwise_cons.1 h
    unfold SMap.put
    split
    · rename_i hak
      refine List.pairwise_cons.2 ⟨fun y hy => ?_, h⟩
      rcases List.mem_cons.1 hy with rfl | hy
      · exact hak
      · exact Nat.lt_trans hak (hk y hy)
    · split
      · subst_vars
        exact List.pairwise_cons.2 ⟨fun y hy => hk y hy, hm⟩
      · refine List.pairwise_cons.2 ⟨fun y hy => ?_, ih hm⟩
        rcases mem_put hy with rfl | hy
        · show k < a
          omega
        · exact hk y hy

/-- An index below every listed one is not listed. -/
theorem get?_eq_none_of_lt {m : SMap α} {a : Nat} (h : ∀ x ∈ m, a < x.1) : SMap.get? m a = none := by
  induction m with
  | nil => rfl
  | cons kv m ih =>
    have hk := h kv List.mem_cons_self
    rw [SMap.get?, if_neg (by omega)]
    exact ih fun x hx => h x (List.mem_cons_of_mem _ hx)

/-- Memories in canonical form that read alike everywhere are equal data. -/
theorem ext {m m' : SMap α} (h : SMap.wf m) (h' : SMap.wf m') (hr : ∀ a, SMap.get? m a = SMap.get? m' a) : m = m' := by
  induction m generalizing m' with
  | nil =>
    cases m' with
    | nil => rfl
    | cons kv m' => simpa [SMap.get?] using hr kv.1
  | cons kv m ih =>
    cases m' with
    | nil => simpa [SMap.get?] using hr kv.1
    | cons kv' m' =>
      obtain ⟨k, v⟩ := kv
      obtain ⟨k', v'⟩ := kv'
      obtain ⟨hk, hm⟩ := List.pairwise_cons.1 h
      obtain ⟨hk', hm'⟩ := List.pairwise_cons.1 h'
      have hkk : k = k' := by
        rcases Nat.lt_trichotomy k k' with hlt | heq | hgt
        · have := hr k
          rw [get?_eq_none_of_lt (m := (k', v') :: m')] at this
          · simp [SMap.get?] at this
          · intro x hx
            rcases List.mem_cons.1 hx with rfl | hx
            · exact hlt
            · exact Nat.lt_trans hlt (hk' x hx)
        · exact heq
        · have := hr k'
          rw [get?_eq_none_of_lt (m := (k, v) :: m)] at this
          · simp [SMap.get?] at this
          · intro x hx
            rcases List.mem_cons.1 hx with rfl | hx
            · exact hgt
            · exact Nat.lt_trans hgt (hk x hx)
      subst hkk
      have hv : v = v' := by simpa [SMap.get?] using hr k
      subst hv
      refine congrArg _ (ih hm hm' fun a => ?_)
      by_cases ha : k = a
      · subst ha
        rw [get?_eq_none_of_lt hk, get?_eq_none_of_lt hk']
      · simpa [SMap.get?, ha] using hr a

end Sys2Proof.Machine.SMap

namespace Sys2Proof.Machine

theorem cellAt_put (t : Table) (a p : Nat) (x : SpCell) :
    cellAt (SMap.put t a x) p = if a = p then x else cellAt t p := by
  unfold cellAt
  rw [SMap.get?_put]
  split <;> rfl

/-- The memories and the table after reset are in their canonical form. -/
theorem reset_wf :
    Memory.wf State.reset.data ∧ Memory.wf State.reset.dec.ring ∧ SMap.wf State.reset.sp := by decide

end Sys2Proof.Machine
end

