-- ==== Sys2Proof/Laws/State.lean ====
section
/-! SUPPORT. One lemma for each field of State under each named update, and for each field of the decoder under each of its
shared operations. -/

namespace Sys2Proof.Machine

namespace State

@[simp] theorem setCmdReq_cfg (x : Bool) (s : State) : (s.setCmdReq x).cfg = s.cfg := rfl
@[simp] theorem setCmdReq_cmd (x : Bool) (s : State) : (s.setCmdReq x).cmd = s.cmd := rfl
@[simp] theorem setCmdReq_cmdReq (x : Bool) (s : State) : (s.setCmdReq x).cmdReq = x := rfl
@[simp] theorem setCmdReq_cm (x : Bool) (s : State) : (s.setCmdReq x).cm = s.cm := rfl
@[simp] theorem setCmdReq_mf (x : Bool) (s : State) : (s.setCmdReq x).mf = s.mf := rfl
@[simp] theorem setCmdReq_dp (x : Bool) (s : State) : (s.setCmdReq x).dp = s.dp := rfl
@[simp] theorem setCmdReq_sp (x : Bool) (s : State) : (s.setCmdReq x).sp = s.sp := rfl
@[simp] theorem setCmdReq_data (x : Bool) (s : State) : (s.setCmdReq x).data = s.data := rfl
@[simp] theorem setCmdReq_dec (x : Bool) (s : State) : (s.setCmdReq x).dec = s.dec := rfl
@[simp] theorem setCmdReq_freeCount (x : Bool) (s : State) : (s.setCmdReq x).freeCount = s.freeCount := rfl
@[simp] theorem setCmdReq_held (x : Bool) (s : State) : (s.setCmdReq x).held = s.held := rfl
@[simp] theorem setCmdReq_setCmdReq (x y : Bool) (s : State) : (s.setCmdReq x).setCmdReq y = s.setCmdReq y := rfl
@[simp] theorem setCmdReq_self (s : State) : s.setCmdReq s.cmdReq = s := rfl

@[simp] theorem setCm_cfg (x : CmPorts) (s : State) : (s.setCm x).cfg = s.cfg := rfl
@[simp] theorem setCm_cmd (x : CmPorts) (s : State) : (s.setCm x).cmd = s.cmd := rfl
@[simp] theorem setCm_cmdReq (x : CmPorts) (s : State) : (s.setCm x).cmdReq = s.cmdReq := rfl
@[simp] theorem setCm_cm (x : CmPorts) (s : State) : (s.setCm x).cm = x := rfl
@[simp] theorem setCm_mf (x : CmPorts) (s : State) : (s.setCm x).mf = s.mf := rfl
@[simp] theorem setCm_dp (x : CmPorts) (s : State) : (s.setCm x).dp = s.dp := rfl
@[simp] theorem setCm_sp (x : CmPorts) (s : State) : (s.setCm x).sp = s.sp := rfl
@[simp] theorem setCm_data (x : CmPorts) (s : State) : (s.setCm x).data = s.data := rfl
@[simp] theorem setCm_dec (x : CmPorts) (s : State) : (s.setCm x).dec = s.dec := rfl
@[simp] theorem setCm_freeCount (x : CmPorts) (s : State) : (s.setCm x).freeCount = s.freeCount := rfl
@[simp] theorem setCm_held (x : CmPorts) (s : State) : (s.setCm x).held = s.held := rfl
@[simp] theorem setCm_setCm (x y : CmPorts) (s : State) : (s.setCm x).setCm y = s.setCm y := rfl
@[simp] theorem setCm_self (s : State) : s.setCm s.cm = s := rfl

@[simp] theorem setMf_cfg (x : MfRegs) (s : State) : (s.setMf x).cfg = s.cfg := rfl
@[simp] theorem setMf_cmd (x : MfRegs) (s : State) : (s.setMf x).cmd = s.cmd := rfl
@[simp] theorem setMf_cmdReq (x : MfRegs) (s : State) : (s.setMf x).cmdReq = s.cmdReq := rfl
@[simp] theorem setMf_cm (x : MfRegs) (s : State) : (s.setMf x).cm = s.cm := rfl
@[simp] theorem setMf_mf (x : MfRegs) (s : State) : (s.setMf x).mf = x := rfl
@[simp] theorem setMf_dp (x : MfRegs) (s : State) : (s.setMf x).dp = s.dp := rfl
@[simp] theorem setMf_sp (x : MfRegs) (s : State) : (s.setMf x).sp = s.sp := rfl
@[simp] theorem setMf_data (x : MfRegs) (s : State) : (s.setMf x).data = s.data := rfl
@[simp] theorem setMf_dec (x : MfRegs) (s : State) : (s.setMf x).dec = s.dec := rfl
@[simp] theorem setMf_freeCount (x : MfRegs) (s : State) : (s.setMf x).freeCount = s.freeCount := rfl
@[simp] theorem setMf_held (x : MfRegs) (s : State) : (s.setMf x).held = s.held := rfl
@[simp] theorem setMf_setMf (x y : MfRegs) (s : State) : (s.setMf x).setMf y = s.setMf y := rfl
@[simp] theorem setMf_self (s : State) : s.setMf s.mf = s := rfl

@[simp] theorem setDp_cfg (x : DpRegs) (s : State) : (s.setDp x).cfg = s.cfg := rfl
@[simp] theorem setDp_cmd (x : DpRegs) (s : State) : (s.setDp x).cmd = s.cmd := rfl
@[simp] theorem setDp_cmdReq (x : DpRegs) (s : State) : (s.setDp x).cmdReq = s.cmdReq := rfl
@[simp] theorem setDp_cm (x : DpRegs) (s : State) : (s.setDp x).cm = s.cm := rfl
@[simp] theorem setDp_mf (x : DpRegs) (s : State) : (s.setDp x).mf = s.mf := rfl
@[simp] theorem setDp_dp (x : DpRegs) (s : State) : (s.setDp x).dp = x := rfl
@[simp] theorem setDp_sp (x : DpRegs) (s : State) : (s.setDp x).sp = s.sp := rfl
@[simp] theorem setDp_data (x : DpRegs) (s : State) : (s.setDp x).data = s.data := rfl
@[simp] theorem setDp_dec (x : DpRegs) (s : State) : (s.setDp x).dec = s.dec := rfl
@[simp] theorem setDp_freeCount (x : DpRegs) (s : State) : (s.setDp x).freeCount = s.freeCount := rfl
@[simp] theorem setDp_held (x : DpRegs) (s : State) : (s.setDp x).held = s.held := rfl
@[simp] theorem setDp_setDp (x y : DpRegs) (s : State) : (s.setDp x).setDp y = s.setDp y := rfl
@[simp] theorem setDp_self (s : State) : s.setDp s.dp = s := rfl

@[simp] theorem setSp_cfg (x : Table) (s : State) : (s.setSp x).cfg = s.cfg := rfl
@[simp] theorem setSp_cmd (x : Table) (s : State) : (s.setSp x).cmd = s.cmd := rfl
@[simp] theorem setSp_cmdReq (x : Table) (s : State) : (s.setSp x).cmdReq = s.cmdReq := rfl
@[simp] theorem setSp_cm (x : Table) (s : State) : (s.setSp x).cm = s.cm := rfl
@[simp] theorem setSp_mf (x : Table) (s : State) : (s.setSp x).mf = s.mf := rfl
@[simp] theorem setSp_dp (x : Table) (s : State) : (s.setSp x).dp = s.dp := rfl
@[simp] theorem setSp_sp (x : Table) (s : State) : (s.setSp x).sp = x := rfl
@[simp] theorem setSp_data (x : Table) (s : State) : (s.setSp x).data = s.data := rfl
@[simp] theorem setSp_dec (x : Table) (s : State) : (s.setSp x).dec = s.dec := rfl
@[simp] theorem setSp_freeCount (x : Table) (s : State) : (s.setSp x).freeCount = s.freeCount := rfl
@[simp] theorem setSp_held (x : Table) (s : State) : (s.setSp x).held = s.held := rfl
@[simp] theorem setSp_setSp (x y : Table) (s : State) : (s.setSp x).setSp y = s.setSp y := rfl
@[simp] theorem setSp_self (s : State) : s.setSp s.sp = s := rfl

@[simp] theorem setDec_cfg (x : Dec) (s : State) : (s.setDec x).cfg = s.cfg := rfl
@[simp] theorem setDec_cmd (x : Dec) (s : State) : (s.setDec x).cmd = s.cmd := rfl
@[simp] theorem setDec_cmdReq (x : Dec) (s : State) : (s.setDec x).cmdReq = s.cmdReq := rfl
@[simp] theorem setDec_cm (x : Dec) (s : State) : (s.setDec x).cm = s.cm := rfl
@[simp] theorem setDec_mf (x : Dec) (s : State) : (s.setDec x).mf = s.mf := rfl
@[simp] theorem setDec_dp (x : Dec) (s : State) : (s.setDec x).dp = s.dp := rfl
@[simp] theorem setDec_sp (x : Dec) (s : State) : (s.setDec x).sp = s.sp := rfl
@[simp] theorem setDec_data (x : Dec) (s : State) : (s.setDec x).data = s.data := rfl
@[simp] theorem setDec_dec (x : Dec) (s : State) : (s.setDec x).dec = x := rfl
@[simp] theorem setDec_freeCount (x : Dec) (s : State) : (s.setDec x).freeCount = s.freeCount := rfl
@[simp] theorem setDec_held (x : Dec) (s : State) : (s.setDec x).held = s.held := rfl
@[simp] theorem setDec_setDec (x y : Dec) (s : State) : (s.setDec x).setDec y = s.setDec y := rfl
@[simp] theorem setDec_self (s : State) : s.setDec s.dec = s := rfl

@[simp] theorem setFree_cfg (x : Nat) (s : State) : (s.setFree x).cfg = s.cfg := rfl
@[simp] theorem setFree_cmd (x : Nat) (s : State) : (s.setFree x).cmd = s.cmd := rfl
@[simp] theorem setFree_cmdReq (x : Nat) (s : State) : (s.setFree x).cmdReq = s.cmdReq := rfl
@[simp] theorem setFree_cm (x : Nat) (s : State) : (s.setFree x).cm = s.cm := rfl
@[simp] theorem setFree_mf (x : Nat) (s : State) : (s.setFree x).mf = s.mf := rfl
@[simp] theorem setFree_dp (x : Nat) (s : State) : (s.setFree x).dp = s.dp := rfl
@[simp] theorem setFree_sp (x : Nat) (s : State) : (s.setFree x).sp = s.sp := rfl
@[simp] theorem setFree_data (x : Nat) (s : State) : (s.setFree x).data = s.data := rfl
@[simp] theorem setFree_dec (x : Nat) (s : State) : (s.setFree x).dec = s.dec := rfl
@[simp] theorem setFree_freeCount (x : Nat) (s : State) : (s.setFree x).freeCount = x := rfl
@[simp] theorem setFree_held (x : Nat) (s : State) : (s.setFree x).held = s.held := rfl
@[simp] theorem setFree_setFree (x y : Nat) (s : State) : (s.setFree x).setFree y = s.setFree y := rfl
@[simp] theorem setFree_self (s : State) : s.setFree s.freeCount = s := rfl

@[simp] theorem holdData_cfg (n : Nat) (s : State) : (s.holdData n).cfg = s.cfg := rfl
@[simp] theorem holdData_cmd (n : Nat) (s : State) : (s.holdData n).cmd = s.cmd := rfl
@[simp] theorem holdData_cmdReq (n : Nat) (s : State) : (s.holdData n).cmdReq = s.cmdReq := rfl
@[simp] theorem holdData_cm (n : Nat) (s : State) : (s.holdData n).cm = s.cm := rfl
@[simp] theorem holdData_mf (n : Nat) (s : State) : (s.holdData n).mf = s.mf := rfl
@[simp] theorem holdData_dp (n : Nat) (s : State) : (s.holdData n).dp = s.dp := rfl
@[simp] theorem holdData_sp (n : Nat) (s : State) : (s.holdData n).sp = s.sp := rfl
@[simp] theorem holdData_data (n : Nat) (s : State) : (s.holdData n).data = s.data := rfl
@[simp] theorem holdData_dec (n : Nat) (s : State) : (s.holdData n).dec = s.dec := rfl
@[simp] theorem holdData_freeCount (n : Nat) (s : State) : (s.holdData n).freeCount = s.freeCount := rfl
@[simp] theorem holdData_held (n : Nat) (s : State) : (s.holdData n).held = max s.held n := rfl
theorem holdData_holdData (n m : Nat) (s : State) : (s.holdData n).holdData m = s.holdData (max n m) := by
  simp [State.holdData, Nat.max_assoc]

end State

namespace Dec

@[simp] theorem emit_phase (c : Cfg) (x : Byte) (d : Dec) : (d.emit c x).phase = d.phase := rfl
@[simp] theorem emit_pos (c : Cfg) (x : Byte) (d : Dec) : (d.emit c x).pos = d.pos + 1 := rfl
@[simp] theorem emit_src (c : Cfg) (x : Byte) (d : Dec) : (d.emit c x).src = d.src := rfl
@[simp] theorem emit_off (c : Cfg) (x : Byte) (d : Dec) : (d.emit c x).off = d.off := rfl
@[simp] theorem emit_cnt (c : Cfg) (x : Byte) (d : Dec) : (d.emit c x).cnt = d.cnt := rfl
@[simp] theorem emit_lenlo (c : Cfg) (x : Byte) (d : Dec) : (d.emit c x).lenlo = d.lenlo := rfl
@[simp] theorem emit_ip (c : Cfg) (x : Byte) (d : Dec) : (d.emit c x).ip = d.ip := rfl
@[simp] theorem emit_status (c : Cfg) (x : Byte) (d : Dec) : (d.emit c x).status = d.status := rfl
@[simp] theorem emit_errpos (c : Cfg) (x : Byte) (d : Dec) : (d.emit c x).errpos = d.errpos := rfl
@[simp] theorem emit_errip (c : Cfg) (x : Byte) (d : Dec) : (d.emit c x).errip = d.errip := rfl
@[simp] theorem emit_errexp (c : Cfg) (x : Byte) (d : Dec) : (d.emit c x).errexp = d.errexp := rfl
@[simp] theorem emit_ring (c : Cfg) (x : Byte) (d : Dec) : (d.emit c x).ring = SMap.put d.ring (c.ringIndex d.pos) x := rfl
@[simp] theorem emit_inp (c : Cfg) (x : Byte) (d : Dec) : (d.emit c x).inp = d.inp := rfl
@[simp] theorem emit_inEnd (c : Cfg) (x : Byte) (d : Dec) : (d.emit c x).inEnd = d.inEnd := rfl
@[simp] theorem emit_out (c : Cfg) (x : Byte) (d : Dec) : (d.emit c x).out = d.out ++ [x] := rfl

@[simp] theorem literalByte_phase (c : Cfg) (x : Byte) (d : Dec) : (d.literalByte c x).phase = d.phase := rfl
@[simp] theorem literalByte_pos (c : Cfg) (x : Byte) (d : Dec) : (d.literalByte c x).pos = d.pos + 1 := rfl
@[simp] theorem literalByte_src (c : Cfg) (x : Byte) (d : Dec) : (d.literalByte c x).src = d.src := rfl
@[simp] theorem literalByte_off (c : Cfg) (x : Byte) (d : Dec) : (d.literalByte c x).off = d.off := rfl
@[simp] theorem literalByte_cnt (c : Cfg) (x : Byte) (d : Dec) : (d.literalByte c x).cnt = d.cnt - 1 := rfl
@[simp] theorem literalByte_lenlo (c : Cfg) (x : Byte) (d : Dec) : (d.literalByte c x).lenlo = d.lenlo := rfl
@[simp] theorem literalByte_ip (c : Cfg) (x : Byte) (d : Dec) : (d.literalByte c x).ip = d.ip := rfl
@[simp] theorem literalByte_status (c : Cfg) (x : Byte) (d : Dec) : (d.literalByte c x).status = d.status := rfl
@[simp] theorem literalByte_errpos (c : Cfg) (x : Byte) (d : Dec) : (d.literalByte c x).errpos = d.errpos := rfl
@[simp] theorem literalByte_errip (c : Cfg) (x : Byte) (d : Dec) : (d.literalByte c x).errip = d.errip := rfl
@[simp] theorem literalByte_errexp (c : Cfg) (x : Byte) (d : Dec) : (d.literalByte c x).errexp = d.errexp := rfl
@[simp] theorem literalByte_ring (c : Cfg) (x : Byte) (d : Dec) : (d.literalByte c x).ring = SMap.put d.ring (c.ringIndex d.pos) x := rfl
@[simp] theorem literalByte_inp (c : Cfg) (x : Byte) (d : Dec) : (d.literalByte c x).inp = d.inp := rfl
@[simp] theorem literalByte_inEnd (c : Cfg) (x : Byte) (d : Dec) : (d.literalByte c x).inEnd = d.inEnd := rfl
@[simp] theorem literalByte_out (c : Cfg) (x : Byte) (d : Dec) : (d.literalByte c x).out = d.out ++ [x] := rfl

@[simp] theorem copyByte_phase (c : Cfg) (d : Dec) : (d.copyByte c).phase = d.phase := rfl
@[simp] theorem copyByte_pos (c : Cfg) (d : Dec) : (d.copyByte c).pos = d.pos + 1 := rfl
@[simp] theorem copyByte_src (c : Cfg) (d : Dec) : (d.copyByte c).src = d.src + 1 := rfl
@[simp] theorem copyByte_off (c : Cfg) (d : Dec) : (d.copyByte c).off = d.off := rfl
@[simp] theorem copyByte_cnt (c : Cfg) (d : Dec) : (d.copyByte c).cnt = d.cnt - 1 := rfl
@[simp] theorem copyByte_lenlo (c : Cfg) (d : Dec) : (d.copyByte c).lenlo = d.lenlo := rfl
@[simp] theorem copyByte_ip (c : Cfg) (d : Dec) : (d.copyByte c).ip = d.ip := rfl
@[simp] theorem copyByte_status (c : Cfg) (d : Dec) : (d.copyByte c).status = d.status := rfl
@[simp] theorem copyByte_errpos (c : Cfg) (d : Dec) : (d.copyByte c).errpos = d.errpos := rfl
@[simp] theorem copyByte_errip (c : Cfg) (d : Dec) : (d.copyByte c).errip = d.errip := rfl
@[simp] theorem copyByte_errexp (c : Cfg) (d : Dec) : (d.copyByte c).errexp = d.errexp := rfl
@[simp] theorem copyByte_ring (c : Cfg) (d : Dec) : (d.copyByte c).ring = SMap.put d.ring (c.ringIndex d.pos) (ringByte c d.ring d.src.toNat) := rfl
@[simp] theorem copyByte_inp (c : Cfg) (d : Dec) : (d.copyByte c).inp = d.inp := rfl
@[simp] theorem copyByte_inEnd (c : Cfg) (d : Dec) : (d.copyByte c).inEnd = d.inEnd := rfl
@[simp] theorem copyByte_out (c : Cfg) (d : Dec) : (d.copyByte c).out = d.out ++ [ringByte c d.ring d.src.toNat] := rfl

@[simp] theorem raiseCfg_phase (d : Dec) : (d.raiseCfg).phase = .err := rfl
@[simp] theorem raiseCfg_pos (d : Dec) : (d.raiseCfg).pos = d.pos := rfl
@[simp] theorem raiseCfg_src (d : Dec) : (d.raiseCfg).src = d.src := rfl
@[simp] theorem raiseCfg_off (d : Dec) : (d.raiseCfg).off = d.off := rfl
@[simp] theorem raiseCfg_cnt (d : Dec) : (d.raiseCfg).cnt = d.cnt := rfl
@[simp] theorem raiseCfg_lenlo (d : Dec) : (d.raiseCfg).lenlo = d.lenlo := rfl
@[simp] theorem raiseCfg_ip (d : Dec) : (d.raiseCfg).ip = d.ip := rfl
@[simp] theorem raiseCfg_status (d : Dec) : (d.raiseCfg).status = Status.raised .cfgError := rfl
@[simp] theorem raiseCfg_errpos (d : Dec) : (d.raiseCfg).errpos = d.errpos := rfl
@[simp] theorem raiseCfg_errip (d : Dec) : (d.raiseCfg).errip = d.errip := rfl
@[simp] theorem raiseCfg_errexp (d : Dec) : (d.raiseCfg).errexp = d.errexp := rfl
@[simp] theorem raiseCfg_ring (d : Dec) : (d.raiseCfg).ring = d.ring := rfl
@[simp] theorem raiseCfg_inp (d : Dec) : (d.raiseCfg).inp = d.inp := rfl
@[simp] theorem raiseCfg_inEnd (d : Dec) : (d.raiseCfg).inEnd = d.inEnd := rfl
@[simp] theorem raiseCfg_out (d : Dec) : (d.raiseCfg).out = d.out := rfl

@[simp] theorem raiseTruncated_phase (e : Expected) (d : Dec) : (d.raiseTruncated e).phase = .err := rfl
@[simp] theorem raiseTruncated_pos (e : Expected) (d : Dec) : (d.raiseTruncated e).pos = d.pos := rfl
@[simp] theorem raiseTruncated_src (e : Expected) (d : Dec) : (d.raiseTruncated e).src = d.src := rfl
@[simp] theorem raiseTruncated_off (e : Expected) (d : Dec) : (d.raiseTruncated e).off = d.off := rfl
@[simp] theorem raiseTruncated_cnt (e : Expected) (d : Dec) : (d.raiseTruncated e).cnt = d.cnt := rfl
@[simp] theorem raiseTruncated_lenlo (e : Expected) (d : Dec) : (d.raiseTruncated e).lenlo = d.lenlo := rfl
@[simp] theorem raiseTruncated_ip (e : Expected) (d : Dec) : (d.raiseTruncated e).ip = d.ip := rfl
@[simp] theorem raiseTruncated_status (e : Expected) (d : Dec) : (d.raiseTruncated e).status = Status.raised .truncated := rfl
@[simp] theorem raiseTruncated_errpos (e : Expected) (d : Dec) : (d.raiseTruncated e).errpos = d.pos := rfl
@[simp] theorem raiseTruncated_errip (e : Expected) (d : Dec) : (d.raiseTruncated e).errip = d.ip := rfl
@[simp] theorem raiseTruncated_errexp (e : Expected) (d : Dec) : (d.raiseTruncated e).errexp = e := rfl
@[simp] theorem raiseTruncated_ring (e : Expected) (d : Dec) : (d.raiseTruncated e).ring = d.ring := rfl
@[simp] theorem raiseTruncated_inp (e : Expected) (d : Dec) : (d.raiseTruncated e).inp = d.inp := rfl
@[simp] theorem raiseTruncated_inEnd (e : Expected) (d : Dec) : (d.raiseTruncated e).inEnd = d.inEnd := rfl
@[simp] theorem raiseTruncated_out (e : Expected) (d : Dec) : (d.raiseTruncated e).out = d.out := rfl

@[simp] theorem start_phase (d : Dec) : (d.start).phase = .llen := rfl
@[simp] theorem start_pos (d : Dec) : (d.start).pos = 0 := rfl
@[simp] theorem start_src (d : Dec) : (d.start).src = 0 := rfl
@[simp] theorem start_off (d : Dec) : (d.start).off = 0 := rfl
@[simp] theorem start_cnt (d : Dec) : (d.start).cnt = 0 := rfl
@[simp] theorem start_lenlo (d : Dec) : (d.start).lenlo = 0 := rfl
@[simp] theorem start_ip (d : Dec) : (d.start).ip = 0 := rfl
@[simp] theorem start_status (d : Dec) : (d.start).status = Status.started := rfl
@[simp] theorem start_errpos (d : Dec) : (d.start).errpos = d.errpos := rfl
@[simp] theorem start_errip (d : Dec) : (d.start).errip = d.errip := rfl
@[simp] theorem start_errexp (d : Dec) : (d.start).errexp = d.errexp := rfl
@[simp] theorem start_ring (d : Dec) : (d.start).ring = d.ring := rfl
@[simp] theorem start_inp (d : Dec) : (d.start).inp = d.inp := rfl
@[simp] theorem start_inEnd (d : Dec) : (d.start).inEnd = d.inEnd := rfl
@[simp] theorem start_out (d : Dec) : (d.start).out = d.out := rfl

@[simp] theorem finish_phase (d : Dec) : (d.finish).phase = .done := rfl
@[simp] theorem finish_pos (d : Dec) : (d.finish).pos = d.pos := rfl
@[simp] theorem finish_src (d : Dec) : (d.finish).src = d.src := rfl
@[simp] theorem finish_off (d : Dec) : (d.finish).off = d.off := rfl
@[simp] theorem finish_cnt (d : Dec) : (d.finish).cnt = d.cnt := rfl
@[simp] theorem finish_lenlo (d : Dec) : (d.finish).lenlo = d.lenlo := rfl
@[simp] theorem finish_ip (d : Dec) : (d.finish).ip = d.ip := rfl
@[simp] theorem finish_status (d : Dec) : (d.finish).status = d.status.finished := rfl
@[simp] theorem finish_errpos (d : Dec) : (d.finish).errpos = d.errpos := rfl
@[simp] theorem finish_errip (d : Dec) : (d.finish).errip = d.errip := rfl
@[simp] theorem finish_errexp (d : Dec) : (d.finish).errexp = d.errexp := rfl
@[simp] theorem finish_ring (d : Dec) : (d.finish).ring = d.ring := rfl
@[simp] theorem finish_inp (d : Dec) : (d.finish).inp = d.inp := rfl
@[simp] theorem finish_inEnd (d : Dec) : (d.finish).inEnd = d.inEnd := rfl
@[simp] theorem finish_out (d : Dec) : (d.finish).out = d.out := rfl

@[simp] theorem computeSrc_phase (c : Cfg) (d : Dec) : (d.computeSrc c).phase = d.phase := rfl
@[simp] theorem computeSrc_pos (c : Cfg) (d : Dec) : (d.computeSrc c).pos = d.pos := rfl
@[simp] theorem computeSrc_src (c : Cfg) (d : Dec) : (d.computeSrc c).src = c.sourceIndex d.pos (if c.exorOffset then c.complement d.off else d.off) := rfl
@[simp] theorem computeSrc_off (c : Cfg) (d : Dec) : (d.computeSrc c).off = if c.exorOffset then c.complement d.off else d.off := rfl
@[simp] theorem computeSrc_cnt (c : Cfg) (d : Dec) : (d.computeSrc c).cnt = d.cnt := rfl
@[simp] theorem computeSrc_lenlo (c : Cfg) (d : Dec) : (d.computeSrc c).lenlo = d.lenlo := rfl
@[simp] theorem computeSrc_ip (c : Cfg) (d : Dec) : (d.computeSrc c).ip = d.ip := rfl
@[simp] theorem computeSrc_status (c : Cfg) (d : Dec) : (d.computeSrc c).status = d.status := rfl
@[simp] theorem computeSrc_errpos (c : Cfg) (d : Dec) : (d.computeSrc c).errpos = d.errpos := rfl
@[simp] theorem computeSrc_errip (c : Cfg) (d : Dec) : (d.computeSrc c).errip = d.errip := rfl
@[simp] theorem computeSrc_errexp (c : Cfg) (d : Dec) : (d.computeSrc c).errexp = d.errexp := rfl
@[simp] theorem computeSrc_ring (c : Cfg) (d : Dec) : (d.computeSrc c).ring = d.ring := rfl
@[simp] theorem computeSrc_inp (c : Cfg) (d : Dec) : (d.computeSrc c).inp = d.inp := rfl
@[simp] theorem computeSrc_inEnd (c : Cfg) (d : Dec) : (d.computeSrc c).inEnd = d.inEnd := rfl
@[simp] theorem computeSrc_out (c : Cfg) (d : Dec) : (d.computeSrc c).out = d.out := rfl

@[simp] theorem rleSrc_phase (c : Cfg) (d : Dec) : (d.rleSrc c).phase = d.phase := rfl
@[simp] theorem rleSrc_pos (c : Cfg) (d : Dec) : (d.rleSrc c).pos = d.pos := rfl
@[simp] theorem rleSrc_src (c : Cfg) (d : Dec) : (d.rleSrc c).src = c.sourceIndex d.pos 0 := rfl
@[simp] theorem rleSrc_off (c : Cfg) (d : Dec) : (d.rleSrc c).off = 0 := rfl
@[simp] theorem rleSrc_cnt (c : Cfg) (d : Dec) : (d.rleSrc c).cnt = d.cnt := rfl
@[simp] theorem rleSrc_lenlo (c : Cfg) (d : Dec) : (d.rleSrc c).lenlo = d.lenlo := rfl
@[simp] theorem rleSrc_ip (c : Cfg) (d : Dec) : (d.rleSrc c).ip = d.ip := rfl
@[simp] theorem rleSrc_status (c : Cfg) (d : Dec) : (d.rleSrc c).status = d.status := rfl
@[simp] theorem rleSrc_errpos (c : Cfg) (d : Dec) : (d.rleSrc c).errpos = d.errpos := rfl
@[simp] theorem rleSrc_errip (c : Cfg) (d : Dec) : (d.rleSrc c).errip = d.errip := rfl
@[simp] theorem rleSrc_errexp (c : Cfg) (d : Dec) : (d.rleSrc c).errexp = d.errexp := rfl
@[simp] theorem rleSrc_ring (c : Cfg) (d : Dec) : (d.rleSrc c).ring = d.ring := rfl
@[simp] theorem rleSrc_inp (c : Cfg) (d : Dec) : (d.rleSrc c).inp = d.inp := rfl
@[simp] theorem rleSrc_inEnd (c : Cfg) (d : Dec) : (d.rleSrc c).inEnd = d.inEnd := rfl
@[simp] theorem rleSrc_out (c : Cfg) (d : Dec) : (d.rleSrc c).out = d.out := rfl

end Dec

end Sys2Proof.Machine
end

