-- ==== Sys2Proof/Laws/Decoder.lean ====
section
/-! SUPPORT. One lemma for each shared operation of the decoder: what `InByte()` answers, what a token's meaning does, and
the loops one round at a time. -/

namespace Sys2Proof.Machine

namespace Dec

@[simp] theorem inByte_cons {d : Dec} {b : Byte} {rest : List Byte} (h : d.inp = b :: rest) :
    d.inByte = .byte b { d with inp := rest, ip := d.ip + 1 } := by
  simp [Dec.inByte, h]

@[simp] theorem inByte_eof {d : Dec} (h : d.inp = []) (he : d.inEnd = true) : d.inByte = .eof := by
  simp [Dec.inByte, h, he]

@[simp] theorem inByte_wait {d : Dec} (h : d.inp = []) (he : d.inEnd = false) : d.inByte = .wait := by
  simp [Dec.inByte, h, he]

/-- Everything `InByte()` can do. -/
theorem inByte_cases (d : Dec) :
    (∃ b rest, d.inp = b :: rest ∧ d.inByte = .byte b { d with inp := rest, ip := d.ip + 1 }) ∨
    (d.inp = [] ∧ d.inEnd = true ∧ d.inByte = .eof) ∨ (d.inp = [] ∧ d.inEnd = false ∧ d.inByte = .wait) := by
  cases h : d.inp with
  | cons b rest => exact .inl ⟨b, rest, rfl, inByte_cons h⟩
  | nil =>
    cases he : d.inEnd with
    | true => exact .inr (.inl ⟨rfl, rfl, inByte_eof h he⟩)
    | false => exact .inr (.inr ⟨rfl, rfl, inByte_wait h he⟩)

@[simp] theorem literalLoop_zero (c : Cfg) (d : Dec) : d.literalLoop c 0 = { d with phase := .mlen } := rfl

theorem literalLoop_cons (c : Cfg) (n : Nat) {d : Dec} {b : Byte} {rest : List Byte} (h : d.inp = b :: rest) :
    d.literalLoop c (n + 1) = Dec.literalLoop c n (Dec.literalByte c b { d with inp := rest, ip := d.ip + 1 }) := by
  simp [Dec.literalLoop, inByte_cons h]

@[simp] theorem copyLoop_zero (c : Cfg) (d : Dec) : d.copyLoop c 0 = { d with phase := .llen } := rfl

@[simp] theorem copyLoop_succ (c : Cfg) (n : Nat) (d : Dec) : d.copyLoop c (n + 1) = (d.copyByte c).copyLoop c n := rfl

/-- A copy consumes no input and keeps the offset (R147). -/
theorem copyLoop_frame (c : Cfg) (n : Nat) (d : Dec) :
    (d.copyLoop c n).inp = d.inp ∧ (d.copyLoop c n).ip = d.ip ∧ (d.copyLoop c n).off = d.off ∧
    (d.copyLoop c n).status = d.status ∧ (d.copyLoop c n).inEnd = d.inEnd ∧ (d.copyLoop c n).lenlo = d.lenlo ∧
    (d.copyLoop c n).phase = .llen ∧ (d.copyLoop c n).pos = d.pos + n ∧ (d.copyLoop c n).cnt = d.cnt - n := by
  induction n generalizing d with
  | zero => simp
  | succ n ih =>
    obtain ⟨h1, h2, h3, h4, h5, h6, h7, h8, h9⟩ := ih (d.copyByte c)
    simp only [copyLoop_succ, h1, h2, h3, h4, h5, h6, h7, h8, h9, copyByte_inp, copyByte_ip, copyByte_off,
      copyByte_status, copyByte_inEnd, copyByte_lenlo, copyByte_pos, copyByte_cnt, true_and]
    omega

/-- The loops keep the ring in its canonical form. -/
theorem copyLoop_ring_wf (c : Cfg) (n : Nat) (d : Dec) (h : Memory.wf d.ring) : Memory.wf (d.copyLoop c n).ring := by
  induction n generalizing d with
  | zero => exact h
  | succ n ih => exact ih _ (SMap.put_wf h _ _)

theorem literalLoop_ring_wf (c : Cfg) (n : Nat) (d : Dec) (h : Memory.wf d.ring) :
    Memory.wf (d.literalLoop c n).ring := by
  induction n generalizing d with
  | zero => exact h
  | succ n ih =>
    unfold Dec.literalLoop
    rcases inByte_cases d with ⟨b, rest, _, h1⟩ | ⟨_, _, h1⟩ | ⟨_, _, h1⟩
    · rw [h1]
      exact ih _ (SMap.put_wf h _ _)
    · rw [h1]
      exact h
    · rw [h1]
      exact h

end Dec

/-- Everything a token's meaning can do: its effect on the decoder where it may stand, else the one refusal. -/
theorem runToken_cases (i : Instr) (effect : Dec → Dec) (s : State) :
    (placed i s = true ∧ runToken i effect s = .next (s.setDec (effect s.dec))) ∨
    (placed i s = false ∧ runToken i effect s = .refused .tokenOutOfPlace) := by
  unfold runToken
  cases placed i s <;> simp

theorem runToken_next {i : Instr} {effect : Dec → Dec} {s t : State} (h : runToken i effect s = .next t) :
    placed i s = true ∧ t = s.setDec (effect s.dec) := by
  rcases runToken_cases i effect s with ⟨hp, he⟩ | ⟨_, he⟩ <;> rw [he] at h
  · exact ⟨hp, (Host.Outcome.next.inj h).symm⟩
  · cases h

/-- Where a token may stand, in the decoder's own terms. -/
theorem placed_iff (i : Instr) (s : State) :
    placed i s = true ↔
      ∃ k, s.dec.phase.slot = some k ∧
        WellFormed { cfg := s.cfg, slot := k, ended := s.dec.inp.isEmpty && s.dec.inEnd } i = true := by
  unfold placed tokenCtx
  cases s.dec.phase.slot <;> simp

end Sys2Proof.Machine
end

