-- ==== Sys2Proof/Laws/PerInstr.lean ====
section
/-! SUPPORT. Statements about every instruction, one lemma for each constructor. -/

namespace Sys2Proof.Laws.EncodedSize

/-- The number of bytes spec/opcode_table.json gives the row (R64, R65, R66, R73, R75). -/
def tableSize : Instr → Nat
  | .litB _ => 1
  | .litS _ => 1
  | .litW _ _ => 2
  | .matB _ => 1
  | .matS _ => 1
  | .matW _ _ => 2
  | .off0 => 0
  | .off1 _ => 1
  | .off2 _ _ => 2
  | .eos => 0
  | .zlit => 1
  | .zmat => 1
  | .nop => 1
  | .cmMoff => 1
  | .cmMlen => 1
  | .cmZmc => 1
  | .cmLlen => 1
  | .mfFind => 1
  | .dpInit => 1
  | .dpFill => 1
  | .dpRun => 1
  | .dpSelect => 1
  | .decStart => 1
  | .decRun => 1
  | .decStep => 1

/-- An instruction's encoding has the size its row gives. -/
def Statement (i : Instr) : Prop := (encode i).length = tableSize i

theorem litB (n : Byte) : Statement (.litB n) := rfl
theorem litS (n : BitVec 7) : Statement (.litS n) := rfl
theorem litW (lo : BitVec 7) (hi : Byte) : Statement (.litW lo hi) := rfl
theorem matB (m : Byte) : Statement (.matB m) := rfl
theorem matS (m : BitVec 7) : Statement (.matS m) := rfl
theorem matW (lo : BitVec 7) (hi : Byte) : Statement (.matW lo hi) := rfl
theorem off0 : Statement .off0 := rfl
theorem off1 (b0 : Byte) : Statement (.off1 b0) := rfl
theorem off2 (b0 b1 : Byte) : Statement (.off2 b0 b1) := rfl
theorem eos : Statement .eos := rfl
theorem zlit : Statement .zlit := rfl
theorem zmat : Statement .zmat := rfl
theorem nop : Statement .nop := rfl
theorem cmMoff : Statement .cmMoff := rfl
theorem cmMlen : Statement .cmMlen := rfl
theorem cmZmc : Statement .cmZmc := rfl
theorem cmLlen : Statement .cmLlen := rfl
theorem mfFind : Statement .mfFind := rfl
theorem dpInit : Statement .dpInit := rfl
theorem dpFill : Statement .dpFill := rfl
theorem dpRun : Statement .dpRun := rfl
theorem dpSelect : Statement .dpSelect := rfl
theorem decStart : Statement .decStart := rfl
theorem decRun : Statement .decRun := rfl
theorem decStep : Statement .decStep := rfl

end Sys2Proof.Laws.EncodedSize
end

