-- ==== Sys2Proof/Laws/Units.lean ====
section
/-! SUPPORT. For each command one lemma that says everything it can do. -/

namespace Sys2Proof.Machine

open Host (Outcome)

/-- MF.FIND ends in one of four ways. -/
theorem execMfFind_cases (s : State) :
    (s.cfg.valid = false ∧ execMfFind s = .next (s.setMf (s.mf.raise .cfgError))) ∨
    (s.cfg.valid = true ∧ Config.nCap < s.mf.n.toNat ∧ execMfFind s = .next (s.setMf (s.mf.raise .oversize))) ∨
    (s.cfg.valid = true ∧ s.mf.n.toNat ≤ Config.nCap ∧ s.mf.n.toNat < s.mf.p.toNat ∧
      execMfFind s = .refused .operandOutOfRange) ∨
    (s.cfg.valid = true ∧ s.mf.n.toNat ≤ Config.nCap ∧ s.mf.p.toNat ≤ s.mf.n.toNat ∧
      execMfFind s = .next ((s.setMf { s.mf with
        ml := (findMatch s.cfg (dataByte s.data) s.mf.n.toNat s.mf.p.toNat).1
        mp := (findMatch s.cfg (dataByte s.data) s.mf.n.toNat s.mf.p.toNat).2
        status := Status.completed }).holdData s.mf.n.toNat)) := by
  unfold execMfFind
  split
  · exact .inl ⟨by assumption, rfl⟩
  · have hv : s.cfg.valid = true := by simpa using ‹¬ s.cfg.valid = false›
    split
    · exact .inr (.inl ⟨hv, by assumption, rfl⟩)
    · split
      · exact .inr (.inr (.inl ⟨hv, by omega, by assumption, rfl⟩))
      · exact .inr (.inr (.inr ⟨hv, by omega, by omega, rfl⟩))

/-- DP.INIT ends in one of three ways. -/
theorem execDpInit_cases (s : State) :
    (s.cfg.valid = false ∧ execDpInit s = .next (s.setDp (s.dp.raise .cfgError))) ∨
    (s.cfg.valid = true ∧ Config.nCap < s.dp.n.toNat ∧ execDpInit s = .next (s.setDp (s.dp.raise .oversize))) ∨
    (s.cfg.valid = true ∧ s.dp.n.toNat ≤ Config.nCap ∧
      execDpInit s = .next (((s.setSp (SMap.put s.sp s.dp.n.toNat SpCell.sentinel)).setDp
        { s.dp with status := Status.completed, fill := some (s.dp.n.toNat, s.dp.n.toNat) }).holdData s.dp.n.toNat)) := by
  unfold execDpInit
  split
  · exact .inl ⟨by assumption, rfl⟩
  · have hv : s.cfg.valid = true := by simpa using ‹¬ s.cfg.valid = false›
    split
    · exact .inr (.inl ⟨hv, by assumption, rfl⟩)
    · exact .inr (.inr ⟨hv, by omega, rfl⟩)

/-- DP.RUN ends in one of three ways. -/
theorem execDpRun_cases (s : State) :
    (s.cfg.valid = false ∧ execDpRun s = .next (s.setDp (s.dp.raise .cfgError))) ∨
    (s.cfg.valid = true ∧ Config.nCap < s.dp.n.toNat ∧ execDpRun s = .next (s.setDp (s.dp.raise .oversize))) ∨
    (s.cfg.valid = true ∧ s.dp.n.toNat ≤ Config.nCap ∧
      execDpRun s = .next (((s.setSp (fillDown s.cfg (dataByte s.data) s.dp.n.toNat s.dp.n.toNat
          (SMap.put s.sp s.dp.n.toNat SpCell.sentinel))).setDp
        { s.dp with
          p := if s.dp.n = 0 then s.dp.p else 0
          status := Status.completed
          fill := some (s.dp.n.toNat, 0) }).holdData s.dp.n.toNat)) := by
  unfold execDpRun
  split
  · exact .inl ⟨by assumption, rfl⟩
  · have hv : s.cfg.valid = true := by simpa using ‹¬ s.cfg.valid = false›
    split
    · exact .inr (.inl ⟨hv, by assumption, rfl⟩)
    · exact .inr (.inr ⟨hv, by omega, rfl⟩)

/-- DP.FILL ends in one of five ways. -/
theorem execDpFill_cases (s : State) :
    (s.dp.status.state = .err ∧ execDpFill s = .next s) ∨
    (s.cfg.valid = false ∧ execDpFill s = .next (s.setDp (s.dp.raise .cfgError))) ∨
    (s.cfg.valid = true ∧ Config.nCap < s.dp.n.toNat ∧ execDpFill s = .next (s.setDp (s.dp.raise .oversize))) ∨
    (s.cfg.valid = true ∧ s.dp.n.toNat ≤ s.dp.p.toNat ∧ execDpFill s = .refused .operandOutOfRange) ∨
    (s.cfg.valid = true ∧ s.dp.n.toNat ≤ Config.nCap ∧ s.dp.p.toNat < s.dp.n.toNat ∧
      execDpFill s = .next ((fillEffect s).holdData s.dp.n.toNat)) := by
  unfold execDpFill
  split
  · exact .inl ⟨by assumption, rfl⟩
  · split
    · exact .inr (.inl ⟨by assumption, rfl⟩)
    · have hv : s.cfg.valid = true := by simpa using ‹¬ s.cfg.valid = false›
      split
      · exact .inr (.inr (.inl ⟨hv, by assumption, rfl⟩))
      · split
        · exact .inr (.inr (.inr (.inl ⟨hv, by assumption, rfl⟩)))
        · exact .inr (.inr (.inr (.inr ⟨hv, by omega, by omega, rfl⟩)))

/-- DP.SELECT ends in one of five ways. -/
theorem execDpSelect_cases (s : State) :
    (s.dp.status.state = .err ∧ execDpSelect s = .next s) ∨
    (s.cfg.valid = false ∧ execDpSelect s = .next (s.setDp (s.dp.raise .cfgError))) ∨
    (s.cfg.valid = true ∧ s.dp.n.toNat ≤ s.dp.p.toNat ∧ execDpSelect s = .refused .operandOutOfRange) ∨
    (s.cfg.valid = true ∧ s.dp.p.toNat < s.dp.n.toNat ∧
      selectChoice s.cfg (cellAt s.sp s.dp.p.toNat) s.dp.prevLit = none ∧
      execDpSelect s = .next (s.setDp (s.dp.raise .infeasible))) ∨
    (s.cfg.valid = true ∧ s.dp.p.toNat < s.dp.n.toNat ∧
      ∃ x, selectChoice s.cfg (cellAt s.sp s.dp.p.toNat) s.dp.prevLit = some x ∧
        execDpSelect s = .next (s.setDp { s.dp with choice := x })) := by
  unfold execDpSelect
  split
  · exact .inl ⟨by assumption, rfl⟩
  · split
    · exact .inr (.inl ⟨by assumption, rfl⟩)
    · have hv : s.cfg.valid = true := by simpa using ‹¬ s.cfg.valid = false›
      split
      · exact .inr (.inr (.inl ⟨hv, by assumption, rfl⟩))
      · split
        · exact .inr (.inr (.inr (.inl ⟨hv, by omega, by assumption, rfl⟩)))
        · exact .inr (.inr (.inr (.inr ⟨hv, by omega, _, by assumption, rfl⟩)))

/-- The three commands of the decoder change the decoder only. -/
theorem execDecStart_next (s : State) :
    execDecStart s = .next (s.setDec (if s.cfg.valid = false then s.dec.raiseCfg else s.dec.start)) := by
  unfold execDecStart
  split <;> rfl

theorem execDecRun_next (s : State) :
    execDecRun s = .next (s.setDec (if s.cfg.valid = false then s.dec.raiseCfg else s.dec.run s.cfg)) := by
  unfold execDecRun
  split <;> rfl

theorem execDecStep_next (s : State) :
    execDecStep s = .next (s.setDec
      (if s.dec.status.state = .err then s.dec
       else if s.cfg.valid = false then s.dec.raiseCfg else s.dec.byteStep s.cfg)) := by
  unfold execDecStep
  split
  · rfl
  · split <;> rfl

/-- The fill keeps the table in its canonical form. -/
theorem fillDown_wf (c : Cfg) (dat : Nat → Byte) (n k : Nat) (t : Table) (h : SMap.wf t) :
    SMap.wf (fillDown c dat n k t) := by
  induction k generalizing t with
  | zero => exact h
  | succ k ih => exact ih _ (SMap.put_wf h _ _)

end Sys2Proof.Machine
end

