-- ==== Sys2Proof/Laws/Step.lean ====
section
/-! SUPPORT. What one step can do, and what a host write of `DATA` can. -/

namespace Sys2Proof.Machine

open Sys2Proof.Safety

/-- A command that may begin now: DEC.STEP, or any while the decoder is not BUSY. -/
theorem mayBegin_iff (i : Instr) (s : State) : mayBegin i s = true ↔ s.dec.status.state ≠ .busy ∨ i = .decStep := by
  simp [mayBegin]

/-- The two ways the stream goes on. -/
theorem streamStep_cases (s : State) :
    (∃ i rest, fetchToken s = some (i, rest) ∧ streamStep s = exec i (consume rest s)) ∨
    (fetchToken s = none ∧ streamStep s = .next (advanceDecoder s)) := by
  unfold streamStep
  cases h : fetchToken s with
  | some x => exact .inl ⟨x.1, x.2, rfl, rfl⟩
  | none => exact .inr ⟨rfl, rfl⟩

/-- The three ways of a step. -/
theorem step_cases (s : State) :
    (∃ i, s.cmdReq = true ∧ decodeCommand s.cmd = some i ∧ mayBegin i s = true ∧ step s = exec i (takeCommand s)) ∨
    (s.cmdReq = true ∧ decodeCommand s.cmd = none ∧ step s = .refused (.unknownCommand s.cmd)) ∨
    (NoCommandBegins s ∧ step s = streamStep s) := by
  unfold step NoCommandBegins
  cases s.cmdReq with
  | true =>
    cases h : decodeCommand s.cmd with
    | some i =>
      cases hb : mayBegin i s with
      | true => exact .inl ⟨i, rfl, rfl, hb, by simp [hb]⟩
      | false => exact .inr (.inr ⟨.inr ⟨i, rfl, hb⟩, by simp [hb]⟩)
    | none => exact .inr (.inl ⟨rfl, rfl, rfl⟩)
  | false => exact .inr (.inr ⟨.inl rfl, rfl⟩)

/-- A fetched token is what decoding gives at the decoder's place. -/
theorem fetchToken_eq_some {s : State} {i : Instr} {rest : List Byte} :
    fetchToken s = some (i, rest) ↔ ∃ x, tokenCtx s = some x ∧ decode x s.dec.inp = .instr i rest := by
  unfold fetchToken
  cases h : tokenCtx s with
  | none => simp
  | some x =>
    simp only [Option.some.injEq, exists_eq_left']
    cases hd : decode x s.dec.inp with
    | instr j r => simp
    | reject r => simp

/-- Where a token is fetched, the decoder is at one of the three places of the stream. -/
theorem tokenCtx_eq_some {s : State} {x : Ctx} :
    tokenCtx s = some x ↔
      ∃ k, s.dec.phase.slot = some k ∧ x = { cfg := s.cfg, slot := k, ended := s.dec.inp.isEmpty && s.dec.inEnd } := by
  unfold tokenCtx
  cases s.dec.phase.slot with
  | none => simp
  | some k => simp [eq_comm]

/-- Everything a host write of `DATA` can do. -/
theorem writeData_cases (k : Nat) (b : Byte) (s : State) :
    (Config.nCap ≤ k ∧ writeData k b s = .refused .noSuchPlace) ∨
    (k < Config.nCap ∧ SMap.get? s.data k = some b ∧ writeData k b s = .next s) ∨
    (k < Config.nCap ∧ SMap.get? s.data k ≠ some b ∧ k < s.held ∧ writeData k b s = .refused .encodeUnderWay) ∨
    (k < Config.nCap ∧ SMap.get? s.data k ≠ some b ∧ s.held ≤ k ∧
      writeData k b s = .next { s with data := SMap.put s.data k b }) := by
  unfold writeData
  split
  · exact .inl ⟨by assumption, rfl⟩
  · split
    · exact .inr (.inl ⟨by omega, by assumption, rfl⟩)
    · split
      · exact .inr (.inr (.inl ⟨by omega, by assumption, by assumption, rfl⟩))
      · exact .inr (.inr (.inr ⟨by omega, by assumption, by omega, rfl⟩))

end Sys2Proof.Machine
end

