-- ==== Sys2Proof/Tests/Slice0.lean ====
section
/-! SUPPORT. Tests: ill-formed instructions are refused, words written out from the spec decode, one step of each
instruction against the spec's worked examples and vectors (95_test_vectors.md), and for each statement with hypotheses a
case that meets them. Expected values are the spec's; each comment names the rule or vector. -/

namespace Sys2Proof.Tests

open Sys2Proof Sys2Proof.Machine Sys2Proof.Safety

/-! ## Helpers -/

/-- The outcome is a next state with this property. -/
def nextWith (o : Host.Outcome State Fault Refusal) (p : State → Bool) : Bool :=
  match o with
  | .next t => p t
  | .fault _ => false
  | .refused _ => false

/-- The outcome is this refusal. -/
def refusedWith (o : Host.Outcome State Fault Refusal) (r : Refusal) : Bool :=
  match o with
  | .next _ => false
  | .fault _ => false
  | .refused r' => decide (r' = r)

def wide : Cfg := { Cfg.reset with maxMlen := 300, maxLlen := 300 }
def rle : Cfg := { Cfg.reset with bitsMoff := 0 }
def big : Cfg := { Cfg.reset with bitsMoff := 16 }
def bad : Cfg := { Cfg.reset with maxLlen := 0 }

def place (c : Cfg) (k : Slot) : Ctx := { cfg := c, slot := k, ended := false }

/-- A machine with a started decoder at a place of the stream. -/
def decoding (c : Cfg) (ph : Phase) (bytes : List Byte) : State :=
  { State.reset with
    cfg := c
    dec := { State.reset.dec with phase := ph, status := Status.started, inp := bytes, inEnd := true } }

/-- The machine whose ring holds the two bytes of `02 41 42`, already output (R139). -/
def afterAB (c : Cfg) (ph : Phase) (bytes : List Byte) : State :=
  { State.reset with
    cfg := c
    dec := { State.reset.dec with
      phase := ph, status := Status.started, inp := bytes, inEnd := true
      ring := [(0, 0x41), (1, 0x42)], out := [0x41, 0x42], pos := 2, ip := 3 } }

/-- The machine with an input in `DATA` and both length registers set. -/
def loaded (bytes : List Byte) (p : Nat) : State :=
  { State.reset with
    data := bytes.zipIdx.map (fun x => (x.2, x.1))
    mf := { State.reset.mf with n := BitVec.ofNat 18 bytes.length, p := BitVec.ofNat 18 p }
    dp := { State.reset.dp with n := BitVec.ofNat 18 bytes.length, p := BitVec.ofNat 18 p } }

/-- `"A"` with the sentinel written (V-DP-1), before DP.FILL at 0. -/
def oneByte : State :=
  let s := loaded [0x41] 0
  { s with sp := [(1, SpCell.sentinel)], dp := { s.dp with fill := some (1, 1), status := Status.completed }, held := 1 }

/-- `"AAAA"` with the cells 2 to 4 of V-DP-3, before DP.FILL at 1. -/
def fourBytes : State :=
  let s := loaded [0x41, 0x41, 0x41, 0x41] 1
  { s with
    sp := [(2, ⟨2, .fin 24, 2, 1, .fin 16⟩), (3, ⟨1, .fin 16, 1, 1, .fin 16⟩), (4, SpCell.sentinel)]
    dp := { s.dp with fill := some (4, 2), status := Status.completed }
    held := 4 }

def withCommand (code : Byte) (s : State) : State := { s with cmd := code, cmdReq := true }

/-- The cost a command answers for an operand. -/
def answers (i : Instr) (c : Cfg) (operand : Nat) (r : CmResult) : Bool :=
  nextWith (exec i { State.reset with cfg := c, cm := { operand := operand, result := .nothing } })
    (fun t => decide (t.cm.result = r))

/-! ## Well-formedness refuses each ill-formed kind (R60, R65, R66, R71, R73, R75) -/

theorem test_illformed_litB_wide : WellFormed (place wide .literalLength) (.litB 1) = false := by decide
theorem test_illformed_litB_match : WellFormed (place Cfg.reset .matchLength) (.litB 1) = false := by decide
theorem test_illformed_litS_narrow : WellFormed (place Cfg.reset .literalLength) (.litS 1) = false := by decide
theorem test_illformed_litW_narrow : WellFormed (place Cfg.reset .literalLength) (.litW 1 1) = false := by decide
theorem test_illformed_matB_wide : WellFormed (place wide .matchLength) (.matB 1) = false := by decide
theorem test_illformed_matB_literal : WellFormed (place Cfg.reset .literalLength) (.matB 1) = false := by decide
theorem test_illformed_matS_narrow : WellFormed (place Cfg.reset .matchLength) (.matS 1) = false := by decide
theorem test_illformed_matW_narrow : WellFormed (place Cfg.reset .matchLength) (.matW 1 1) = false := by decide
theorem test_illformed_off0 : WellFormed (place Cfg.reset .offsetField) .off0 = false := by decide
theorem test_illformed_off1 : WellFormed (place big .offsetField) (.off1 1) = false := by decide
theorem test_illformed_off2 : WellFormed (place Cfg.reset .offsetField) (.off2 1 1) = false := by decide
theorem test_illformed_off2_place : WellFormed (place big .matchLength) (.off2 1 1) = false := by decide
theorem test_illformed_eos_open : WellFormed (place Cfg.reset .literalLength) .eos = false := by decide
theorem test_illformed_eos_offset :
    WellFormed { cfg := Cfg.reset, slot := .offsetField, ended := true } .eos = false := by decide
theorem test_illformed_zlit : WellFormed (place Cfg.reset .matchLength) .zlit = false := by decide
theorem test_illformed_zmat : WellFormed (place Cfg.reset .literalLength) .zmat = false := by decide
theorem test_illformed_token_as_command : WellFormed (place Cfg.reset .command) (.litB 1) = false := by decide
theorem test_illformed_command_as_token :
    ∀ x ∈ commandTable, WellFormed (place Cfg.reset .literalLength) x.2 = false := by decide
theorem test_meaning_refuses_misplaced_token :
    refusedWith (exec (.litB 0) (decoding Cfg.reset .mlen [])) .tokenOutOfPlace = true := by decide

/-! ## Words written out from R65, R66, R73 and R75 -/

theorem test_word_litB : decode (place Cfg.reset .literalLength) [0b00000010] = .instr (.litB 2) [] := by decide
theorem test_word_litB_high : decode (place Cfg.reset .literalLength) [0b11001000] = .instr (.litB 200) [] := by decide
theorem test_word_litS : decode (place wide .literalLength) [0b01111111] = .instr (.litS 127) [] := by decide
/-- V-LF-3: 300 is `AC 01`. -/
theorem test_word_litW :
    decode (place wide .literalLength) [0b10101100, 0b00000001] = .instr (.litW 0b0101100 0b00000001) [] := by decide
theorem test_word_matB : decode (place Cfg.reset .matchLength) [0b00000110] = .instr (.matB 6) [] := by decide
theorem test_word_matS : decode (place wide .matchLength) [0b00000000] = .instr (.matS 0) [] := by decide
theorem test_word_matW :
    decode (place wide .matchLength) [0b11111111, 0b11111111] = .instr (.matW 0b1111111 0b11111111) [] := by decide
theorem test_word_off0 : decode (place rle .offsetField) [0b01000001] = .instr .off0 [0x41] := by decide
theorem test_word_off1 : decode (place Cfg.reset .offsetField) [0b00000001] = .instr (.off1 1) [] := by decide
/-- V-OF-2: `mpos = 0x1235` is `34 12`. -/
theorem test_word_off2 :
    decode (place big .offsetField) [0b00110100, 0b00010010] = .instr (.off2 0x34 0x12) [] := by decide
theorem test_word_eos :
    decode { cfg := Cfg.reset, slot := .literalLength, ended := true } [] = .instr .eos [] := by decide
/-- R74: the pseudo-tokens are the tokens of length 0. -/
theorem test_word_zlit : decode (place Cfg.reset .literalLength) (encode .zlit) = .instr (.litB 0) [] := by decide
theorem test_word_zmat : decode (place wide .matchLength) (encode .zmat) = .instr (.matS 0) [] := by decide
theorem test_word_nop : decode (place Cfg.reset .command) [0b00000000] = .instr .nop [] := by decide
theorem test_word_cmMoff : decode (place Cfg.reset .command) [0b00010000] = .instr .cmMoff [] := by decide
theorem test_word_cmMlen : decode (place Cfg.reset .command) [0b00010001] = .instr .cmMlen [] := by decide
theorem test_word_cmZmc : decode (place Cfg.reset .command) [0b00010010] = .instr .cmZmc [] := by decide
theorem test_word_cmLlen : decode (place Cfg.reset .command) [0b00010011] = .instr .cmLlen [] := by decide
theorem test_word_mfFind : decode (place Cfg.reset .command) [0b00100000] = .instr .mfFind [] := by decide
theorem test_word_dpInit : decode (place Cfg.reset .command) [0b00110000] = .instr .dpInit [] := by decide
theorem test_word_dpFill : decode (place Cfg.reset .command) [0b00110001] = .instr .dpFill [] := by decide
theorem test_word_dpRun : decode (place Cfg.reset .command) [0b00110010] = .instr .dpRun [] := by decide
theorem test_word_dpSelect : decode (place Cfg.reset .command) [0b00110011] = .instr .dpSelect [] := by decide
theorem test_word_decStart : decode (place Cfg.reset .command) [0b01000000] = .instr .decStart [] := by decide
theorem test_word_decRun : decode (place Cfg.reset .command) [0b01000001] = .instr .decRun [] := by decide
theorem test_word_decStep : decode (place Cfg.reset .command) [0b01000010] = .instr .decStep [] := by decide
theorem test_word_unknown : decode (place Cfg.reset .command) [0x14] = .reject (.unknownCommand 0x14) := by decide
/-- V-ERR: the second byte of a two-byte field is missing. -/
theorem test_word_cut : decode (place wide .literalLength) [0x80] = .reject .cutField := by decide

/-! ## The cost commands (V-CM-1 to V-CM-6) -/

theorem test_cmMoff : answers .cmMoff Cfg.reset 256 (.cost (.fin 8)) = true := by decide
theorem test_cmMoff_beyond : answers .cmMoff rle 2 (.cost .inf) = true := by decide
theorem test_cmMlen : answers .cmMlen wide 128 (.cost (.fin 16)) = true := by decide
theorem test_cmMlen_beyond : answers .cmMlen wide 301 (.cost .inf) = true := by decide
theorem test_cmZmc : answers .cmZmc { big with zeroOffset := true } 0 (.cost (.fin 24)) = true := by decide
theorem test_cmZmc_invalid : answers .cmZmc bad 0 .cfgError = true := by decide
theorem test_cmLlen : answers .cmLlen Cfg.reset 1000 (.cost (.fin 56)) = true := by decide
theorem test_cmLlen_wide : answers .cmLlen wide 428 (.cost (.fin 32)) = true := by decide

/-! ## The match finder (V-MF-1, V-MF-5) -/

theorem test_mfFind :
    nextWith (exec .mfFind (loaded [0x41, 0x42, 0x41, 0x42, 0x41, 0x42, 0x41, 0x42] 2))
      (fun t => decide (t.mf.ml = 6 ∧ t.mf.mp = 2)) = true := by decide
theorem test_mfFind_tie :
    nextWith (exec .mfFind (loaded [0x58, 0x41, 0x42, 0x59, 0x41, 0x42, 0x5A, 0x41, 0x42] 7))
      (fun t => decide (t.mf.ml = 2 ∧ t.mf.mp = 3)) = true := by decide

/-! ## The parser (V-DP-1, V-DP-3, V-DP-2) -/

theorem test_dpInit :
    nextWith (exec .dpInit (loaded [0x41] 0)) (fun t => decide (t.sp = [(1, ⟨0, .fin 0, 0, 0, .inf⟩)])) = true := by decide
theorem test_dpFill :
    nextWith (exec .dpFill oneByte) (fun t => decide (cellAt t.sp 0 = ⟨1, .fin 16, 0, 0, .inf⟩)) = true := by decide
theorem test_dpFill_match :
    nextWith (exec .dpFill fourBytes) (fun t => decide (cellAt t.sp 1 = ⟨3, .fin 32, 3, 1, .fin 16⟩)) = true := by decide
theorem test_dpRun :
    nextWith (exec .dpRun (loaded [0x41] 0)) (fun t => decide (t.sp = [(0, ⟨1, .fin 16, 0, 0, .inf⟩), (1, SpCell.sentinel)]))
      = true := by decide
/-- V-DP-2: at `p = 2` after a literal, `32 + 8 ≤ 16` is false: MATCH. -/
theorem test_dpSelect :
    nextWith (exec .dpSelect
        { loaded [0x41, 0x42, 0x41] 2 with sp := [(2, ⟨1, .fin 32, 6, 2, .fin 16⟩)] })
      (fun t => decide (t.dp.choice = .matched)) = true := by decide
/-- P4: "the match would also cost 3 bytes and LITERAL wins ties" (R109). -/
theorem test_dpSelect_tie :
    nextWith (exec .dpSelect
        { loaded [0x41] 0 with sp := [(0, ⟨1, .fin 24, 1, 1, .fin 24⟩)] })
      (fun t => decide (t.dp.choice = .literal)) = true := by decide

/-! ## The decoder's commands -/

/-- R136. -/
theorem test_decStart :
    nextWith (exec .decStart (afterAB Cfg.reset .err [])) (fun t => decide (t.dec.phase = .llen ∧ t.dec.pos = 0)) = true := by
  decide
/-- S2: `02 41 42 06 01`. -/
theorem test_decRun :
    nextWith (exec .decRun (decoding Cfg.reset .idle [0x02, 0x41, 0x42, 0x06, 0x01]))
      (fun t => decide (t.dec.out = [0x41, 0x42, 0x41, 0x42, 0x41, 0x42, 0x41, 0x42] ∧ t.dec.pos = 8 ∧ t.dec.ip = 5 ∧
        t.dec.phase = .done)) = true := by decide
/-- R149: the stream `02 41` is cut in its literal. -/
theorem test_decRun_cut :
    nextWith (exec .decRun (decoding Cfg.reset .idle [0x02, 0x41]))
      (fun t => decide (t.dec.out = [0x41] ∧ t.dec.errexp = .literalByte ∧ t.dec.errpos = 1 ∧ t.dec.errip = 2 ∧
        t.dec.phase = .err)) = true := by decide
/-- R152, row LLEN2: `AC 01` is 300. -/
theorem test_decStep :
    nextWith (exec .decStep (let s := decoding wide .llen2 [0x01]; { s with dec := { s.dec with lenlo := 0xAC } }))
      (fun t => decide (t.dec.cnt = 300 ∧ t.dec.phase = .lit)) = true := by decide
/-- R152, row COPY, with the example of R147: `RING[0] = 55`, `pos = 1`, `src = 0`. -/
theorem test_decStep_copy :
    nextWith (exec .decStep
        (let s := decoding Cfg.reset .copy []
         { s with dec := { s.dec with ring := [(0, 0x55)], pos := 1, cnt := 4 } }))
      (fun t => decide (t.dec.out = [0x55] ∧ t.dec.ring = [(0, 0x55), (1, 0x55)] ∧ t.dec.cnt = 3 ∧ t.dec.src = 1)) = true := by
  decide

/-! ## The tokens, one step of the machine each -/

/-- R139: `02 41 42` at `pos = 0`. -/
theorem test_step_litB :
    nextWith (step (decoding Cfg.reset .llen [0x02, 0x41, 0x42, 0x06]))
      (fun t => decide (t.dec.out = [0x41, 0x42] ∧ t.dec.ring = [(0, 0x41), (1, 0x42)] ∧ t.dec.pos = 2 ∧ t.dec.ip = 3 ∧
        t.dec.inp = [0x06] ∧ t.dec.phase = .mlen)) = true := by decide
theorem test_step_litS :
    nextWith (step (decoding wide .llen [0x01, 0x55])) (fun t => decide (t.dec.out = [0x55] ∧ t.dec.ip = 2)) = true := by decide
/-- `80 00` is 128 (R138); the one byte there is output, then the literal is cut. -/
theorem test_step_litW :
    nextWith (step (decoding wide .llen [0x80, 0x00, 0x55]))
      (fun t => decide (t.dec.out = [0x55] ∧ t.dec.cnt = 127 ∧ t.dec.errexp = .literalByte ∧ t.dec.errip = 3)) = true := by decide
/-- R140: `06 01` at `pos = 2`. -/
theorem test_step_matB :
    nextWith (step (afterAB Cfg.reset .mlen [0x06, 0x01]))
      (fun t => decide (t.dec.out = [0x41, 0x42, 0x41, 0x42, 0x41, 0x42, 0x41, 0x42] ∧ t.dec.pos = 8 ∧ t.dec.ip = 5 ∧
        t.dec.phase = .llen)) = true := by decide
/-- V-DEC: a zero-length match under `ZERO_OFFSET = 0` reads no offset byte (R140). -/
theorem test_step_matB_zero :
    nextWith (step (afterAB Cfg.reset .mlen [0x00, 0x7B]))
      (fun t => decide (t.dec.inp = [0x7B] ∧ t.dec.pos = 2 ∧ t.dec.phase = .llen)) = true := by decide
/-- Under `ZERO_OFFSET = 1` it reads it (R140). -/
theorem test_step_matS_zero :
    nextWith (step (afterAB { wide with zeroOffset := true } .mlen [0x00, 0x7B]))
      (fun t => decide (t.dec.inp = [] ∧ t.dec.off = 0x7B ∧ t.dec.pos = 2 ∧ t.dec.phase = .llen)) = true := by decide
/-- V-ERR: the offset byte behind `80 00` is missing (R141, R149). -/
theorem test_step_matW_cut :
    nextWith (step (afterAB wide .mlen [0x80, 0x00]))
      (fun t => decide (t.dec.errexp = .offsetByte ∧ t.dec.cnt = 128 ∧ t.dec.errip = 5 ∧ t.dec.phase = .err)) = true := by decide
/-- R142, R144: the complement is not applied, the source is `pos - 1`. -/
theorem test_off0 :
    nextWith (exec .off0 (let s := afterAB { rle with exorOffset := true } .offlo []; { s with dec := { s.dec with cnt := 2 } }))
      (fun t => decide (t.dec.out = [0x41, 0x42, 0x42, 0x42] ∧ t.dec.off = 0)) = true := by decide
/-- R143: with the complement `FE` is the offset 1. -/
theorem test_step_off1 :
    nextWith (step (let s := afterAB { Cfg.reset with exorOffset := true } .offlo [0xFE]; { s with dec := { s.dec with cnt := 1 } }))
      (fun t => decide (t.dec.out = [0x41, 0x42, 0x41] ∧ t.dec.off = 1)) = true := by decide
/-- R146 with V-OF-4: `34 12` under `OFFSET_REL = 0x1234` is source 0. -/
theorem test_step_off2 :
    nextWith (step (let s := afterAB { big with offsetRelEn := true, offsetRel := 0x1234 } .offlo [0x34, 0x12]
                    { s with dec := { s.dec with cnt := 1 } }))
      (fun t => decide (t.dec.out = [0x41, 0x42, 0x41] ∧ t.dec.off = 0x1234 ∧ t.dec.src = 1)) = true := by decide
/-- S4: the empty stream ends cleanly at once (R148). -/
theorem test_step_eos :
    nextWith (step (decoding Cfg.reset .llen []))
      (fun t => decide (t.dec.phase = .done ∧ t.dec.status.state = .done ∧ t.dec.pos = 0)) = true := by decide
theorem test_zlit :
    nextWith (exec .zlit (decoding Cfg.reset .llen [0x55])) (fun t => decide (t.dec.out = [] ∧ t.dec.phase = .mlen)) = true := by
  decide
theorem test_zmat :
    nextWith (exec .zmat (decoding Cfg.reset .mlen [0x55])) (fun t => decide (t.dec.inp = [0x55] ∧ t.dec.phase = .llen)) = true := by
  decide
theorem test_step_nop :
    nextWith (step (withCommand 0x00 (loaded [0x41] 0))) (fun t => decide (t = { loaded [0x41] 0 with cmd := 0 })) = true := by
  decide

/-! ## Each statement with hypotheses has a case that meets them, one for each clause, at the ends of its range -/

/-- A decoder at a place whose stream is still open and empty. -/
def starving (ph : Phase) : State :=
  { State.reset with dec := { State.reset.dec with phase := ph, status := Status.started } }

/-- The table of V-DP-1 as a function. -/
def cellsOfA (p : Nat) : SpCell := if p = 0 then ⟨1, .fin 16, 0, 0, .inf⟩ else SpCell.sentinel

/-- The cells of V-DP-3 above 0 as a function. -/
def cellsOfAAAA (p : Nat) : SpCell :=
  if p = 1 then ⟨3, .fin 32, 3, 1, .fin 16⟩
  else if p = 2 then ⟨2, .fin 24, 2, 1, .fin 16⟩
  else if p = 3 then ⟨1, .fin 16, 1, 1, .fin 16⟩
  else SpCell.sentinel

/-- Units in ERR. -/
def inError : State :=
  { State.reset with
    dp := { State.reset.dp with status := Status.raised .infeasible }
    dec := { State.reset.dec with phase := .err, status := Status.raised .truncated } }

theorem test_witness_DecodeOfEncode :
    WellFormed (place wide .literalLength) (.litW 127 255) = true ∧ WellFormed (place big .offsetField) (.off2 0 255) = true ∧
    WellFormed { cfg := Cfg.reset, slot := .matchLength, ended := true } .eos = true ∧
    WellFormed (place Cfg.reset .command) .decStep = true := by decide
theorem test_witness_EncodeOfDecode :
    decode (place Cfg.reset .offsetField) [0x01, 0x02] = .instr (.off1 1) [0x02] := by decide
theorem test_witness_TwoByteLengths :
    255 < 256 ∧ lenField 256 128 = [0x80, 0x00] ∧ lenField 32895 32895 = [0xFF, 0xFF] ∧ 128 ≤ (0x80 : Byte).toNat ∧
    128 ≤ (0xFF : Byte).toNat ∧ (place { wide with maxLlen := 256 } .literalLength).cfg.maxLlen.toNat = 256 ∧
    (place { wide with maxMlen := 32895 } .matchLength).cfg.maxMlen.toNat = 32895 := by decide
theorem test_witness_PlacedTableWord :
    decodeTableWord 0 0 = some .eos ∧ decodeTableWord 8 0x42 = some .decStep ∧ decodeTableWord 8 0x05 = some (.litS 5) ∧
    decodeTableWord 16 0x01AC = some (.litW 0x2C 0x01) ∧ decodeTableWord 16 0x1234 = some (.off2 0x34 0x12) := by decide
/-- One that begins, DEC.STEP in a run, and one that waits (R54, R170). -/
theorem test_witness_StepRunsPendingCommand :
    (withCommand 0x33 State.reset).cmdReq = true ∧
    decodeCommand (withCommand 0x33 State.reset).cmd = some .dpSelect ∧
    (withCommand 0x33 State.reset).dec.status.state ≠ .busy ∧
    decodeCommand (withCommand 0x42 (starving .llen)).cmd = some .decStep ∧
    decodeCommand (withCommand 0x40 (starving .llen)).cmd = some .decStart ∧
    (withCommand 0x40 (starving .llen)).dec.status.state = .busy ∧ Instr.decStart ≠ .decStep := by decide
/-- R170: a DEC.START behind an unfinished run does not cancel it: the run's token goes on, the request stays. -/
theorem test_command_waits :
    nextWith (step (withCommand 0x40 (afterAB Cfg.reset .mlen [0x06, 0x01])))
      (fun t => decide (t.dec.pos = 8 ∧ t.dec.phase = .llen ∧ t.cmdReq = true)) = true := by decide
theorem test_witness_NoCommandBegins :
    (∀ s : State, s.cmdReq = false → NoCommandBegins s) ∧ NoCommandBegins (withCommand 0x20 (starving .mlen)) :=
  ⟨fun _ h => .inl h, .inr ⟨.mfFind, by decide, by decide⟩⟩
theorem test_witness_StepRunsNextToken :
    (decoding wide .llen [0xAC, 0x01, 0x55]).cmdReq = false ∧
    tokenCtx (decoding wide .llen [0xAC, 0x01, 0x55]) = some (place wide .literalLength) ∧
    decode (place wide .literalLength) [0xAC, 0x01, 0x55] = .instr (.litW 0x2C 0x01) [0x55] := by decide
theorem test_witness_UnknownCode :
    (withCommand 0xFF State.reset).cmdReq = true ∧
    (withCommand 0xFF State.reset).cmd ∉
      ([0x00, 0x10, 0x11, 0x12, 0x13, 0x20, 0x30, 0x31, 0x32, 0x33, 0x40, 0x41, 0x42] : List Byte) := by decide
theorem test_witness_IdleBlock : ∀ ph ∈ [Phase.idle, .done, .err], (starving ph).cmdReq = false ∧ (starving ph).dec.phase = ph := by
  decide
theorem test_witness_DecoderWaits :
    ∀ ph ∈ [Phase.llen, .llen2, .lit, .mlen, .mlen2, .offlo, .offhi],
      (starving ph).cmdReq = false ∧ (starving ph).dec.inp = [] ∧ (starving ph).dec.inEnd = false ∧ 0 < (starving ph).cfg.bits := by
  decide
theorem test_witness_EachUnitWrites :
    (∃ t, exec .mfFind (loaded [0x41] 1) = .next t) ∧ (∃ t, exec .dpInit (loaded [0x41] 0) = .next t) ∧
    (∃ t, exec .cmMoff State.reset = .next t) ∧ ∃ t, exec .eos (decoding Cfg.reset .llen []) = .next t :=
  ⟨⟨_, rfl⟩, ⟨_, rfl⟩, ⟨_, rfl⟩, ⟨_, rfl⟩⟩
/-- R18 at its bounds: `BITS_MOFF` 16 and 17, a limit of 32895 and 32896, `OFFSET_REL` of `max_off - 1` and `max_off`. -/
theorem test_witness_ConfigurationValidity :
    big.valid = true ∧ Cfg.valid { big with bitsMoff := 17 } = false ∧ Cfg.valid { big with maxMlen := 32895 } = true ∧
    Cfg.valid { big with maxMlen := 32896 } = false ∧ bad.valid = false ∧
    Cfg.valid { Cfg.reset with offsetRelEn := true, offsetRel := 255 } = true ∧
    Cfg.valid { Cfg.reset with offsetRelEn := true, offsetRel := 256 } = false ∧
    Cfg.valid { Cfg.reset with bitsMoff := 9, offsetRelEn := true } = false := by decide
theorem test_witness_InvalidConfiguration :
    (decoding bad .llen []).cfg.valid = false ∧ (decoding bad .llen []).dp.status.state ≠ .err ∧
    (decoding bad .llen []).dec.status.state ≠ .err := by decide
/-- `N = 131073` is above the cap, `N = 131072` is not (R163). -/
theorem test_witness_Oversized :
    Cfg.reset.valid = true ∧ 131072 < (131073 : PosReg).toNat ∧ ¬ 131072 < (131072 : PosReg).toNat ∧
    State.reset.dp.status.state ≠ .err := by decide
theorem test_witness_UnitInError : inError.dp.status.state = .err ∧ inError.dec.status.state = .err := by decide
theorem test_witness_HostWrite :
    (starving .llen).dec.status.state = .busy ∧
    (State.reset.mf.status.state ≠ .busy ∧ State.reset.dp.status.state ≠ .busy ∧ State.reset.dec.status.state ≠ .busy) ∧
    nextWith (hostAct (.writeCfg 3 0xFFFD) State.reset)
      (fun t => decide (t.cfg.zeroOffset = true ∧ t.cfg.offsetRelEn = false ∧ t.cfg.exorOffset = true)) = true := by decide
/-- R41: byte 3 of the four is held, byte 4 is not, and what is there already may be written again. -/
theorem test_witness_HostKeepsTheEncode :
    3 < fourBytes.held ∧ SMap.get? fourBytes.data 3 ≠ some 0x42 ∧ fourBytes.held ≤ 4 ∧
    SMap.get? fourBytes.data 3 = some 0x41 ∧ refusedWith (hostAct (.loadData 3 0x42) fourBytes) .encodeUnderWay = true ∧
    nextWith (hostAct (.loadData 4 0x42) fourBytes) (fun t => decide (t.dp.fill = some (4, 2))) = true ∧
    nextWith (hostAct .endEncode fourBytes) (fun t => decide (t.held = 0 ∧ t.dp.fill = none)) = true := by decide
theorem test_witness_HostActKeepsMark :
    FillMarkSound oneByte ∧ ∃ t, hostAct (.loadData 1 0x42) oneByte = .next t := by
  refine ⟨?_, _, rfl⟩
  rintro n f ⟨⟩
  exact ⟨by decide, by decide, by decide, by decide, by decide, fun p h1 h2 => absurd h1 (by omega)⟩
theorem test_witness_OffsetCost :
    answers .cmMoff Cfg.reset 0 (.cost .inf) = true ∧ answers .cmMoff Cfg.reset 1 (.cost (.fin 8)) = true ∧
    answers .cmMoff Cfg.reset 257 (.cost .inf) = true ∧ answers .cmMoff rle 1 (.cost (.fin 0)) = true ∧
    answers .cmMoff big 65536 (.cost (.fin 16)) = true ∧ answers .cmMoff big 65537 (.cost .inf) = true := by decide
theorem test_witness_MatchLengthCost :
    answers .cmMlen wide 127 (.cost (.fin 8)) = true ∧ answers .cmMlen wide 300 (.cost (.fin 16)) = true ∧
    answers .cmMlen Cfg.reset 255 (.cost (.fin 8)) = true ∧ answers .cmMlen Cfg.reset 256 (.cost .inf) = true := by decide
theorem test_witness_LiteralLengthCost :
    wide.valid = true ∧ wide.zeroMatchCost = .fin 8 ∧ Cfg.zeroMatchCost { big with zeroOffset := true } = .fin 24 := by decide
theorem test_witness_LiteralLengthCostMonotone : wide.valid = true ∧ 127 ≤ 128 ∧ wide.llenCost 127 = .fin 8 ∧
    wide.llenCost 128 = .fin 16 := by decide
theorem test_witness_Finder :
    (loaded [0x41, 0x41] 2).cfg.valid = true ∧ (loaded [0x41, 0x41] 2).mf.n.toNat ≤ 131072 ∧
    (loaded [0x41, 0x41] 2).mf.p.toNat ≤ (loaded [0x41, 0x41] 2).mf.n.toNat := by decide
/-- V-MF-3. -/
theorem test_witness_FinderBounds :
    Cfg.reset.valid = true ∧ findMatch Cfg.reset (fun _ => 0x41) 5 1 = (4, 1) ∧ findMatch Cfg.reset (fun _ => 0x41) 5 0 = (0, 0) ∧
    findMatch Cfg.reset (fun _ => 0x41) 5 5 = (0, 0) := by decide
theorem test_witness_Init : State.reset.cfg.valid = true ∧ State.reset.dp.n.toNat ≤ 131072 ∧
    (131072 : PosReg).toNat ≤ 131072 := by decide
theorem test_witness_Run :
    (decoding bad .llen []).cfg.valid = false ∧ 131072 < (131073 : PosReg).toNat ∧ (loaded [0x41] 0).cfg.valid = true ∧
    (loaded [0x41] 0).dp.n.toNat ≤ 131072 ∧ State.reset.dp.n.toNat = 0 := by decide
theorem test_witness_Fill :
    fourBytes.dp.status.state ≠ .err ∧ fourBytes.cfg.valid = true ∧ fourBytes.dp.n.toNat ≤ 131072 ∧
    fourBytes.dp.p.toNat < fourBytes.dp.n.toNat ∧ fourBytes.dp.fill = some (fourBytes.dp.n.toNat, 2) ∧
    2 ≤ fourBytes.dp.p.toNat + 1 := by decide
/-- `"AAAA"` with cells from 2 on: `p = 0` is out of order. -/
theorem test_witness_OutOfOrderFill :
    let s := { fourBytes with dp := { fourBytes.dp with p := 0 } }
    s.dp.status.state ≠ .err ∧ s.cfg.valid = true ∧ s.dp.n.toNat ≤ 131072 ∧ s.dp.p.toNat < s.dp.n.toNat ∧
    (∀ f, s.dp.fill = some (s.dp.n.toNat, f) → s.dp.p.toNat + 1 < f) := by
  refine ⟨by decide, by decide, by decide, by decide, ?_⟩
  rintro f ⟨⟩
  decide
/-- V-DP-3 at `p = 0`: the literal before a match wins, 32 against the joined 40; at `p = 3` the join wins. -/
theorem test_witness_LiteralPath :
    (∀ i, i ≤ 5 → 1 ≤ i → 0 + i ≤ 4 → joinCost Cfg.reset cellsOfAAAA 0 i ≠ .inf) ∧
    literalPath Cfg.reset cellsOfAAAA 4 0 = ⟨.fin 32, 1, 4⟩ ∧
    (joinLiterals Cfg.reset cellsOfAAAA 4 0).lbits = .fin 40 ∧
    literalPath Cfg.reset cellsOfAAAA 4 3 = joinLiterals Cfg.reset cellsOfAAAA 4 3 := by decide
/-- V-DP-3 at `p = 1`; with no candidate there is no match (R105). -/
theorem test_witness_MatchPath :
    matchPath Cfg.reset cellsOfAAAA 1 3 1 = (.fin 16, 3) ∧ matchPath Cfg.reset cellsOfAAAA 1 0 0 = (.inf, 0) := by decide
theorem test_witness_Select :
    (fourBytes).dp.status.state ≠ .err ∧ fourBytes.cfg.valid = true ∧ 2 < fourBytes.dp.n.toNat ∧
    ¬ ((cellAt fourBytes.sp 2).lbits = .inf ∧ (cellAt fourBytes.sp 2).mbits = .inf) := by decide
theorem test_witness_SelectInfeasible :
    let s := { loaded [0x41] 0 with sp := [(0, ⟨0, .inf, 0, 0, .inf⟩)] }
    s.dp.status.state ≠ .err ∧ s.cfg.valid = true ∧ s.dp.p.toNat < s.dp.n.toNat ∧
    (cellAt s.sp s.dp.p.toNat).lbits = .inf ∧ (cellAt s.sp s.dp.p.toNat).mbits = .inf := by decide
/-- `p = 2` is out of range for the finder on one byte, `p = 1` for the parser. -/
theorem test_witness_OperandsOutOfRange :
    (loaded [0x41] 2).cfg.valid = true ∧ (loaded [0x41] 2).mf.n.toNat ≤ 131072 ∧
    (loaded [0x41] 2).mf.n.toNat < (loaded [0x41] 2).mf.p.toNat ∧ (loaded [0x41] 1).dp.status.state ≠ .err ∧
    (loaded [0x41] 1).dp.n.toNat ≤ (loaded [0x41] 1).dp.p.toNat ∧ (loaded [0x41] 1).dp.n.toNat ≤ 131072 := by decide
theorem test_witness_StepKeepsFinalCells :
    FillMarkSound (withCommand 0x31 oneByte) ∧ ∃ t, step (withCommand 0x31 oneByte) = .next t := by
  refine ⟨?_, _, rfl⟩
  rintro n f ⟨⟩
  exact ⟨by decide, by decide, by decide, by decide, by decide, fun p h1 h2 => absurd h1 (by omega)⟩
theorem test_witness_FilledTable :
    Cfg.reset.valid = true ∧ TableFinal Cfg.reset (fun _ => 0x41) 1 0 cellsOfA ∧ TableFinal Cfg.reset (fun _ => 0x41) 4 1 cellsOfAAAA := by
  refine ⟨by decide, ⟨by decide, by decide, ?_⟩, by decide, by decide, ?_⟩
  · intro p _ h
    have h0 : p = 0 := by omega
    subst h0
    decide
  · intro p h1 h
    have h0 : p = 1 ∨ p = 2 ∨ p = 3 := by omega
    rcases h0 with rfl | rfl | rfl <;> decide
theorem test_witness_StreamBegins :
    (loaded [0x41] 0).cfg.valid = true ∧ 0 < (loaded [0x41] 0).dp.n.toNat ∧ (loaded [0x41] 0).dp.n.toNat ≤ 131072 ∧
    ∃ t, exec .dpRun (loaded [0x41] 0) = .next t := ⟨by decide, by decide, by decide, _, rfl⟩
/-- Another `OFFSET_REL`, another `DP.P`, a further byte of `DATA`, another table before the run. -/
theorem test_witness_TableIsFunction :
    let s := loaded [0x41] 0
    let s' : State :=
      { s with
        cfg := { s.cfg with offsetRelEn := true, offsetRel := 0x20, exorOffset := true }
        data := [(0, 0x41), (1, 0x42)], sp := [(5, SpCell.sentinel)], dp := { s.dp with p := 3 } }
    s.cfg.valid = true ∧ s'.cfg.valid = true ∧ s.dp.n.toNat ≤ 131072 ∧ s'.cfg.bitsMoff = s.cfg.bitsMoff ∧
    s'.cfg.maxMlen = s.cfg.maxMlen ∧ s'.cfg.maxLlen = s.cfg.maxLlen ∧ s'.cfg.zeroOffset = s.cfg.zeroOffset ∧ s'.dp.n = s.dp.n ∧
    (∀ i, i < s.dp.n.toNat → dataByte s'.data i = dataByte s.data i) := by decide
theorem test_witness_Start : inError.cfg.valid = true ∧ (decoding bad .err []).cfg.valid = false := by decide
theorem test_witness_LiteralBlock :
    (decoding Cfg.reset .llen [0x41]).dec.phase = .llen ∧ Cfg.reset.maxLlen.toNat ≤ 255 ∧
    (1 : Byte).toNat ≤ (decoding Cfg.reset .llen [0x41]).dec.inp.length ∧ 255 < wide.maxLlen.toNat ∧
    (1 : BitVec 7).toNat ≤ (decoding wide .llen [0x41]).dec.inp.length := by decide
theorem test_witness_LiteralBlock_wide :
    (decoding wide .llen (List.replicate 128 0)).dec.phase = .llen ∧ 255 < wide.maxLlen.toNat ∧
    128 + (0 : BitVec 7).toNat + 128 * (0 : Byte).toNat ≤ (decoding wide .llen (List.replicate 128 0)).dec.inp.length :=
  ⟨rfl, by decide, by simp [decoding]⟩
theorem test_witness_CutLiteral :
    (decoding Cfg.reset .llen [0x41]).dec.phase = .llen ∧ (decoding Cfg.reset .llen [0x41]).dec.inEnd = true ∧
    (decoding Cfg.reset .llen [0x41]).dec.inp.length < (2 : Byte).toNat ∧ Cfg.reset.maxLlen.toNat ≤ 255 ∧
    255 < wide.maxLlen.toNat ∧ (decoding wide .llen []).dec.inp.length < (1 : BitVec 7).toNat ∧
    (decoding wide .llen [0x41]).dec.inp.length < 128 + (0 : BitVec 7).toNat + 128 * (0 : Byte).toNat := by decide
/-- A length cut in the stream and in a run, an offset field cut behind a match length and on its own. -/
theorem test_witness_MissingFieldByte :
    (decoding wide .llen [0x80]).dec.inEnd = true ∧ (decoding wide .llen [0x80]).cmdReq = false ∧ 128 ≤ (0x80 : Byte).toNat ∧
    (decoding wide .mlen [0x80]).dec.phase = .mlen ∧ 255 < wide.maxLlen.toNat ∧ 255 < wide.maxMlen.toNat ∧
    wide.valid = true ∧ (decoding wide .idle [0x00, 0xFF]).dec.inp = [0x00, 0xFF] ∧
    (decoding Cfg.reset .mlen []).dec.phase = .mlen ∧ 1 ≤ Cfg.reset.bitsMoff.toNat ∧ Cfg.reset.maxMlen.toNat ≤ 255 ∧
    (decoding { big with zeroOffset := true } .mlen [0x34]).dec.inp = [0x34] ∧ 8 < big.bitsMoff.toNat ∧
    Cfg.zeroOffset { big with zeroOffset := true } = true ∧ (decoding big .offlo [0x34]).dec.phase = .offlo := by decide
theorem test_witness_ZeroMatch :
    (afterAB Cfg.reset .mlen []).dec.phase = .mlen ∧ Cfg.reset.zeroOffset = false ∧ Cfg.reset.maxMlen.toNat ≤ 255 ∧
    wide.zeroOffset = false ∧ 255 < wide.maxMlen.toNat := by decide
theorem test_witness_MatchBlock :
    (afterAB Cfg.reset .mlen [0x01]).dec.phase = .mlen ∧ offsetAhead Cfg.reset [0x01] = some 1 ∧ offsetAhead rle [] = some 0 ∧
    offsetAhead { big with exorOffset := true } [0xFD, 0xFF] = some 2 ∧ Cfg.reset.maxMlen.toNat ≤ 255 ∧ 0 < (255 : Byte).toNat ∧
    255 < wide.maxMlen.toNat ∧ 0 < (127 : BitVec 7).toNat ∧ Cfg.zeroOffset { rle with zeroOffset := true } = true := by decide
theorem test_witness_OffsetField :
    (afterAB rle .offlo []).dec.phase = .offlo ∧ rle.bitsMoff.toNat = 0 ∧ 1 ≤ Cfg.reset.bitsMoff.toNat ∧
    Cfg.reset.bitsMoff.toNat ≤ 8 ∧ 8 < big.bitsMoff.toNat ∧ 8 < ({ big with bitsMoff := 9 } : Cfg).bitsMoff.toNat := by decide
theorem test_witness_EndOfStream :
    ∀ ph ∈ [Phase.llen, .mlen], (decoding Cfg.reset ph []).dec.phase = ph ∧ (decoding Cfg.reset ph []).dec.inp = [] ∧
      (decoding Cfg.reset ph []).dec.inEnd = true := by decide
theorem test_witness_DecStep : (afterAB Cfg.reset .copy []).cfg.valid = true ∧ (afterAB Cfg.reset .done []).cfg.valid = true := by
  decide
/-- Each row of R152: on a byte, at the end of `IN`, with neither. -/
theorem test_witness_DecStep_rows :
    ∀ ph ∈ [Phase.llen, .llen2, .lit, .mlen, .mlen2, .offlo, .offhi, .copy],
      (decoding big ph [0x80, 0x01]).cfg.valid = true ∧ (decoding big ph [0x80, 0x01]).dec.status.state ≠ .err ∧
      (decoding big ph [0x80, 0x01]).dec.phase = ph ∧ (decoding big ph [0x80, 0x01]).dec.inp = [0x80, 0x01] ∧
      (decoding big ph []).dec.inp = [] ∧ (decoding big ph []).dec.inEnd = true ∧ (starving ph).dec.inEnd = false ∧
      8 < (decoding big ph []).cfg.bitsMoff.toNat := by decide
theorem test_witness_RunIsSteps : (decoding Cfg.reset .idle [0x01, 0x41]).cfg.valid = true ∧
    (decoding Cfg.reset .idle [0x01, 0x41]).dec.inEnd = true := by decide
theorem test_witness_EveryStreamEnds : (decoding wide .idle [0x80]).cfg.valid = true ∧
    (decoding wide .idle [0x80]).dec.inEnd = true := by decide
theorem test_witness_TokenStep : (decoding wide .llen [0x80]).cmdReq = false := by decide
theorem test_witness_OutputOnlyGrows :
    (∃ t, step (decoding Cfg.reset .llen [0x01, 0x41]) = .next t) ∧ (decoding Cfg.reset .llen [0x01, 0x41]).cmdReq = false ∧
    ¬ StartsRun (decoding Cfg.reset .llen [0x01, 0x41]) ∧ StartsRun (withCommand 0x41 State.reset) ∧
    ∃ t, step (withCommand 0x41 State.reset) = .next t := by
  refine ⟨⟨_, rfl⟩, by decide, ?_, ?_, _, rfl⟩
  · intro h
    exact absurd h.1 (by decide)
  · exact ⟨by decide, by decide, by decide, .inr (by decide)⟩
theorem test_witness_RingRecent :
    RingHoldsRecentOutput Cfg.reset (afterAB Cfg.reset .mlen [0x06, 0x01]).dec ∧
    ∃ t, step (afterAB Cfg.reset .mlen [0x06, 0x01]) = .next t := by
  refine ⟨?_, _, rfl⟩
  unfold RingHoldsRecentOutput
  decide
theorem test_witness_MemoriesCanonical :
    MemoriesCanonical (afterAB Cfg.reset .mlen [0x06, 0x01]) ∧ ∃ t, step (afterAB Cfg.reset .mlen [0x06, 0x01]) = .next t := by
  refine ⟨?_, _, rfl⟩
  unfold MemoriesCanonical
  decide
theorem test_witness_StatusSound :
    StatusSound (afterAB Cfg.reset .mlen [0x06, 0x01]) ∧ ∃ t, step (afterAB Cfg.reset .mlen [0x06, 0x01]) = .next t := by
  refine ⟨?_, _, rfl⟩
  unfold StatusSound ErrorCodeAgrees PhaseAgrees OffsetPhaseFits
  decide
/-- The offset phases at the ends of their ranges of `BITS_MOFF`: kept out under 0 and 8, let in under 1 and 9 (R64). -/
theorem test_offset_phase_fits :
    ¬ OffsetPhaseFits rle (starving .offlo).dec ∧ OffsetPhaseFits { rle with bitsMoff := 1 } (starving .offlo).dec ∧
    ¬ OffsetPhaseFits rle (starving .offhi).dec ∧ ¬ OffsetPhaseFits Cfg.reset (starving .offhi).dec ∧
    OffsetPhaseFits { rle with bitsMoff := 9 } (starving .offhi).dec := by
  unfold OffsetPhaseFits
  decide
/-- A run, byte steps in every phase an RLE decoder can be in (that of the match length takes the empty offset), OFF.0. -/
theorem test_witness_ComplementIsVoid : (decoding rle .idle [0x01, 0x41, 0x02]).cfg.bitsMoff.toNat = 0 ∧
    (∀ ph ∈ [Phase.idle, .llen, .llen2, .lit, .mlen, .mlen2, .offlo, .copy, .done, .err],
      (decoding rle ph [0x02]).cfg.bitsMoff.toNat = 0 ∧
      ((decoding rle ph [0x02]).dec.phase = .offhi → 8 < (decoding rle ph [0x02]).cfg.bitsMoff.toNat)) ∧
    (decoding rle .offlo []).dec.phase = .offlo := by decide
/-- R142, R144: the byte step that takes the empty offset, with the complement flag set, leaves `OFF` 0 and `SRC` at `pos - 1`. -/
theorem test_decStep_rle :
    nextWith (exec .decStep (afterAB { rle with exorOffset := true } .mlen [0x02]))
      (fun t => decide (t.dec.off = 0 ∧ t.dec.src = 1 ∧ t.dec.phase = .copy)) = true := by decide
theorem test_witness_ZeroMatchOffset :
    (afterAB { Cfg.reset with zeroOffset := true } .offlo []).dec.phase = .offlo ∧
    (afterAB { Cfg.reset with zeroOffset := true } .offlo []).dec.cnt = 0 ∧ 1 ≤ Cfg.reset.bitsMoff.toNat ∧
    Cfg.reset.bitsMoff.toNat ≤ 8 ∧ 8 < big.bitsMoff.toNat ∧
    (afterAB { big with zeroOffset := true } .mlen []).dec.phase = .mlen ∧ Cfg.zeroOffset { big with zeroOffset := true } = true ∧
    ([0x34, 0x12] : List Byte).length = Cfg.offBytes { big with zeroOffset := true } ∧ big.maxMlen.toNat ≤ 255 ∧
    255 < wide.maxMlen.toNat := by decide
theorem test_witness_CutStream :
    State.reset.cfg.valid = true ∧
    (∃ t, exec .decRun (State.reset.setDec (fedWith [0x01, 0x41] State.reset.dec)) = .next t) ∧
    ∃ u, exec .decRun (State.reset.setDec (fedWith (List.take 1 [0x01, 0x41]) State.reset.dec)) = .next u :=
  ⟨by decide, ⟨_, rfl⟩, ⟨_, rfl⟩⟩
/-- V-DP-1: the stream of `"A"` is `01 41`. -/
theorem test_witness_RoundTrip :
    (loaded [0x41] 0).cfg.valid = true ∧ (loaded [0x41] 0).dp.n.toNat ≤ 131072 ∧
    nextWith (exec .dpRun (loaded [0x41] 0))
      (fun t => decide (Emitter.emit Cfg.reset (dataByte t.data) 1 (cellAt t.sp) = some [0x01, 0x41])) = true := by decide

end Sys2Proof.Tests
end

section
/-! PROOFS. The bytes a decoded instruction is read from, and the step that runs the next token of the stream. -/

namespace Sys2Proof

/-- The reading of a length field, over the three tokens it can be: what a literal's and a match's start have in common
(R65, R66). -/
def decodeLength (byteToken : Byte → Instr) (shortToken : BitVec 7 → Instr) (wideToken : BitVec 7 → Byte → Instr)
    (limit : Nat) (ended : Bool) : List Byte → Decoded
  | [] => if ended then .instr .eos [] else .reject .noByte
  | c :: rest =>
    if wideLimit limit then
      if c.toNat < 128 then .instr (shortToken (c.setWidth 7)) rest
      else match rest with
        | [] => .reject .cutField
        | c2 :: rest' => .instr (wideToken (c.setWidth 7) c2) rest'
    else .instr (byteToken c) rest

theorem decodeLiteral_eq_decodeLength (limit : Nat) (ended : Bool) (bs : List Byte) :
    decodeLiteral limit ended bs = decodeLength .litB .litS .litW limit ended bs := by
  match bs with
  | [] | [_] | _ :: _ :: _ => rfl

theorem decodeMatch_eq_decodeLength (limit : Nat) (ended : Bool) (bs : List Byte) :
    decodeMatch limit ended bs = decodeLength .matB .matS .matW limit ended bs := by
  match bs with
  | [] | [_] | _ :: _ :: _ => rfl

/-- Everything a length field can be read as. -/
theorem decodeLength_cases {byteToken : Byte → Instr} {shortToken : BitVec 7 → Instr}
    {wideToken : BitVec 7 → Byte → Instr} {limit : Nat} {ended : Bool} {bs rest : List Byte} {i : Instr}
    (h : decodeLength byteToken shortToken wideToken limit ended bs = .instr i rest) :
    (ended = true ∧ bs = [] ∧ i = .eos ∧ rest = []) ∨
    (wideLimit limit = false ∧ ∃ c, bs = c :: rest ∧ i = byteToken c) ∨
    (wideLimit limit = true ∧ ∃ c, c.toNat < 128 ∧ bs = c :: rest ∧ i = shortToken (c.setWidth 7)) ∨
    (wideLimit limit = true ∧ ∃ c c2, 128 ≤ c.toNat ∧ bs = c :: c2 :: rest ∧ i = wideToken (c.setWidth 7) c2) := by
  cases bs with
  | nil =>
    cases ended with
    | false => cases h
    | true => cases h; exact .inl ⟨rfl, rfl, rfl, rfl⟩
  | cons c bs =>
    unfold decodeLength at h
    cases hl : wideLimit limit with
    | false =>
      simp only [hl, Bool.false_eq_true, if_false] at h
      cases h
      exact .inr (.inl ⟨rfl, c, rfl, rfl⟩)
    | true =>
      simp only [hl, if_true] at h
      split at h
      next hc => cases h; exact .inr (.inr (.inl ⟨rfl, c, hc, rfl, rfl⟩))
      next hc =>
        cases bs with
        | nil => cases h
        | cons c2 bs => cases h; exact .inr (.inr (.inr ⟨rfl, c, c2, by omega, rfl, rfl⟩))

/-- Everything an offset field can be read as. -/
theorem decodeOffset_cases {n : Nat} {bs rest : List Byte} {i : Instr} (h : decodeOffset n bs = .instr i rest) :
    (n = 0 ∧ bs = rest ∧ i = .off0) ∨ (n = 1 ∧ ∃ b0, bs = b0 :: rest ∧ i = .off1 b0) ∨
    (n ≠ 0 ∧ n ≠ 1 ∧ ∃ b0 b1, bs = b0 :: b1 :: rest ∧ i = .off2 b0 b1) := by
  unfold decodeOffset at h
  split at h
  next h0 => cases h; exact .inl ⟨h0, rfl, rfl⟩
  next h0 =>
    cases bs with
    | nil => cases h
    | cons b0 bs =>
      simp only at h
      split at h
      next h1 => cases h; exact .inr (.inl ⟨h1, b0, rfl, rfl⟩)
      next h1 =>
        cases bs with
        | nil => cases h
        | cons b1 bs => cases h; exact .inr (.inr ⟨h0, h1, b0, b1, rfl, rfl⟩)

/-- A byte below 128 is its low seven bits. -/
theorem setWidth_lowSeven {c : Byte} (hc : c.toNat < 128) : (c.setWidth 7).setWidth 8 = c := by
  bv_omega

/-- A byte of 128 or more is bit 7 set over its low seven bits (R66). -/
theorem wideFirst_lowSeven {c : Byte} (hc : 128 ≤ c.toNat) : wideFirst (c.setWidth 7) = c := by
  have hor : 2 ^ 7 * 1 + c.toNat % 128 = 2 ^ 7 * 1 ||| c.toNat % 128 := Nat.two_pow_add_eq_or_of_lt (by omega) 1
  have hlow : c.toNat % 128 % 256 = c.toNat % 128 := by omega
  apply BitVec.eq_of_toNat_eq
  calc (wideFirst (c.setWidth 7)).toNat = 2 ^ 7 * 1 ||| c.toNat % 128 := by simp [wideFirst, hlow]
    _ = c.toNat := by omega

/-- A command of the table is encoded as its code (R75). -/
theorem encode_of_decodeCommand {code : Byte} {i : Instr} (h : decodeCommand code = some i) : encode i = [code] := by
  have table : ∀ e ∈ commandTable, encode e.2 = [e.1] := by decide
  obtain ⟨l₁, l₂, hl, -⟩ := List.lookup_eq_some_iff.mp h
  exact table (code, i) (by rw [hl]; simp)

theorem encode_append_of_decodeLength {byteToken : Byte → Instr} {shortToken : BitVec 7 → Instr}
    {wideToken : BitVec 7 → Byte → Instr} (hb : ∀ b, encode (byteToken b) = [b])
    (hs : ∀ lo, encode (shortToken lo) = [lo.setWidth 8]) (hw : ∀ lo hi, encode (wideToken lo hi) = [wideFirst lo, hi])
    {limit : Nat} {ended : Bool} {bs rest : List Byte} {i : Instr}
    (h : decodeLength byteToken shortToken wideToken limit ended bs = .instr i rest) : encode i ++ rest = bs := by
  rcases decodeLength_cases h with
    ⟨-, rfl, rfl, rfl⟩ | ⟨-, c, rfl, rfl⟩ | ⟨-, c, hc, rfl, rfl⟩ | ⟨-, c, c2, hc, rfl, rfl⟩
  · rfl
  · simp [hb]
  · simp [hs, setWidth_lowSeven hc]
  · simp [hw, wideFirst_lowSeven hc]

theorem encode_append_of_decodeOffset {n : Nat} {bs rest : List Byte} {i : Instr}
    (h : decodeOffset n bs = .instr i rest) : encode i ++ rest = bs := by
  rcases decodeOffset_cases h with ⟨-, rfl, rfl⟩ | ⟨-, b0, rfl, rfl⟩ | ⟨-, -, b0, b1, rfl, rfl⟩ <;> rfl

/-- The bytes that decode are the instruction's own, then the rest (R67, R73). -/
theorem encode_append_of_decode {x : Ctx} {bs rest : List Byte} {i : Instr} (h : decode x bs = .instr i rest) :
    encode i ++ rest = bs := by
  unfold decode at h
  cases hx : x.slot with
  | command =>
    cases bs with
    | nil => simp [hx] at h
    | cons code bs =>
      cases hc : decodeCommand code with
      | none => simp [hx, hc] at h
      | some j =>
        simp only [hx, hc, Decoded.instr.injEq] at h
        obtain ⟨rfl, rfl⟩ := h
        simp [encode_of_decodeCommand hc]
  | literalLength =>
    simp only [hx, decodeLiteral_eq_decodeLength] at h
    exact encode_append_of_decodeLength (fun _ => rfl) (fun _ => rfl) (fun _ _ => rfl) h
  | matchLength =>
    simp only [hx, decodeMatch_eq_decodeLength] at h
    exact encode_append_of_decodeLength (fun _ => rfl) (fun _ => rfl) (fun _ _ => rfl) h
  | offsetField =>
    simp only [hx] at h
    exact encode_append_of_decodeOffset h

end Sys2Proof

namespace Sys2Proof.Machine

open Sys2Proof.Safety

/-- Where no command begins, the step is the stream's. -/
theorem step_of_noCommandBegins {s : State} (h : NoCommandBegins s) : step s = streamStep s := by
  rcases step_cases s with ⟨i, hr, hi, hb, -⟩ | ⟨hr, hn, -⟩ | ⟨-, hs⟩
  · rcases h with hr' | ⟨j, hj, hb'⟩
    · simp [hr] at hr'
    · obtain rfl : i = j := Option.some.inj (hi.symm.trans hj)
      simp [hb] at hb'
  · rcases h with hr' | ⟨j, hj, -⟩
    · simp [hr] at hr'
    · simp [hn] at hj
  · exact hs

/-- A fetched token runs behind its bytes. -/
theorem streamStep_of_fetchToken {s : State} {i : Instr} {rest : List Byte} (h : fetchToken s = some (i, rest)) :
    streamStep s = exec i (consume rest s) := by
  simp [streamStep, h]

/-- Consuming a decoded token advances `DEC.IP` by the size of its encoding (R26). -/
theorem consume_of_decode {s : State} {x : Ctx} {i : Instr} {rest : List Byte} (h : decode x s.dec.inp = .instr i rest) :
    consume rest s = { s with dec := { s.dec with inp := rest, ip := s.dec.ip + (encode i).length } } := by
  have hlen : s.dec.inp.length - rest.length = (encode i).length := by
    simp [← encode_append_of_decode h]
  simp [consume, State.setDec, hlen]

/-- Settles O7: the step is the stream's, and the bytes it consumes are the token's encoding. -/
theorem stepRunsNextToken : Obligations.StepRunsNextToken := by
  intro s x i rest hno hx hd
  calc step s = streamStep s := step_of_noCommandBegins hno
    _ = exec i (consume rest s) := streamStep_of_fetchToken (fetchToken_eq_some.mpr ⟨x, hx, hd⟩)
    _ = _ := by rw [consume_of_decode hd]

end Sys2Proof.Machine
end

section
/-! PROOFS. The state after reset, the validity of a configuration, and the host's write of a register. -/

namespace Sys2Proof

namespace Cfg

theorem maxOff_eq_two_pow (c : Cfg) : c.maxOff = 2 ^ c.bits := by
  simp [Cfg.maxOff, Nat.one_shiftLeft]

/-- `BITS_MOFF` reads back as the low five bits of what was written (R10, R19). -/
theorem setWidth_five_eq_and (v : BitVec 16) : (v.setWidth 5).setWidth 16 = v &&& 0x1F := by
  apply BitVec.eq_of_toNat_eq
  have hmod : v.toNat &&& 31 = v.toNat % 2 ^ 5 := Nat.and_two_pow_sub_one_eq_mod v.toNat 5
  simp [hmod]
  omega

/-- `FLAGS` reads back as the low three bits of what was written (R10, R19). -/
theorem flags_eq_and (v : BitVec 16) :
    (BitVec.ofBool (v.getLsbD 0)).setWidth 16 ||| ((BitVec.ofBool (v.getLsbD 1)).setWidth 16 <<< 1) |||
      ((BitVec.ofBool (v.getLsbD 2)).setWidth 16 <<< 2) = v &&& 0x7 := by
  ext i hi
  interval_cases i <;> simp [BitVec.getElem_setWidth]

/-- A register reads back the value written, at its width (R10, R19). -/
theorem readReg_writeReg_same {c c' : Cfg} {v : BitVec 16} {k : Nat} (hw : c.writeReg v k = some c') :
    c'.readReg k = some (v &&& (if k = 0 then 0x1F else if k = 3 then 0x7 else 0xFFFF)) := by
  have hfull : v = v &&& 0xFFFF := BitVec.and_allOnes.symm
  match k with
  | 0 => cases hw; exact congrArg some (setWidth_five_eq_and v)
  | 3 => cases hw; exact congrArg some (flags_eq_and v)
  | 1 | 2 | 4 => cases hw; exact congrArg some hfull
  | _ + 5 => cases hw

/-- The registers that are not written read as before (R19). -/
theorem readReg_writeReg_other {c c' : Cfg} {v : BitVec 16} {j k : Nat} (hw : c.writeReg v k = some c') (hj : j ≠ k) :
    c'.readReg j = c.readReg j := by
  match k with
  | 0 | 1 | 2 | 3 | 4 =>
    cases hw
    match j with
    | 0 | 1 | 2 | 3 | 4 | _ + 5 => simp_all [readReg]
  | _ + 5 => cases hw

theorem exists_writeReg_eq_some (c : Cfg) (v : BitVec 16) {k : Nat} (hk : k ≤ 4) : ∃ c', c.writeReg v k = some c' := by
  match k with
  | 0 | 1 | 2 | 3 | 4 => exact ⟨_, rfl⟩
  | _ + 5 => omega

/-- Settles O14: the tests of `CfgValid` one by one, with `max_off` as a power of two (R17). -/
theorem configurationValidity : Obligations.ConfigurationValidity := by
  intro c
  have himp : (!c.offsetRelEn ||
      ((decide (c.bits = 8) || decide (c.bits = 16)) && decide (c.offsetRel.toNat ≤ c.maxOff - 1))) = true ↔
      (c.offsetRelEn = true → (c.bits = 8 ∨ c.bits = 16) ∧ c.offsetRel.toNat ≤ 2 ^ c.bits - 1) := by
    rw [maxOff_eq_two_pow]
    cases c.offsetRelEn <;> simp
  simp only [Cfg.valid, Bool.and_eq_true, himp, decide_eq_true_eq, and_assoc]

end Cfg

namespace Machine

open Sys2Proof.Safety

theorem anyBusy_iff (s : State) :
    anyBusy s = true ↔ s.mf.status.state = .busy ∨ s.dp.status.state = .busy ∨ s.dec.status.state = .busy := by
  simp [anyBusy, or_assoc]

/-- With no unit busy a write of an existing register leaves the configuration the write gives, also where it changes
nothing. -/
theorem hostAct_writeCfg {s : State} {k : Nat} {v : BitVec 16} {c : Cfg} (hb : anyBusy s = false)
    (hw : s.cfg.writeReg v k = some c) : ∃ t, hostAct (.writeCfg k v) s = .next t ∧ t.cfg = c := by
  by_cases hc : c = s.cfg
  · exact ⟨s, by simp [hostAct, hb, hw, hc], hc.symm⟩
  · exact ⟨{ voidFill s with cfg := c }, by simp [hostAct, hb, hw, hc], rfl⟩

/-- Settles O18: a busy unit refuses the write; otherwise the configuration is the one `writeReg` gives. -/
theorem hostWriteOfConfiguration : Obligations.HostWriteOfConfiguration := by
  intro s v
  refine ⟨fun hbusy k => ?_, fun hidle k hk => ?_⟩
  · simp [hostAct, (anyBusy_iff s).mpr hbusy]
  · have hb : anyBusy s = false := by
      rw [Bool.eq_false_iff, Ne, anyBusy_iff]
      simpa using hidle
    obtain ⟨c, hw⟩ := s.cfg.exists_writeReg_eq_some v hk
    obtain ⟨t, ht, rfl⟩ := hostAct_writeCfg hb hw
    exact ⟨t, ht, Cfg.readReg_writeReg_same hw, fun j hj => Cfg.readReg_writeReg_other hw hj⟩

@[simp] theorem cellAt_nil (p : Nat) : cellAt [] p = Config.spPowerOn p := rfl

@[simp] theorem dataByte_nil (i : Nat) : dataByte [] i = Config.dataPowerOn i := rfl

@[simp] theorem ringByte_nil (c : Cfg) (i : Nat) : ringByte c [] i = Config.ringPowerOn (c.ringIndex i) := rfl

theorem ringIndex_of_le_mask {c : Cfg} {i : Nat} (h : i ≤ c.mask) : c.ringIndex i = i := by
  rw [c.ringIndex_eq_mod, Nat.mod_eq_of_lt (by omega)]

/-- Settles O13: the registers hold the values R32 lists, and every read of a memory finds nothing written. -/
theorem resetValues : Obligations.ResetValues := by
  have hring : ∀ i, i ≤ State.reset.cfg.mask →
      ringByte State.reset.cfg State.reset.dec.ring i = Config.ringPowerOn i := fun i hi => by
    rw [show State.reset.dec.ring = [] from rfl, ringByte_nil, ringIndex_of_le_mask hi]
  unfold Obligations.ResetValues
  simpa [State.reset, Cfg.reset, Status.reset, UnitState.code, ErrKind.code, Expected.code, Choice.code] using hring

/-- Settles O37: at reset there is no fill mark, nothing is written, no unit has run and no byte is output. -/
theorem resetMeetsInvariants : Obligations.ResetMeetsInvariants := by
  have hfill : FillMarkSound State.reset := fun n f h => by cases h
  have hmem : MemoriesCanonical State.reset := by
    obtain ⟨hdata, hring, hsp⟩ := reset_wf
    exact ⟨hring, hdata, hsp, by simp [State.reset]⟩
  have hstatus : StatusSound State.reset := by
    simp [StatusSound, State.reset, Status.reset, ErrorCodeAgrees, PhaseAgrees, OffsetPhaseFits]
  have hout : RingHoldsRecentOutput State.reset.cfg State.reset.dec := by
    simp [RingHoldsRecentOutput, State.reset]
  exact ⟨hfill, hmem, hstatus, hout⟩

end Machine

end Sys2Proof
end

section
/-! PROOFS. What each instruction writes, and the soundness of the decoder's status under every operation that changes
it. -/

namespace Sys2Proof.Machine

open Sys2Proof.Safety

/-! ## The status registers -/

/-- `STATE` as the phase has it (R26, R27). -/
def Phase.unitState : Phase → UnitState
  | .idle => .idle
  | .done => .done
  | .err => .err
  | .llen | .llen2 | .lit | .mlen | .mlen2 | .offlo | .offhi | .copy => .busy

theorem phaseAgrees_iff (d : Dec) : PhaseAgrees d ↔ d.status.state = d.phase.unitState := by
  unfold PhaseAgrees Phase.unitState
  cases d.phase <;> rfl

/-- A decoder where a token may stand is running (R73, R136). -/
theorem Phase.unitState_of_slot {p : Phase} {k : Slot} (h : p.slot = some k) : p.unitState = .busy := by
  match p with
  | .llen | .mlen | .offlo => rfl
  | .llen2 | .lit | .mlen2 | .offhi | .copy | .idle | .done | .err => cases h

/-- What `StatusSound` asks of the status of `MF` and of `DP`. -/
def Status.Settled (st : Status) : Prop := ErrorCodeAgrees st ∧ st.state ≠ .busy

theorem Status.settled_completed : Status.completed.Settled := by
  simp [Status.Settled, Status.completed, ErrorCodeAgrees]

theorem Status.settled_raised {kind : ErrKind} (h : kind ≠ .none) : (Status.raised kind).Settled := by
  simp [Status.Settled, Status.raised, ErrorCodeAgrees, h]

namespace Dec

/-- What `StatusSound` asks of the decoder. -/
structure Sound (c : Cfg) (d : Dec) : Prop where
  errorCode : ErrorCodeAgrees d.status
  phase : PhaseAgrees d
  bytesLeft : d.phase = .lit ∨ d.phase = .copy → 1 ≤ d.cnt
  cntLe : d.cnt ≤ Config.lenMax
  offsetPhase : OffsetPhaseFits c d

/-- A decoder in a run, in whatever phase: every operation of a run starts from such a one. -/
structure Running (d : Dec) : Prop where
  status : d.status = Status.started
  cntLe : d.cnt ≤ Config.lenMax

variable {c : Cfg} {d : Dec}

theorem Sound.running (h : d.Sound c) (hp : d.phase.unitState = .busy) : d.Running := by
  obtain ⟨hcode, hphase, -, hcnt, -⟩ := h
  have hstate : d.status.state = .busy := ((phaseAgrees_iff d).mp hphase).trans hp
  have hnone : d.status.errcode = .none := by simpa [ErrorCodeAgrees, hstate] using hcode
  exact ⟨by rw [Status.started, ← hstate, ← hnone], hcnt⟩

/-- Bytes that come in or are taken do not touch what soundness speaks of. -/
theorem Sound.withInput (h : d.Sound c) (inp : List Byte) (ip : Nat) : Sound c { d with inp := inp, ip := ip } :=
  ⟨h.errorCode, h.phase, h.bytesLeft, h.cntLe, h.offsetPhase⟩

theorem Running.withInput (h : d.Running) (inp : List Byte) (ip : Nat) : Running { d with inp := inp, ip := ip } :=
  ⟨h.status, h.cntLe⟩

theorem Running.sound (h : d.Running) (hp : d.phase.unitState = .busy)
    (hleft : d.phase = .lit ∨ d.phase = .copy → 1 ≤ d.cnt) (hoff : OffsetPhaseFits c d) : d.Sound c := by
  refine ⟨?_, ?_, hleft, h.cntLe, hoff⟩
  · simp [ErrorCodeAgrees, h.status, Status.started]
  · simp [phaseAgrees_iff, hp, h.status, Status.started]

/-- A running decoder may wait at a length field, whatever `CFG` and `DEC.CNT` say. -/
theorem Running.sound_atLength (h : d.Running) {p : Phase} (hp : p ∈ [Phase.llen, .llen2, .mlen, .mlen2]) :
    Sound c { d with phase := p } := by
  obtain rfl | rfl | rfl | rfl : p = .llen ∨ p = .llen2 ∨ p = .mlen ∨ p = .mlen2 := by simpa using hp
  all_goals exact Running.sound ⟨h.status, h.cntLe⟩ rfl (by simp) (by simp [OffsetPhaseFits])

theorem sound_raiseCfg (h : d.cnt ≤ Config.lenMax) : d.raiseCfg.Sound c := by
  refine ⟨?_, ?_, ?_, h, ?_⟩ <;> simp [ErrorCodeAgrees, PhaseAgrees, OffsetPhaseFits, Status.raised]

theorem Running.sound_raiseTruncated (h : d.Running) (e : Expected) : (d.raiseTruncated e).Sound c := by
  refine ⟨?_, ?_, ?_, h.cntLe, ?_⟩ <;> simp [ErrorCodeAgrees, PhaseAgrees, OffsetPhaseFits, Status.raised]

theorem Running.sound_finish (h : d.Running) : d.finish.Sound c := by
  refine ⟨?_, ?_, ?_, h.cntLe, ?_⟩ <;>
    simp [ErrorCodeAgrees, PhaseAgrees, OffsetPhaseFits, Status.finished, h.status, Status.started]

theorem running_start (d : Dec) : d.start.Running := ⟨rfl, Nat.zero_le _⟩

theorem sound_start (d : Dec) : d.start.Sound c := (running_start d).sound_atLength (p := .llen) (by simp)

/-! ## Block by block -/

theorem Running.sound_literalLoop (h : d.Running) (n : Nat) (hn : d.cnt = n) : (d.literalLoop c n).Sound c := by
  induction n generalizing d with
  | zero => exact h.sound_atLength (by simp)
  | succ n ih =>
    rcases inByte_cases d with ⟨b, rest, hinp, -⟩ | ⟨-, -, heof⟩ | ⟨-, -, hwait⟩
    · rw [literalLoop_cons c n hinp]
      have hcnt := h.cntLe
      exact ih ⟨h.status, by simp; omega⟩ (by simp [hn])
    · simpa [literalLoop, heof] using h.sound_raiseTruncated .literalByte
    · have hlit : Sound c { d with phase := .lit } :=
        Running.sound ⟨h.status, h.cntLe⟩ rfl (fun _ => by simp [hn]) (by simp [OffsetPhaseFits])
      simpa [literalLoop, hwait] using hlit

theorem Running.sound_literal (h : d.Running) {n : Nat} (hn : n ≤ Config.lenMax) : (d.literal c n).Sound c :=
  Running.sound_literalLoop (d := { d with cnt := n }) ⟨h.status, hn⟩ n rfl

/-- A copy ends where a literal length is expected (R147). -/
theorem Running.sound_copy (h : d.Running) : (d.copy c).Sound c := by
  obtain ⟨-, -, -, hstatus, -, -, hphase, -, hcnt⟩ := copyLoop_frame c d.cnt d
  have hrun : (d.copy c).Running := ⟨hstatus.trans h.status, by simp [copy, hcnt]⟩
  exact hrun.sound (by simp [copy, hphase, Phase.unitState]) (by simp [copy, hphase])
    (by simp [copy, hphase, OffsetPhaseFits])

theorem Running.sound_finishOffset (h : d.Running) : (d.finishOffset c).Sound c :=
  Running.sound_copy (d := d.computeSrc c) ⟨h.status, h.cntLe⟩

theorem Running.sound_rleCopy (h : d.Running) : ((d.rleSrc c).copy c).Sound c :=
  Running.sound_copy (d := d.rleSrc c) ⟨h.status, h.cntLe⟩

theorem Running.lowOffset (h : d.Running) (b : Byte) : (d.lowOffset b).Running := ⟨h.status, h.cntLe⟩

theorem Running.highOffset (h : d.Running) (b : Byte) : (d.highOffset b).Running := ⟨h.status, h.cntLe⟩

/-- Waiting for the first offset byte, where the field has one (R64). -/
theorem Running.sound_atFirstOffset (h : d.Running) (hb : c.bits ≠ 0) : Sound c { d with phase := .offlo } :=
  Running.sound ⟨h.status, h.cntLe⟩ rfl (by simp) (by simpa [OffsetPhaseFits, Nat.one_le_iff_ne_zero] using hb)

/-- Waiting for the second offset byte, where the field has one (R64). -/
theorem Running.sound_atSecondOffset (h : d.Running) (hb : 8 < c.bits) : Sound c { d with phase := .offhi } :=
  Running.sound ⟨h.status, h.cntLe⟩ rfl (by simp) (by simpa [OffsetPhaseFits] using hb)

/-- The offset field with its copy: each of its bytes is there, is cut off, or is waited for (R141, R170). -/
theorem Running.sound_offsetField (h : d.Running) : (d.offsetField c).Sound c := by
  unfold Dec.offsetField
  split
  next => exact h.sound_rleCopy
  next hb0 =>
    rcases inByte_cases d with ⟨b0, rest, -, h0⟩ | ⟨-, -, h0⟩ | ⟨-, -, h0⟩ <;> rw [h0]
    · have hlow := (h.withInput rest (d.ip + 1)).lowOffset b0
      simp only
      split
      next hb8 =>
        rcases inByte_cases (Dec.lowOffset b0 { d with inp := rest, ip := d.ip + 1 }) with
          ⟨b1, rest', -, h1⟩ | ⟨-, -, h1⟩ | ⟨-, -, h1⟩ <;> rw [h1]
        · exact ((hlow.withInput _ _).highOffset b1).sound_finishOffset
        · exact hlow.sound_raiseTruncated _
        · exact hlow.sound_atSecondOffset hb8
      next => exact hlow.sound_finishOffset
    · exact h.sound_raiseTruncated _
    · exact h.sound_atFirstOffset hb0

theorem Running.sound_matchBlock (h : d.Running) {n : Nat} (hn : n ≤ Config.lenMax) : (d.matchBlock c n).Sound c := by
  have hrun : Running { d with cnt := n } := ⟨h.status, hn⟩
  unfold Dec.matchBlock
  split
  · exact hrun.sound_offsetField
  · exact hrun.sound_atLength (by simp)

end Dec

/-- A length in a byte, or in seven bits of one, is within `LEN_MAX` (R5, R65). -/
theorem toNat_le_lenMax {w : Nat} (hw : w ≤ 8) (b : BitVec w) : b.toNat ≤ Config.lenMax := by
  have hb := b.isLt
  have hpow : 2 ^ w ≤ 2 ^ 8 := Nat.pow_le_pow_right (by omega) hw
  simp only [Config.lenMax]
  omega

/-- The largest two-byte length is `LEN_MAX` (R5, R66). -/
theorem wideLength_le_lenMax (b b2 : Byte) : wideLength b b2 ≤ Config.lenMax := by
  have hb := b.isLt
  have hb2 := b2.isLt
  simp only [wideLength, Nat.shiftLeft_eq, Config.lenMax]
  omega

namespace Dec

variable {c : Cfg} {d : Dec}

/-- `GetLen` answers a length within `LEN_MAX` and goes on with the run, or stops soundly (R138). -/
theorem Sound.getLen_cases (h : d.Sound c) (hp : d.phase.unitState = .busy) (limit : Nat) {second : Phase}
    (h2 : second = .llen2 ∨ second = .mlen2) :
    (∃ d', d.getLen limit second = .stop d' ∧ d'.Sound c) ∨
    (∃ n d', d.getLen limit second = .length n d' ∧ n ≤ Config.lenMax ∧ d'.Running) := by
  have hrun := h.running hp
  unfold Dec.getLen
  rcases inByte_cases d with ⟨b, rest, -, h0⟩ | ⟨-, -, h0⟩ | ⟨-, -, h0⟩ <;> rw [h0]
  · have hrun1 := hrun.withInput rest (d.ip + 1)
    simp only
    split
    next => exact .inr ⟨_, _, rfl, toNat_le_lenMax le_rfl b, hrun1⟩
    next =>
      have hrun2 : Running { d with inp := rest, ip := d.ip + 1, lenlo := b } := ⟨hrun.status, hrun.cntLe⟩
      rcases inByte_cases { d with inp := rest, ip := d.ip + 1, lenlo := b } with
        ⟨b2, rest', -, h1⟩ | ⟨-, -, h1⟩ | ⟨-, -, h1⟩ <;> rw [h1]
      · exact .inr ⟨_, _, rfl, wideLength_le_lenMax b b2, hrun2.withInput _ _⟩
      · exact .inl ⟨_, rfl, hrun2.sound_raiseTruncated _⟩
      · exact .inl ⟨_, rfl, hrun2.sound_atLength (by rcases h2 with rfl | rfl <;> simp)⟩
  · exact .inl ⟨_, rfl, hrun.sound_finish⟩
  · exact .inl ⟨_, rfl, h⟩

theorem Sound.loop (h : d.Sound c) (hp : d.phase = .llen) (k : Nat) : (d.loop c k).Sound c := by
  induction k generalizing d with
  | zero => exact h
  | succ k ih =>
    unfold Dec.loop
    rcases h.getLen_cases (by rw [hp]; rfl) c.llenLimit (.inl rfl) with ⟨d1, h1, hs1⟩ | ⟨n, d1, h1, hn, hr1⟩ <;> rw [h1]
    · exact hs1
    · have hlit : (d1.literal c n).Sound c := hr1.sound_literal hn
      simp only
      split
      next hmlen =>
        rcases hlit.getLen_cases (by rw [hmlen]; rfl) c.mlenLimit (.inr rfl) with ⟨d3, h3, hs3⟩ |
          ⟨m, d3, h3, hm, hr3⟩ <;> rw [h3]
        · exact hs3
        · have hmat : (d3.matchBlock c m).Sound c := hr3.sound_matchBlock hm
          simp only
          split
          next hllen => exact ih hmat hllen
          next => exact hmat
      next => exact hlit

theorem sound_run (d : Dec) : (d.run c).Sound c := (sound_start d).loop rfl _

/-! ## Byte by byte -/

theorem Running.sound_afterLLen (h : d.Running) : d.afterLLen.Sound c := by
  unfold Dec.afterLLen
  split
  next hpos => exact Running.sound ⟨h.status, h.cntLe⟩ rfl (fun _ => hpos) (by simp [OffsetPhaseFits])
  next => exact h.sound_atLength (by simp)

theorem Running.sound_afterSrc (h : d.Running) : d.afterSrc.Sound c := by
  unfold Dec.afterSrc
  split
  next hpos => exact Running.sound ⟨h.status, h.cntLe⟩ rfl (fun _ => hpos) (by simp [OffsetPhaseFits])
  next => exact h.sound_atLength (by simp)

theorem Running.sound_afterOff (h : d.Running) : (d.afterOff c).Sound c :=
  Running.sound_afterSrc (d := d.computeSrc c) ⟨h.status, h.cntLe⟩

theorem Running.sound_rleAfterSrc (h : d.Running) : ((d.rleSrc c).afterSrc).Sound c :=
  Running.sound_afterSrc (d := d.rleSrc c) ⟨h.status, h.cntLe⟩

theorem Running.sound_afterMLen (h : d.Running) : (d.afterMLen c).Sound c := by
  unfold Dec.afterMLen
  split
  next => exact h.sound_atLength (by simp)
  next =>
    split
    next => exact h.sound_rleAfterSrc
    next hb => exact h.sound_atFirstOffset hb

/-- Behind a byte of a literal or of a copy: with none left the next length field is due, else the phase stays. -/
theorem Running.sound_afterDataByte (h : d.Running) (hd : d.phase = .lit ∨ d.phase = .copy) {p : Phase}
    (hp : p = .llen ∨ p = .mlen) : Sound c (if d.cnt = 0 then { d with phase := p } else d) := by
  split
  next => exact h.sound_atLength (by rcases hp with rfl | rfl <;> simp)
  next hne =>
    refine h.sound ?_ (fun _ => by omega) ?_
    · rcases hd with hd | hd <;> rw [hd] <;> rfl
    · rcases hd with hd | hd <;> simp [OffsetPhaseFits, hd]

/-- The byte a length field begins with: the two-byte form waits for its second byte, the one-byte form is the length. -/
theorem Running.sound_afterLengthByte (h : d.Running) {long : Prop} [Decidable long] {second : Phase} {b : Byte}
    {next : Dec → Dec} (h2 : second = .llen2 ∨ second = .mlen2) (hnext : ∀ d' : Dec, d'.Running → (next d').Sound c) :
    Sound c (if long then { d with lenlo := b, phase := second } else next { d with cnt := b.toNat }) := by
  split
  next =>
    exact Running.sound_atLength (d := { d with lenlo := b }) ⟨h.status, h.cntLe⟩ (by rcases h2 with rfl | rfl <;> simp)
  next => exact hnext _ ⟨h.status, toNat_le_lenMax le_rfl b⟩

/-- A row of R152: sound on a byte, sound at the end, and with neither the decoder stays. -/
theorem Sound.onByte (h : d.Sound c) (hrun : d.Running) {atByte : Byte → Dec → Dec} {atEnd : Dec}
    (hbyte : ∀ b d', d'.Running → d'.phase = d.phase → (atByte b d').Sound c) (hend : atEnd.Sound c) :
    (d.onByte atByte atEnd).Sound c := by
  unfold Dec.onByte
  rcases inByte_cases d with ⟨b, rest, -, h0⟩ | ⟨-, -, h0⟩ | ⟨-, -, h0⟩ <;> rw [h0]
  · exact hbyte b _ (hrun.withInput _ _) rfl
  · exact hend
  · exact h

/-- The rows of R152 in which the decoder is running. -/
theorem Sound.byteStep_of_running (h : d.Sound c) (hrun : d.Running) : (d.byteStep c).Sound c := by
  cases hp : d.phase <;> simp only [Dec.byteStep, hp]
  case llen =>
    exact h.onByte hrun (fun b d' hrun' _ => hrun'.sound_afterLengthByte (.inl rfl) fun _ => (·.sound_afterLLen))
      hrun.sound_finish
  case llen2 =>
    exact h.onByte hrun
      (fun b d' hrun' _ => Running.sound_afterLLen (d := { d' with cnt := _ }) ⟨hrun'.status, wideLength_le_lenMax _ b⟩)
      (hrun.sound_raiseTruncated _)
  case lit =>
    refine h.onByte hrun (fun b d' hrun' hp' => ?_) (hrun.sound_raiseTruncated _)
    have hrun'' : (d'.literalByte c b).Running := ⟨hrun'.status, (Nat.sub_le _ _).trans hrun'.cntLe⟩
    exact hrun''.sound_afterDataByte (.inl (hp'.trans hp)) (.inr rfl)
  case mlen =>
    exact h.onByte hrun (fun b d' hrun' _ => hrun'.sound_afterLengthByte (.inr rfl) fun _ => (·.sound_afterMLen))
      hrun.sound_finish
  case mlen2 =>
    exact h.onByte hrun
      (fun b d' hrun' _ => Running.sound_afterMLen (d := { d' with cnt := _ }) ⟨hrun'.status, wideLength_le_lenMax _ b⟩)
      (hrun.sound_raiseTruncated _)
  case offlo =>
    split
    next => exact hrun.sound_rleAfterSrc
    next =>
      refine h.onByte hrun (fun b d' hrun' _ => ?_) (hrun.sound_raiseTruncated _)
      split
      next hb8 => exact (hrun'.lowOffset b).sound_atSecondOffset hb8
      next => exact (hrun'.lowOffset b).sound_afterOff
  case offhi =>
    exact h.onByte hrun (fun b d' hrun' _ => (hrun'.highOffset b).sound_afterOff) (hrun.sound_raiseTruncated _)
  case copy =>
    have hrun' : (d.copyByte c).Running := ⟨hrun.status, (Nat.sub_le _ _).trans hrun.cntLe⟩
    exact hrun'.sound_afterDataByte (.inr hp) (.inl rfl)
  case idle | done | err => exact h

/-- A decoder that is not running stays as it is. -/
theorem byteStep_of_not_busy (hp : d.phase.unitState ≠ .busy) : d.byteStep c = d := by
  unfold Dec.byteStep
  cases hd : d.phase <;> simp [hd, Phase.unitState] at hp ⊢

theorem Sound.byteStep (h : d.Sound c) : (d.byteStep c).Sound c := by
  by_cases hp : d.phase.unitState = .busy
  · exact h.byteStep_of_running (h.running hp)
  · rwa [byteStep_of_not_busy hp]

end Dec
end Sys2Proof.Machine
end

section
/-! PROOFS. What an instruction may write, unit by unit, and the two statements that rest on it. -/

namespace Sys2Proof.Machine

open Sys2Proof.Safety

theorem statusSound_iff (s : State) :
    StatusSound s ↔ s.mf.status.Settled ∧ s.dp.status.Settled ∧ s.dec.Sound s.cfg := by
  constructor
  · rintro ⟨hmf, hdp, ⟨hcode, hphase⟩, hleft, hcnt, hoff⟩
    exact ⟨hmf, hdp, hcode, hphase, hleft, hcnt, hoff⟩
  · rintro ⟨hmf, hdp, hcode, hphase, hleft, hcnt, hoff⟩
    exact ⟨hmf, hdp, ⟨hcode, hphase⟩, hleft, hcnt, hoff⟩

/-- What an instruction that answers a next state can have written, one case for each unit (R9, R29): the other fields are
those of the state before, and what is written keeps the status registers sound. -/
inductive UnitWrites (s : State) : Instr → State → Prop
  | nop : UnitWrites s .nop s
  | cost {i : Instr} (hi : i ∈ [Instr.cmMoff, .cmMlen, .cmZmc, .cmLlen]) (r : CmResult) :
      UnitWrites s i (s.setCm { s.cm with result := r })
  | finder (r : MfRegs) (held : Nat) (hr : r.status.Settled) : UnitWrites s .mfFind { s with mf := r, held := held }
  | parser {i : Instr} (hi : i ∈ [Instr.dpInit, .dpFill, .dpRun, .dpSelect]) (r : DpRegs) (sp : Table)
      (free held : Nat) (hfree : free ≠ s.freeCount → i = .dpFill)
      (hheld : held ≠ s.held → i ∈ [Instr.dpInit, .dpFill, .dpRun])
      (hr : s.dp.status.Settled → r.status.Settled) :
      UnitWrites s i { s with dp := r, sp := sp, freeCount := free, held := held }
  | decoder {i : Instr} (hi : i ∉ [Instr.nop, .cmMoff, .cmMlen, .cmZmc, .cmLlen, .mfFind, .dpInit, .dpFill, .dpRun,
        .dpSelect]) (d : Dec) (hd : s.dec.Sound s.cfg → d.Sound s.cfg) :
      UnitWrites s i (s.setDec d)

variable {s t : State} {i : Instr}

theorem execMfFind_writes (h : execMfFind s = .next t) : UnitWrites s .mfFind t := by
  rcases execMfFind_cases s with ⟨-, he⟩ | ⟨-, -, he⟩ | ⟨-, -, -, he⟩ | ⟨-, -, -, he⟩ <;> rw [he] at h <;> cases h
  · exact .finder _ s.held (Status.settled_raised (by decide))
  · exact .finder _ s.held (Status.settled_raised (by decide))
  · exact .finder _ _ Status.settled_completed

/-- A command of `DP` that only changes the registers of `DP`. -/
theorem setDp_writes (hi : i ∈ [Instr.dpInit, .dpFill, .dpRun, .dpSelect]) (r : DpRegs)
    (hr : s.dp.status.Settled → r.status.Settled) : UnitWrites s i (s.setDp r) :=
  .parser hi r s.sp s.freeCount s.held (fun h => absurd rfl h) (fun h => absurd rfl h) hr

theorem raiseDp_writes (hi : i ∈ [Instr.dpInit, .dpFill, .dpRun, .dpSelect]) {kind : ErrKind} (hk : kind ≠ .none) :
    UnitWrites s i (s.setDp (s.dp.raise kind)) :=
  setDp_writes hi _ fun _ => Status.settled_raised hk

/-- A fresh start of `DP` that is complete at once (R100, R101). -/
theorem completedDp_writes (hi : i = .dpInit ∨ i = .dpRun) {r : DpRegs} (sp : Table) (n : Nat)
    (hr : r.status = Status.completed) : UnitWrites s i (((s.setSp sp).setDp r).holdData n) :=
  .parser (by rcases hi with rfl | rfl <;> decide) r sp s.freeCount (max s.held n) (fun h => absurd rfl h)
    (fun _ => by rcases hi with rfl | rfl <;> decide) (fun _ => hr ▸ Status.settled_completed)

theorem execDpInit_writes (h : execDpInit s = .next t) : UnitWrites s .dpInit t := by
  rcases execDpInit_cases s with ⟨-, he⟩ | ⟨-, -, he⟩ | ⟨-, -, he⟩ <;> rw [he] at h <;> cases h
  · exact raiseDp_writes (by decide) (by decide)
  · exact raiseDp_writes (by decide) (by decide)
  · exact completedDp_writes (.inl rfl) _ _ rfl

theorem execDpRun_writes (h : execDpRun s = .next t) : UnitWrites s .dpRun t := by
  rcases execDpRun_cases s with ⟨-, he⟩ | ⟨-, -, he⟩ | ⟨-, -, he⟩ <;> rw [he] at h <;> cases h
  · exact raiseDp_writes (by decide) (by decide)
  · exact raiseDp_writes (by decide) (by decide)
  · exact completedDp_writes (.inr rfl) _ _ rfl

/-- The effect of a fill: `SP`, the counter of free values and the fill mark, no status (R102, R107, R186). -/
theorem fillEffect_eq (s : State) :
    ∃ r sp free, fillEffect s = { s with dp := r, sp := sp, freeCount := free } ∧ r.status = s.dp.status := by
  unfold fillEffect
  split
  · exact ⟨_, _, s.freeCount, rfl, rfl⟩
  · exact ⟨_, _, _, rfl, rfl⟩

theorem execDpFill_writes (h : execDpFill s = .next t) : UnitWrites s .dpFill t := by
  rcases execDpFill_cases s with ⟨-, he⟩ | ⟨-, he⟩ | ⟨-, -, he⟩ | ⟨-, -, he⟩ | ⟨-, -, -, he⟩ <;> rw [he] at h
  · cases h
    exact setDp_writes (by decide) s.dp id
  · cases h
    exact raiseDp_writes (by decide) (by decide)
  · cases h
    exact raiseDp_writes (by decide) (by decide)
  · cases h
  · obtain ⟨r, sp, free, hfill, hr⟩ := fillEffect_eq s
    rw [hfill] at h
    cases h
    exact .parser (by decide) r sp free _ (fun _ => rfl) (fun _ => by decide) (fun hs => hr ▸ hs)

theorem execDpSelect_writes (h : execDpSelect s = .next t) : UnitWrites s .dpSelect t := by
  rcases execDpSelect_cases s with
    ⟨-, he⟩ | ⟨-, he⟩ | ⟨-, -, he⟩ | ⟨-, -, -, he⟩ | ⟨-, -, x, -, he⟩ <;> rw [he] at h <;> cases h
  · exact setDp_writes (by decide) s.dp id
  · exact raiseDp_writes (by decide) (by decide)
  · exact raiseDp_writes (by decide) (by decide)
  · exact setDp_writes (by decide) _ id

/-- A token writes the decoder only; where it may stand the decoder is running, so its effect need only be sound from
there. -/
theorem runToken_writes
    (hi : i ∉ [Instr.nop, .cmMoff, .cmMlen, .cmZmc, .cmLlen, .mfFind, .dpInit, .dpFill, .dpRun, .dpSelect])
    {effect : Dec → Dec} (heffect : ∀ d : Dec, d.Running → (effect d).Sound s.cfg) (h : runToken i effect s = .next t) :
    UnitWrites s i t := by
  obtain ⟨hplaced, rfl⟩ := runToken_next h
  obtain ⟨k, hslot, -⟩ := (placed_iff i s).mp hplaced
  exact .decoder hi _ fun hd => heffect _ (hd.running (Phase.unitState_of_slot hslot))

theorem execDecStart_writes (h : execDecStart s = .next t) : UnitWrites s .decStart t := by
  rw [execDecStart_next] at h
  cases h
  refine .decoder (by decide) _ fun hd => ?_
  split
  · exact Dec.sound_raiseCfg hd.cntLe
  · exact Dec.sound_start _

theorem execDecRun_writes (h : execDecRun s = .next t) : UnitWrites s .decRun t := by
  rw [execDecRun_next] at h
  cases h
  refine .decoder (by decide) _ fun hd => ?_
  split
  · exact Dec.sound_raiseCfg hd.cntLe
  · exact Dec.sound_run _

theorem execDecStep_writes (h : execDecStep s = .next t) : UnitWrites s .decStep t := by
  rw [execDecStep_next] at h
  cases h
  refine .decoder (by decide) _ fun hd => ?_
  split
  · exact hd
  · split
    · exact Dec.sound_raiseCfg hd.cntLe
    · exact hd.byteStep

/-- Every instruction writes as its unit may. -/
theorem exec_writes (h : exec i s = .next t) : UnitWrites s i t := by
  cases i with
  | litB n => exact runToken_writes (by simp) (fun _ => (·.sound_literal (toNat_le_lenMax (by decide) n))) h
  | litS n => exact runToken_writes (by simp) (fun _ => (·.sound_literal (toNat_le_lenMax (by decide) n))) h
  | litW lo hi =>
    exact runToken_writes (by simp)
      (fun d hd => Dec.Running.sound_literal (d := { d with lenlo := wideFirst lo }) ⟨hd.status, hd.cntLe⟩
        (wideLength_le_lenMax _ hi)) h
  | matB m => exact runToken_writes (by simp) (fun _ => (·.sound_matchBlock (toNat_le_lenMax (by decide) m))) h
  | matS m => exact runToken_writes (by simp) (fun _ => (·.sound_matchBlock (toNat_le_lenMax (by decide) m))) h
  | matW lo hi =>
    exact runToken_writes (by simp)
      (fun d hd => Dec.Running.sound_matchBlock (d := { d with lenlo := wideFirst lo }) ⟨hd.status, hd.cntLe⟩
        (wideLength_le_lenMax _ hi)) h
  | off0 => exact runToken_writes (by decide) (fun _ => (·.sound_rleCopy)) h
  | off1 b0 => exact runToken_writes (by simp) (fun _ hd => (hd.lowOffset b0).sound_finishOffset) h
  | off2 b0 b1 => exact runToken_writes (by simp) (fun _ hd => ((hd.lowOffset b0).highOffset b1).sound_finishOffset) h
  | eos => exact runToken_writes (by decide) (fun _ => (·.sound_finish)) h
  | zlit => exact runToken_writes (by decide) (fun _ => (·.sound_literal (Nat.zero_le _))) h
  | zmat => exact runToken_writes (by decide) (fun _ => (·.sound_matchBlock (Nat.zero_le _))) h
  | nop => cases h; exact .nop
  | cmMoff | cmMlen | cmZmc | cmLlen => cases h; exact .cost (by decide) _
  | mfFind => exact execMfFind_writes h
  | dpInit => exact execDpInit_writes h
  | dpFill => exact execDpFill_writes h
  | dpRun => exact execDpRun_writes h
  | dpSelect => exact execDpSelect_writes h
  | decStart => exact execDecStart_writes h
  | decRun => exact execDecRun_writes h
  | decStep => exact execDecStep_writes h

/-- Settles O12: each unit's case of `UnitWrites` leaves the fields of the others alone. -/
theorem eachUnitWritesOnlyItsOwn : Obligations.EachUnitWritesOnlyItsOwn := by
  intro i s t h
  cases exec_writes h with
  | nop => simp
  | cost hi r => simp [hi]
  | finder r held => simp
  | parser hi r sp free held hfree hheld =>
    have hheld' : held ≠ s.held → i ∈ [Instr.mfFind, .dpInit, .dpFill, .dpRun] := fun hne =>
      List.mem_cons_of_mem _ (hheld hne)
    exact ⟨rfl, rfl, rfl, rfl, rfl, fun hne => absurd rfl hne, fun hne => absurd rfl hne, fun _ => hi, hfree, hheld',
      fun hne => absurd rfl hne⟩
  | decoder hi d => simp [hi]

theorem exec_keeps_statusSound (hs : StatusSound s) (h : exec i s = .next t) : StatusSound t := by
  rw [statusSound_iff] at hs ⊢
  obtain ⟨hmf, hdp, hdec⟩ := hs
  cases exec_writes h with
  | nop => exact ⟨hmf, hdp, hdec⟩
  | cost => exact ⟨hmf, hdp, hdec⟩
  | finder r held hr => exact ⟨hr, hdp, hdec⟩
  | parser _ r sp free held _ _ hr => exact ⟨hmf, hr hdp, hdec⟩
  | decoder _ d hd => exact ⟨hmf, hdp, hd hdec⟩

theorem consume_keeps_statusSound (hs : StatusSound s) (rest : List Byte) : StatusSound (consume rest s) := by
  rw [statusSound_iff] at hs ⊢
  obtain ⟨hmf, hdp, hdec⟩ := hs
  exact ⟨hmf, hdp, hdec.withInput _ _⟩

theorem advanceDecoder_keeps_statusSound (hs : StatusSound s) : StatusSound (advanceDecoder s) := by
  rw [statusSound_iff] at hs ⊢
  obtain ⟨hmf, hdp, hdec⟩ := hs
  exact ⟨hmf, hdp, hdec.byteStep⟩

theorem streamStep_keeps_statusSound (hs : StatusSound s) (h : streamStep s = .next t) : StatusSound t := by
  rcases streamStep_cases s with ⟨i, rest, -, he⟩ | ⟨-, he⟩ <;> rw [he] at h
  · exact exec_keeps_statusSound (consume_keeps_statusSound hs rest) h
  · cases h
    exact advanceDecoder_keeps_statusSound hs

/-- Settles O56: a command or a token keeps the registers sound as its unit writes them, a byte step as R152 has it. -/
theorem stepKeepsStatusSound : Obligations.StepKeepsStatusSound := by
  intro s t hs h
  rcases step_cases s with ⟨i, -, -, -, he⟩ | ⟨-, -, he⟩ | ⟨-, he⟩ <;> rw [he] at h
  · have htaken : StatusSound (takeCommand s) := hs
    exact exec_keeps_statusSound htaken h
  · cases h
  · exact streamStep_keeps_statusSound hs h

end Sys2Proof.Machine
end

section
/-! PROOFS. The host's side of an encode: a fill reads `DATA` below its length only, so the bytes the host may still
write do not move a final cell. -/

namespace Sys2Proof

theorem loopUp_congr {α : Type} {body body' : Nat → α → α} {n : Nat} (a : α)
    (h : ∀ j x, j < n → body (j + 1) x = body' (j + 1) x) : loopUp body n a = loopUp body' n a := by
  induction n with
  | zero => rfl
  | succ n ih => rw [loopUp_succ, loopUp_succ, ih fun j x hj => h j x (by omega), h n _ (by omega)]

theorem prefixFrom_congr {same same' : Nat → Bool} {cap j : Nat}
    (h : ∀ i, j ≤ i → i < j + cap → same i = same' i) : prefixFrom same cap j = prefixFrom same' cap j := by
  induction cap generalizing j with
  | zero => rfl
  | succ cap ih =>
    have hrest : prefixFrom same cap (j + 1) = prefixFrom same' cap (j + 1) :=
      ih fun i hi hlt => h i (by omega) (by omega)
    simp only [prefixFrom, h j le_rfl (by omega), hrest]

section
variable {dat dat' : Nat → Byte} {n : Nat} (hdat : ∀ j, j < n → dat j = dat' j)
include hdat

/-- Bytes compared from `p` on, and from any index before it, are among the first `n` (R92). -/
theorem commonPrefix_congr {cap p i : Nat} (hcap : cap ≤ n - p) (hi : i ≤ p) :
    commonPrefix dat cap p i = commonPrefix dat' cap p i :=
  prefixFrom_congr fun j _ hj => by simp only [hdat (p + j) (by omega), hdat (i + j) (by omega)]

/-- The finder reads the first `n` bytes only (R91, R92). -/
theorem findMatch_congr (c : Cfg) (p : Nat) : findMatch c dat n p = findMatch c dat' n p :=
  loopUp_congr _ fun j _ hj => by
    simp only [commonPrefix_congr hdat (i := p - c.maxOff + (j + 1 - 1)) (Nat.min_le_right c.mlenLimit (n - p))
      (by omega)]

/-- A fill of an encode of length `n` reads the first `n` bytes only. -/
theorem fillCell_congr (c : Cfg) (cell : Nat → SpCell) (p : Nat) :
    fillCell c dat n cell p = fillCell c dat' n cell p := by
  simp only [fillCell, findMatch_congr hdat]

end

namespace Machine

open Sys2Proof.Safety

theorem tableFinal_congr {c : Cfg} {dat dat' : Nat → Byte} {n f : Nat} {cell : Nat → SpCell}
    (hdat : ∀ j, j < n → dat j = dat' j) (h : TableFinal c dat n f cell) : TableFinal c dat' n f cell := by
  obtain ⟨hf, hsentinel, hcells⟩ := h
  exact ⟨hf, hsentinel, fun p hfp hpn => (hcells p hfp hpn).trans (fillCell_congr hdat c cell p)⟩

theorem dataByte_put (m : Memory) (a i : Nat) (b : Byte) :
    dataByte (SMap.put m a b) i = if a = i then b else dataByte m i := by
  unfold dataByte
  rw [SMap.get?_put]
  split <;> rfl

/-- Where the mark is taken away there is nothing it could say. -/
theorem fillMarkSound_of_fill_eq_none {s : State} (h : s.dp.fill = none) : FillMarkSound s := fun n f hf => by
  rw [h] at hf
  cases hf

/-- A byte that no encode holds may be written: every marked encode is within the bytes held (log 36). -/
theorem fillMarkSound_put_data {s : State} (hs : FillMarkSound s) {k : Nat} (hk : s.held ≤ k) (b : Byte) :
    FillMarkSound { s with data := SMap.put s.data k b } := fun n f hf => by
  obtain ⟨hv, hcap, hheld, htable⟩ := hs n f hf
  refine ⟨hv, hcap, hheld, tableFinal_congr (fun j hj => ?_) htable⟩
  rw [dataByte_put, if_neg (by omega)]

theorem writeData_keeps_fillMarkSound {s t : State} {k : Nat} {b : Byte} (hs : FillMarkSound s)
    (h : writeData k b s = .next t) : FillMarkSound t := by
  rcases writeData_cases k b s with ⟨-, he⟩ | ⟨-, -, he⟩ | ⟨-, -, -, he⟩ | ⟨-, -, hk, he⟩ <;> rw [he] at h <;> cases h
  · exact hs
  · exact fillMarkSound_put_data hs hk b

theorem hostAct_loadData (k : Nat) (b : Byte) (s : State) : hostAct (.loadData k b) s = writeData k b s := rfl

/-- A write of `CFG` that goes through changes nothing or voids the mark (R188; log 25). -/
theorem writeCfg_keeps_fillMarkSound {s t : State} {k : Nat} {v : BitVec 16} (hs : FillMarkSound s)
    (h : hostAct (.writeCfg k v) s = .next t) : FillMarkSound t := by
  simp only [hostAct] at h
  split at h
  · cases h
  · split at h
    · split at h <;> cases h
      · exact hs
      · exact fillMarkSound_of_fill_eq_none rfl
    · cases h

theorem hostAct_keeps_fillMarkSound {a : HostAct} {s t : State} (hs : FillMarkSound s) (h : hostAct a s = .next t) :
    FillMarkSound t := by
  cases a with
  | writeCfg k v => exact writeCfg_keeps_fillMarkSound hs h
  | loadData k b => exact writeData_keeps_fillMarkSound hs h
  | endEncode | reset => cases h; exact fillMarkSound_of_fill_eq_none rfl
  | openInput | supply =>
    simp only [hostAct] at h
    split at h <;> cases h
    exact hs
  | writeCmOperand | writeMfN | writeMfP | writeDpN | writeDpP | writeDpPrevLit | command | endInput | drain =>
    cases h; exact hs

/-- Settles O19: the four ways of a write of `DATA`, and the fill mark under each action of the host. -/
theorem hostKeepsTheEncodeStable : Obligations.HostKeepsTheEncodeStable := by
  refine ⟨fun s k b hk => ?_, fun a s t => hostAct_keeps_fillMarkSound⟩
  rw [hostAct_loadData]
  rcases writeData_cases k b s with ⟨hcap, -⟩ | ⟨-, hb, he⟩ | ⟨-, hb, hheld, he⟩ | ⟨-, hb, hheld, he⟩
  · exact absurd hk (Nat.not_lt.mpr hcap)
  · exact ⟨fun _ hne => absurd hb hne, fun _ => ⟨s.data, he, by simp [dataByte, hb], fun _ _ => rfl⟩⟩
  · exact ⟨fun _ _ => he, fun hor => hor.elim (fun hle => by omega) fun hb' => absurd hb' hb⟩
  · refine ⟨fun hlt => by omega, fun _ => ⟨_, he, by simp [dataByte_put], fun j hj => ?_⟩⟩
    rw [dataByte_put, if_neg hj.symm]

end Machine

end Sys2Proof
end

section
/-! PROOFS. What a decoder outputs, said once: every operation is a sequence of emitted bytes and of changes that touch
neither ring nor output nor position. The invariants of ring and output follow by induction on that sequence. -/

namespace Sys2Proof

/-- Two positions less than a whole ring apart have different ring indexes. -/
theorem mod_ne_mod_of_sub_lt {a b m : Nat} (hab : a < b) (hm : b - a < m) : b % m ≠ a % m := by
  intro heq
  have hzero := Nat.sub_mod_eq_zero_of_mod_eq heq
  rw [Nat.mod_eq_of_lt hm] at hzero
  omega

/-- A command of the table stands in the command register (R75). -/
theorem wellFormed_of_decodeCommand {code : Byte} {x : Ctx} {i : Instr} (h : decodeCommand code = some i)
    (hx : x.slot = .command) : WellFormed x i = true := by
  have table : ∀ e ∈ commandTable, WellFormed x e.2 = true := by simp [commandTable, WellFormed, hx]
  obtain ⟨l₁, l₂, hl, -⟩ := List.lookup_eq_some_iff.mp h
  exact table (code, i) (by rw [hl]; simp)

theorem Cfg.offBytes_cases (c : Cfg) : c.offBytes = 0 ∨ c.offBytes = 1 ∨ c.offBytes = 2 := by
  unfold Cfg.offBytes
  split
  · simp
  · split <;> simp

/-- A length field is well formed where its three tokens, each under its own condition, and END are. -/
theorem wellFormed_of_decodeLength {byteToken : Byte → Instr} {shortToken : BitVec 7 → Instr}
    {wideToken : BitVec 7 → Byte → Instr} {x : Ctx} {limit : Nat} {bs rest : List Byte} {i : Instr}
    (hend : x.ended = true → WellFormed x .eos = true)
    (hb : wideLimit limit = false → ∀ b, WellFormed x (byteToken b) = true)
    (hs : wideLimit limit = true → ∀ lo, WellFormed x (shortToken lo) = true)
    (hw : wideLimit limit = true → ∀ lo hi, WellFormed x (wideToken lo hi) = true)
    (h : decodeLength byteToken shortToken wideToken limit x.ended bs = .instr i rest) : WellFormed x i = true := by
  rcases decodeLength_cases h with ⟨he, -, rfl, -⟩ | ⟨hl, c, -, rfl⟩ | ⟨hl, c, -, -, rfl⟩ | ⟨hl, c, c2, -, -, rfl⟩
  · exact hend he
  · exact hb hl c
  · exact hs hl _
  · exact hw hl _ c2

/-- What decodes is well formed where it stands (R73, R75). -/
theorem wellFormed_of_decode {x : Ctx} {bs rest : List Byte} {i : Instr} (h : decode x bs = .instr i rest) :
    WellFormed x i = true := by
  unfold decode at h
  cases hx : x.slot with
  | command =>
    cases bs with
    | nil => simp [hx] at h
    | cons code bs =>
      cases hc : decodeCommand code with
      | none => simp [hx, hc] at h
      | some j =>
        simp only [hx, hc, Decoded.instr.injEq] at h
        exact h.1 ▸ wellFormed_of_decodeCommand hc hx
  | literalLength =>
    simp only [hx, decodeLiteral_eq_decodeLength] at h
    exact wellFormed_of_decodeLength (by simp [WellFormed, hx]) (by simp [WellFormed, hx]) (by simp [WellFormed, hx])
      (by simp [WellFormed, hx]) h
  | matchLength =>
    simp only [hx, decodeMatch_eq_decodeLength] at h
    exact wellFormed_of_decodeLength (by simp [WellFormed, hx]) (by simp [WellFormed, hx]) (by simp [WellFormed, hx])
      (by simp [WellFormed, hx]) h
  | offsetField =>
    simp only [hx] at h
    rcases decodeOffset_cases h with ⟨hn, -, rfl⟩ | ⟨hn, b0, -, rfl⟩ | ⟨h0, h1, b0, b1, -, rfl⟩
    · simp [WellFormed, hx, hn]
    · simp [WellFormed, hx, hn]
    · have hn : x.cfg.offBytes = 2 := by simpa [h0, h1] using x.cfg.offBytes_cases
      simp [WellFormed, hx, hn]

namespace Machine

open Sys2Proof.Safety

namespace Dec

/-- One change of a decoder, as far as what it has output goes: a byte is emitted (R139, R147), or ring, `OUT` and `POS`
are left alone. -/
inductive OutputStep (c : Cfg) (d : Dec) : Dec → Prop
  | emit (x : Byte) : OutputStep c d (d.emit c x)
  | quiet {d' : Dec} (hring : d'.ring = d.ring) (hout : d'.out = d.out) (hpos : d'.pos = d.pos) : OutputStep c d d'

/-- The second decoder comes from the first by emitting some bytes, in turn with changes that touch no output. -/
abbrev Emits (c : Cfg) (d d' : Dec) : Prop := Relation.ReflTransGen (OutputStep c) d d'

variable {c : Cfg} {d d' : Dec}

theorem emits_quiet (hring : d'.ring = d.ring) (hout : d'.out = d.out) (hpos : d'.pos = d.pos) : d.Emits c d' :=
  .single (.quiet hring hout hpos)

theorem emits_emit (d : Dec) (x : Byte) : d.Emits c (d.emit c x) := .single (.emit x)

/-- A decoder may first change elsewhere, and then emit. -/
theorem Emits.after_quiet {e : Dec} (h : e.Emits c d') (hring : e.ring = d.ring) (hout : e.out = d.out)
    (hpos : e.pos = d.pos) : d.Emits c d' :=
  h.head (.quiet hring hout hpos)

theorem emits_literalByte (d : Dec) (x : Byte) : d.Emits c (d.literalByte c x) :=
  (emits_emit d x).tail (.quiet rfl rfl rfl)

theorem emits_copyByte (d : Dec) : d.Emits c (d.copyByte c) :=
  (emits_emit d (ringByte c d.ring d.src.toNat)).tail (.quiet rfl rfl rfl)

/-! ## Block by block -/

theorem emits_literalLoop (d : Dec) (n : Nat) : d.Emits c (d.literalLoop c n) := by
  induction n generalizing d with
  | zero => exact emits_quiet rfl rfl rfl
  | succ n ih =>
    rcases inByte_cases d with ⟨b, rest, hinp, -⟩ | ⟨-, -, heof⟩ | ⟨-, -, hwait⟩
    · rw [literalLoop_cons c n hinp]
      have hbyte : Emits c { d with inp := rest, ip := d.ip + 1 } _ := (emits_literalByte _ b).trans (ih _)
      exact hbyte.after_quiet rfl rfl rfl
    · rw [literalLoop, heof]
      exact emits_quiet rfl rfl rfl
    · rw [literalLoop, hwait]
      exact emits_quiet rfl rfl rfl

theorem emits_literal (d : Dec) (n : Nat) : d.Emits c (d.literal c n) :=
  (emits_literalLoop { d with cnt := n } n).after_quiet rfl rfl rfl

theorem emits_copyLoop (d : Dec) (n : Nat) : d.Emits c (d.copyLoop c n) := by
  induction n generalizing d with
  | zero => exact emits_quiet rfl rfl rfl
  | succ n ih => exact (emits_copyByte d).trans (ih _)

theorem emits_rleCopy (d : Dec) : d.Emits c ((d.rleSrc c).copy c) :=
  (emits_copyLoop (d.rleSrc c) _).after_quiet rfl rfl rfl

theorem emits_finishOffset (d : Dec) : d.Emits c (d.finishOffset c) :=
  (emits_copyLoop (d.computeSrc c) _).after_quiet rfl rfl rfl

/-- The offset field with its copy: each of its bytes is there, is cut off, or is waited for (R141, R170). -/
theorem emits_offsetField (d : Dec) : d.Emits c (d.offsetField c) := by
  unfold Dec.offsetField
  split
  · exact emits_rleCopy d
  · rcases inByte_cases d with ⟨b0, rest, -, h0⟩ | ⟨-, -, h0⟩ | ⟨-, -, h0⟩ <;> rw [h0] <;> simp only
    · split
      · rcases inByte_cases (Dec.lowOffset b0 { d with inp := rest, ip := d.ip + 1 }) with
          ⟨b1, rest', -, h1⟩ | ⟨-, -, h1⟩ | ⟨-, -, h1⟩ <;> rw [h1]
        · exact (emits_finishOffset _).after_quiet rfl rfl rfl
        · exact emits_quiet rfl rfl rfl
        · exact emits_quiet rfl rfl rfl
      · exact (emits_finishOffset _).after_quiet rfl rfl rfl
    · exact emits_quiet rfl rfl rfl
    · exact emits_quiet rfl rfl rfl

theorem emits_matchBlock (d : Dec) (n : Nat) : d.Emits c (d.matchBlock c n) := by
  unfold Dec.matchBlock
  split
  · exact (emits_offsetField _).after_quiet rfl rfl rfl
  · exact emits_quiet rfl rfl rfl

/-- `GetLen` outputs nothing, whatever it answers (R138). -/
theorem emits_getLen (d : Dec) (limit : Nat) (second : Phase) :
    (∃ d', d.getLen limit second = .stop d' ∧ d.Emits c d') ∨
    (∃ n d', d.getLen limit second = .length n d' ∧ d.Emits c d') := by
  unfold Dec.getLen
  rcases inByte_cases d with ⟨b, rest, -, h0⟩ | ⟨-, -, h0⟩ | ⟨-, -, h0⟩ <;> rw [h0] <;> simp only
  · split
    · exact .inr ⟨_, _, rfl, emits_quiet rfl rfl rfl⟩
    · rcases inByte_cases { d with inp := rest, ip := d.ip + 1, lenlo := b } with
        ⟨b2, rest', -, h1⟩ | ⟨-, -, h1⟩ | ⟨-, -, h1⟩ <;> rw [h1]
      · exact .inr ⟨_, _, rfl, emits_quiet rfl rfl rfl⟩
      · exact .inl ⟨_, rfl, emits_quiet rfl rfl rfl⟩
      · exact .inl ⟨_, rfl, emits_quiet rfl rfl rfl⟩
  · exact .inl ⟨_, rfl, emits_quiet rfl rfl rfl⟩
  · exact .inl ⟨_, rfl, .refl⟩

theorem emits_loop (d : Dec) (k : Nat) : d.Emits c (d.loop c k) := by
  induction k generalizing d with
  | zero => exact .refl
  | succ k ih =>
    unfold Dec.loop
    rcases emits_getLen (c := c) d c.llenLimit .llen2 with ⟨d1, h1, he1⟩ | ⟨n, d1, h1, he1⟩ <;> rw [h1]
    · exact he1
    · have hlit : d.Emits c (d1.literal c n) := he1.trans (emits_literal d1 n)
      simp only
      split
      · rcases emits_getLen (c := c) (d1.literal c n) c.mlenLimit .mlen2 with
          ⟨d3, h3, he3⟩ | ⟨m, d3, h3, he3⟩ <;> rw [h3]
        · exact hlit.trans he3
        · have hmat : d.Emits c (d3.matchBlock c m) := (hlit.trans he3).trans (emits_matchBlock d3 m)
          simp only
          split
          · exact hmat.trans (ih _)
          · exact hmat
      · exact hlit

/-! ## Byte by byte -/

theorem emits_afterMLen (d : Dec) : d.Emits c (d.afterMLen c) := by
  unfold Dec.afterMLen
  split
  · exact emits_quiet rfl rfl rfl
  · split <;> exact emits_quiet rfl rfl rfl

/-- A row of R152 that takes a byte. -/
theorem emits_onByte {atByte : Byte → Dec → Dec} {atEnd : Dec} (hbyte : ∀ b d', Emits c d' (atByte b d'))
    (hend : d.Emits c atEnd) : d.Emits c (d.onByte atByte atEnd) := by
  unfold Dec.onByte
  rcases inByte_cases d with ⟨b, rest, -, h0⟩ | ⟨-, -, h0⟩ | ⟨-, -, h0⟩ <;> simp only [h0]
  · exact (hbyte b _).after_quiet rfl rfl rfl
  · exact hend
  · exact .refl

/-- Behind a byte of a literal or of a copy only the phase may change. -/
theorem Emits.afterDataByte (h : d.Emits c d') (p : Phase) :
    d.Emits c (if d'.cnt = 0 then { d' with phase := p } else d') := by
  split
  · exact h.tail (.quiet rfl rfl rfl)
  · exact h

theorem emits_byteStep (d : Dec) : d.Emits c (d.byteStep c) := by
  cases hp : d.phase <;> simp only [Dec.byteStep, hp]
  case llen =>
    refine emits_onByte (fun b d' => ?_) (emits_quiet rfl rfl rfl)
    split <;> exact emits_quiet rfl rfl rfl
  case llen2 => exact emits_onByte (fun b d' => emits_quiet rfl rfl rfl) (emits_quiet rfl rfl rfl)
  case lit =>
    exact emits_onByte (fun b d' => (emits_literalByte d' b).afterDataByte .mlen) (emits_quiet rfl rfl rfl)
  case mlen =>
    refine emits_onByte (fun b d' => ?_) (emits_quiet rfl rfl rfl)
    split
    · exact emits_quiet rfl rfl rfl
    · exact (emits_afterMLen { d' with cnt := b.toNat }).after_quiet rfl rfl rfl
  case mlen2 =>
    exact emits_onByte
      (fun b d' => (emits_afterMLen { d' with cnt := wideLength d'.lenlo b }).after_quiet rfl rfl rfl)
      (emits_quiet rfl rfl rfl)
  case offlo =>
    split
    · exact emits_quiet rfl rfl rfl
    · refine emits_onByte (fun b d' => ?_) (emits_quiet rfl rfl rfl)
      split <;> exact emits_quiet rfl rfl rfl
  case offhi => exact emits_onByte (fun b d' => emits_quiet rfl rfl rfl) (emits_quiet rfl rfl rfl)
  case copy => exact (emits_copyByte d).afterDataByte .llen
  case idle | done | err => exact .refl

/-! ## What the emitted bytes leave behind -/

/-- `OUT` grows by the bytes emitted, and `POS` counts them (R25, R45). -/
theorem Emits.out_pos (h : d.Emits c d') : ∃ xs, d'.out = d.out ++ xs ∧ d'.pos = d.pos + xs.length := by
  induction h with
  | refl => exact ⟨[], by simp⟩
  | tail _ hstep ih =>
    obtain ⟨xs, hout, hpos⟩ := ih
    cases hstep with
    | emit x => exact ⟨xs ++ [x], by simp [hout], by simp [hpos, Nat.add_assoc]⟩
    | quiet _ hout' hpos' => exact ⟨xs, hout'.trans hout, hpos'.trans hpos⟩

/-- An emitted byte overwrites the one that was `mask + 1` bytes back, and none that is still recent (R43). -/
theorem ringHoldsRecentOutput_emit (h : RingHoldsRecentOutput c d) (x : Byte) :
    RingHoldsRecentOutput c (d.emit c x) := by
  obtain ⟨hlen, hring⟩ := h
  refine ⟨by simpa using hlen, fun k hk => ?_⟩
  rw [emit_pos] at hk
  rw [emit_pos, emit_ring, emit_out, c.ringIndex_eq_mod]
  cases k with
  | zero => simp
  | succ k =>
    have hne : d.pos % (c.mask + 1) ≠ (d.pos - 1 - k) % (c.mask + 1) := mod_ne_mod_of_sub_lt (by omega) (by omega)
    calc SMap.get? (SMap.put d.ring (d.pos % (c.mask + 1)) x) ((d.pos + 1 - 1 - (k + 1)) % (c.mask + 1))
      _ = SMap.get? d.ring ((d.pos - 1 - k) % (c.mask + 1)) := by
        rw [show d.pos + 1 - 1 - (k + 1) = d.pos - 1 - k by omega, SMap.get?_put_other _ _ hne]
      _ = d.out[d.out.length - 1 - k]? := hring k (by omega)
      _ = (d.out ++ [x])[(d.out ++ [x]).length - 1 - (k + 1)]? := by
        rw [List.length_append, List.length_singleton, List.getElem?_append_left (by omega)]
        congr 1
        omega

theorem Emits.ringHoldsRecentOutput (h : d.Emits c d') (hd : RingHoldsRecentOutput c d) :
    RingHoldsRecentOutput c d' := by
  induction h with
  | refl => exact hd
  | tail _ hstep ih =>
    cases hstep with
    | emit x => exact ringHoldsRecentOutput_emit ih x
    | quiet hring hout hpos => rwa [RingHoldsRecentOutput, hring, hout, hpos]

/-- What `MemoriesCanonical` asks of the ring (R40, R43). -/
def RingCanonical (d : Dec) : Prop := Memory.wf d.ring ∧ ∀ x ∈ d.ring, x.1 ≤ 0xFFFF

theorem ringCanonical_emit (h : d.RingCanonical) (x : Byte) : (d.emit c x).RingCanonical := by
  obtain ⟨hwf, hle⟩ := h
  refine ⟨SMap.put_wf hwf _ _, fun y hy => ?_⟩
  rcases SMap.mem_put hy with rfl | hy
  · exact (c.ringIndex_le d.pos).trans c.mask_le
  · exact hle y hy

theorem Emits.ringCanonical (h : d.Emits c d') (hd : d.RingCanonical) : d'.RingCanonical := by
  induction h with
  | refl => exact hd
  | tail _ hstep ih =>
    cases hstep with
    | emit x => exact ringCanonical_emit ih x
    | quiet hring _ _ => rwa [RingCanonical, hring]

/-- A run that has just begun has output nothing (R136). -/
theorem ringHoldsRecentOutput_start (d : Dec) : RingHoldsRecentOutput c d.start :=
  ⟨Nat.zero_le _, fun k hk => by simp at hk⟩

end Dec

/-! ## Through an instruction and a step -/

variable {s t : State} {i : Instr}

theorem runToken_emits {effect : Dec → Dec} (h : runToken i effect s = .next t)
    (heffect : ∀ d : Dec, d.Emits s.cfg (effect d)) : s.dec.Emits s.cfg t.dec := by
  obtain ⟨-, rfl⟩ := runToken_next h
  exact heffect _

/-- Every instruction but the two that start a run goes on with the output. -/
theorem exec_emits (hne : i ≠ .decStart ∧ i ≠ .decRun) (h : exec i s = .next t) : s.dec.Emits s.cfg t.dec := by
  have other (hi' : i ∈ [Instr.nop, .cmMoff, .cmMlen, .cmZmc, .cmLlen, .mfFind, .dpInit, .dpFill, .dpRun, .dpSelect]) :
      s.dec.Emits s.cfg t.dec := by
    obtain ⟨-, -, -, -, -, -, -, -, -, -, hdec⟩ := eachUnitWritesOnlyItsOwn i s t h
    have heq : t.dec = s.dec := by_contra fun hne => hdec hne hi'
    rw [heq]
  cases i with
  | litB n => exact runToken_emits h fun d => d.emits_literal _
  | litS n => exact runToken_emits h fun d => d.emits_literal _
  | litW lo hi =>
    exact runToken_emits (show execLitW lo hi s = _ from h) fun d => (Dec.emits_literal _ _).after_quiet rfl rfl rfl
  | matB m => exact runToken_emits h fun d => d.emits_matchBlock _
  | matS m => exact runToken_emits h fun d => d.emits_matchBlock _
  | matW lo hi =>
    exact runToken_emits (show execMatW lo hi s = _ from h) fun d => (Dec.emits_matchBlock _ _).after_quiet rfl rfl rfl
  | off0 => exact runToken_emits (show execOff0 s = _ from h) Dec.emits_rleCopy
  | off1 b0 =>
    exact runToken_emits (show execOff1 b0 s = _ from h) fun d => (Dec.emits_finishOffset _).after_quiet rfl rfl rfl
  | off2 b0 b1 =>
    exact runToken_emits (show execOff2 b0 b1 s = _ from h) fun d => (Dec.emits_finishOffset _).after_quiet rfl rfl rfl
  | eos => exact runToken_emits h fun d => Dec.emits_quiet rfl rfl rfl
  | zlit => exact runToken_emits h fun d => d.emits_literal _
  | zmat => exact runToken_emits h fun d => d.emits_matchBlock _
  | nop | cmMoff | cmMlen | cmZmc | cmLlen | mfFind | dpInit | dpFill | dpRun | dpSelect => exact other (by decide)
  | decStart => exact absurd rfl hne.1
  | decRun => exact absurd rfl hne.2
  | decStep =>
    rw [show exec .decStep s = execDecStep s from rfl, execDecStep_next] at h
    cases h
    rw [State.setDec_dec]
    split
    · exact .refl
    · split
      · exact Dec.emits_quiet rfl rfl rfl
      · exact Dec.emits_byteStep _

/-- An instruction that starts a run outputs from the start, or raises `CfgError` and outputs nothing (R136,
R137, R161). -/
theorem exec_emits_of_start (hi : i = .decStart ∨ i = .decRun) (h : exec i s = .next t) :
    (s.cfg.valid = false ∧ s.dec.Emits s.cfg t.dec) ∨ (s.cfg.valid = true ∧ s.dec.start.Emits s.cfg t.dec) := by
  have hexec : exec i s = execDecStart s ∨ exec i s = execDecRun s := by
    rcases hi with rfl | rfl
    · exact .inl rfl
    · exact .inr rfl
  rw [execDecStart_next, execDecRun_next, h] at hexec
  cases hv : s.cfg.valid with
  | false =>
    obtain rfl : t = s.setDec s.dec.raiseCfg := by simpa [hv] using hexec
    exact .inl ⟨rfl, Dec.emits_quiet rfl rfl rfl⟩
  | true =>
    obtain rfl | rfl : t = s.setDec s.dec.start ∨ t = s.setDec (s.dec.run s.cfg) := by simpa [hv] using hexec
    · exact .inr ⟨rfl, .refl⟩
    · exact .inr ⟨rfl, Dec.emits_loop _ _⟩

/-- Where a step's next state comes from: the command that begins, a token well formed at its place of the stream behind
its bytes, or one byte step. -/
theorem step_next_cases (h : step s = .next t) :
    (∃ i, s.cmdReq = true ∧ decodeCommand s.cmd = some i ∧ mayBegin i s = true ∧ exec i (takeCommand s) = .next t) ∨
    (NoCommandBegins s ∧ ∃ x i rest, tokenCtx s = some x ∧ WellFormed x i = true ∧ exec i (consume rest s) = .next t) ∨
    (NoCommandBegins s ∧ t = advanceDecoder s) := by
  rcases step_cases s with ⟨i, hreq, hi, hb, he⟩ | ⟨-, -, he⟩ | ⟨hno, he⟩ <;> rw [he] at h
  · exact .inl ⟨i, hreq, hi, hb, h⟩
  · cases h
  · rcases streamStep_cases s with ⟨i, rest, hf, hs⟩ | ⟨-, hs⟩ <;> rw [hs] at h
    · obtain ⟨x, hx, hd⟩ := fetchToken_eq_some.mp hf
      exact .inr (.inl ⟨hno, x, i, rest, hx, wellFormed_of_decode hd, h⟩)
    · cases h
      exact .inr (.inr ⟨hno, rfl⟩)

/-- No place of the stream holds an instruction that starts a run (R73, R75). -/
theorem token_ne_start {x : Ctx} (hx : tokenCtx s = some x) (hi : WellFormed x i = true) :
    i ≠ .decStart ∧ i ≠ .decRun := by
  have hslot : x.slot ≠ .command := by
    obtain ⟨k, hk, rfl⟩ := tokenCtx_eq_some.mp hx
    rintro rfl
    cases hp : s.dec.phase <;> simp [hp, Phase.slot] at hk
  constructor <;> rintro rfl <;> simp [WellFormed, hslot] at hi

theorem not_startsRun_of_noCommandBegins (h : NoCommandBegins s) : ¬ StartsRun s := by
  rintro ⟨hreq, hidle, -, hcmd⟩
  rcases h with hreq' | ⟨j, hj, hb⟩
  · simp [hreq] at hreq'
  · simp [mayBegin, hidle] at hb

/-- A step that starts no run goes on with the output; one that starts a run outputs from the start. -/
theorem step_emits (h : step s = .next t) :
    (¬ StartsRun s ∧ s.dec.Emits s.cfg t.dec) ∨ (StartsRun s ∧ s.dec.start.Emits s.cfg t.dec) := by
  rcases step_next_cases h with ⟨i, hreq, hi, hb, he⟩ | ⟨hno, x, i, rest, hx, hwf, he⟩ | ⟨hno, rfl⟩
  · by_cases hstart : i = .decStart ∨ i = .decRun
    · rcases exec_emits_of_start hstart he with ⟨hv, hem⟩ | ⟨hv, hem⟩
      · exact .inl ⟨fun ⟨_, _, hv', _⟩ => by simp [takeCommand, hv'] at hv, hem⟩
      · have hidle : s.dec.status.state ≠ .busy :=
          ((mayBegin_iff i s).mp hb).resolve_right (by rcases hstart with rfl | rfl <;> decide)
        exact .inr ⟨⟨hreq, hidle, hv, by simpa [hi] using hstart⟩, hem⟩
    · have hem : (takeCommand s).dec.Emits s.cfg t.dec := exec_emits (s := takeCommand s) (not_or.mp hstart) he
      exact .inl ⟨fun ⟨_, _, _, hcmd⟩ => hstart (by simpa [hi] using hcmd), hem⟩
  · have hem : (consume rest s).dec.Emits s.cfg t.dec := exec_emits (token_ne_start hx hwf) he
    exact .inl ⟨not_startsRun_of_noCommandBegins hno, hem.after_quiet rfl rfl rfl⟩
  · exact .inl ⟨not_startsRun_of_noCommandBegins hno, Dec.emits_byteStep _⟩

theorem exec_cfg_data (h : exec i s = .next t) : t.cfg = s.cfg ∧ t.data = s.data := by
  obtain ⟨hcfg, hdata, -⟩ := eachUnitWritesOnlyItsOwn i s t h
  exact ⟨hcfg, hdata⟩

/-- No step writes `CFG` or `DATA` (R10, R41). -/
theorem step_cfg_data (h : step s = .next t) : t.cfg = s.cfg ∧ t.data = s.data := by
  rcases step_next_cases h with ⟨i, -, -, -, he⟩ | ⟨-, x, i, rest, -, -, he⟩ | ⟨-, rfl⟩
  · exact exec_cfg_data (s := takeCommand s) he
  · exact exec_cfg_data (s := consume rest s) he
  · exact ⟨rfl, rfl⟩

/-- Settles O54: each emitted byte keeps the ring recent, and a run that begins has output nothing yet. -/
theorem stepKeepsRingRecent : Obligations.StepKeepsRingRecent := by
  intro s t hs h
  rw [(step_cfg_data h).1]
  rcases step_emits h with ⟨-, hem⟩ | ⟨-, hem⟩
  · exact hem.ringHoldsRecentOutput hs
  · exact hem.ringHoldsRecentOutput (Dec.ringHoldsRecentOutput_start _)

/-- Settles O53: the bytes a step emits are what `OUT` grows by, counted from `POS` or from the start. -/
theorem outputOnlyGrows : Obligations.OutputOnlyGrows := by
  intro s t h
  rcases step_emits h with ⟨hrun, hem⟩ | ⟨hrun, hem⟩
  · obtain ⟨xs, hout, hpos⟩ := hem.out_pos
    exact ⟨xs, hout, fun _ => hpos, fun hrun' => absurd hrun' hrun⟩
  · obtain ⟨xs, hout, hpos⟩ := hem.out_pos
    exact ⟨xs, hout, fun hrun' => absurd hrun hrun', fun _ => by simpa using hpos⟩

end Machine

end Sys2Proof
end

section
/-! PROOFS. The canonical form of the table under the commands that write it, and of all memories under a step. -/

namespace Sys2Proof.Machine

open Sys2Proof.Safety

variable {s t : State} {i : Instr}

theorem execDpInit_sp_wf (hs : SMap.wf s.sp) (h : execDpInit s = .next t) : SMap.wf t.sp := by
  rcases execDpInit_cases s with ⟨-, he⟩ | ⟨-, -, he⟩ | ⟨-, -, he⟩ <;> rw [he] at h <;> cases h
  · exact hs
  · exact hs
  · exact SMap.put_wf hs _ _

theorem execDpRun_sp_wf (hs : SMap.wf s.sp) (h : execDpRun s = .next t) : SMap.wf t.sp := by
  rcases execDpRun_cases s with ⟨-, he⟩ | ⟨-, -, he⟩ | ⟨-, -, he⟩ <;> rw [he] at h <;> cases h
  · exact hs
  · exact hs
  · exact fillDown_wf _ _ _ _ _ (SMap.put_wf hs _ _)

/-- In order or not, a fill writes one cell (R102, R186). -/
theorem fillEffect_sp (s : State) : ∃ x, (fillEffect s).sp = SMap.put s.sp s.dp.p.toNat x := by
  unfold fillEffect
  split <;> exact ⟨_, rfl⟩

theorem execDpFill_sp_wf (hs : SMap.wf s.sp) (h : execDpFill s = .next t) : SMap.wf t.sp := by
  rcases execDpFill_cases s with
    ⟨-, he⟩ | ⟨-, he⟩ | ⟨-, -, he⟩ | ⟨-, -, he⟩ | ⟨-, -, -, he⟩ <;> rw [he] at h <;> cases h
  · exact hs
  · exact hs
  · exact hs
  · obtain ⟨x, hx⟩ := fillEffect_sp s
    rw [State.holdData_sp, hx]
    exact SMap.put_wf hs _ _

theorem execDpSelect_sp (h : execDpSelect s = .next t) : t.sp = s.sp := by
  rcases execDpSelect_cases s with
    ⟨-, he⟩ | ⟨-, he⟩ | ⟨-, -, he⟩ | ⟨-, -, -, he⟩ | ⟨-, -, x, -, he⟩ <;> rw [he] at h <;> cases h <;> rfl

/-- Only the commands of `DP` write `SP`, and they keep its form. -/
theorem exec_sp_wf (hs : SMap.wf s.sp) (h : exec i s = .next t) : SMap.wf t.sp := by
  by_cases heq : t.sp = s.sp
  · rwa [heq]
  · obtain ⟨-, -, -, -, -, -, -, hdp, -⟩ := eachUnitWritesOnlyItsOwn _ _ _ h
    obtain rfl | rfl | rfl | rfl : i = .dpInit ∨ i = .dpFill ∨ i = .dpRun ∨ i = .dpSelect := by
      simpa using hdp (.inr heq)
    · exact execDpInit_sp_wf hs h
    · exact execDpFill_sp_wf hs h
    · exact execDpRun_sp_wf hs h
    · exact absurd (execDpSelect_sp h) heq

theorem step_sp_wf (hs : SMap.wf s.sp) (h : step s = .next t) : SMap.wf t.sp := by
  rcases step_next_cases h with ⟨i, -, -, -, he⟩ | ⟨-, x, i, rest, -, -, he⟩ | ⟨-, rfl⟩
  · exact exec_sp_wf (s := takeCommand s) hs he
  · exact exec_sp_wf (s := consume rest s) hs he
  · exact hs

theorem step_ringCanonical (hs : s.dec.RingCanonical) (h : step s = .next t) : t.dec.RingCanonical := by
  rcases step_emits h with ⟨-, hem⟩ | ⟨-, hem⟩
  · exact hem.ringCanonical hs
  · exact hem.ringCanonical (d := s.dec.start) hs

/-- Settles O55: the ring by what a step emits, `DATA` as no step writes it, `SP` by what the commands of `DP` write. -/
theorem stepKeepsMemoriesCanonical : Obligations.StepKeepsMemoriesCanonical := by
  rintro s t ⟨hring, hdata, hsp, hle⟩ h
  obtain ⟨hring', hle'⟩ := step_ringCanonical ⟨hring, hle⟩ h
  exact ⟨hring', (step_cfg_data h).2 ▸ hdata, step_sp_wf hsp h, hle'⟩

end Sys2Proof.Machine
end

section
/-! PROOFS. The encoder against the decoder: the two-byte length field, and the reading of an encoded instruction. -/

namespace Sys2Proof

/-! ## The two-byte length field (R66) -/

/-- Bit 7 over a number of seven bits is 128 more than the number. -/
theorem toNat_highBit_or {n : Nat} (hn : n < 128) : (0x80 ||| BitVec.ofNat 8 n : Byte).toNat = 128 + n := by
  have hor : 2 ^ 7 * 1 + n = 2 ^ 7 * 1 ||| n := Nat.two_pow_add_eq_or_of_lt hn 1
  have hbyte : n % 256 = n := by omega
  calc (0x80 ||| BitVec.ofNat 8 n : Byte).toNat = 2 ^ 7 * 1 ||| n := by simp [hbyte]
    _ = 128 + n := hor.symm

theorem toNat_wideFirst (lo : BitVec 7) : (wideFirst lo).toNat = 128 + lo.toNat := by
  rw [wideFirst, ← BitVec.ofNat_toNat, toNat_highBit_or lo.isLt]

theorem setWidth_wideFirst (lo : BitVec 7) : (wideFirst lo).setWidth 7 = lo := by
  apply BitVec.eq_of_toNat_eq
  have hlo := lo.isLt
  rw [BitVec.toNat_setWidth, toNat_wideFirst]
  omega

theorem wideLength_eq_add_mul (c c2 : Byte) : wideLength c c2 = c.toNat + 128 * c2.toNat := by
  rw [wideLength, Nat.shiftLeft_eq, Nat.mul_comm]

/-- The encoder's two bytes, with the mask and the shift as remainder and quotient. -/
theorem lenField_of_wide {limit x : Nat} (hlimit : 255 < limit) (hx : 128 ≤ x) :
    lenField limit x = [0x80 ||| BitVec.ofNat 8 (x % 128), BitVec.ofNat 8 (x / 128 - 1)] := by
  have hlow : x &&& 0x7F = x % 128 := Nat.and_two_pow_sub_one_eq_mod x 7
  have hhigh : x >>> 7 = x / 128 := Nat.shiftRight_eq_div_pow x 7
  rw [lenField, if_pos ⟨hlimit, hx⟩, hlow, hhigh, BitVec.ofNat_or]
  rfl

/-- The bytes the encoder writes have the value encoded. -/
theorem lenField_value {limit x : Nat} (hlimit : 255 < limit) (hlo : 128 ≤ x) (hhi : x ≤ 32895) :
    ∃ c c2 : Byte, lenField limit x = [c, c2] ∧ 128 ≤ c.toNat ∧ wideLength c c2 = x ∧
      c = 0x80 ||| BitVec.ofNat 8 (x % 128) ∧ c2.toNat = x / 128 - 1 := by
  have hc : (0x80 ||| BitVec.ofNat 8 (x % 128) : Byte).toNat = 128 + x % 128 :=
    toNat_highBit_or (Nat.mod_lt x (by decide))
  have hc2 : (BitVec.ofNat 8 (x / 128 - 1)).toNat = x / 128 - 1 := by
    rw [BitVec.toNat_ofNat]
    omega
  refine ⟨_, _, lenField_of_wide hlimit hlo, ?_, ?_, rfl, hc2⟩
  · omega
  · rw [wideLength_eq_add_mul, hc, hc2]
    omega

/-- Two bytes of which the first has bit 7 set are the encoding of their value. -/
theorem lenField_wideLength {limit : Nat} (hlimit : 255 < limit) {c c2 : Byte} (hc : 128 ≤ c.toNat) :
    lenField limit (wideLength c c2) = [c, c2] := by
  have hclt := c.isLt
  have hmod : (c.toNat + 128 * c2.toNat) % 128 = c.toNat - 128 := by omega
  have hdiv : (c.toNat + 128 * c2.toNat) / 128 - 1 = c2.toNat := by omega
  have hfirst : 0x80 ||| BitVec.ofNat 8 (c.toNat - 128) = c := by
    apply BitVec.eq_of_toNat_eq
    rw [toNat_highBit_or (by omega)]
    omega
  rw [wideLength_eq_add_mul, lenField_of_wide hlimit (by omega), hmod, hdiv, hfirst, BitVec.ofNat_toNat,
    BitVec.setWidth_eq]

/-! ## Reading at each kind of place -/

section
variable {x : Ctx} {bs rest : List Byte}

theorem decode_command {code : Byte} {i : Instr} (hx : x.slot = .command) (hc : decodeCommand code = some i) :
    decode x (code :: rest) = .instr i rest := by
  simp [decode, hx, hc]

theorem decode_literalLength (hx : x.slot = .literalLength) :
    decode x bs = decodeLength .litB .litS .litW x.cfg.llenLimit x.ended bs := by
  simp only [decode, hx, decodeLiteral_eq_decodeLength]

theorem decode_matchLength (hx : x.slot = .matchLength) :
    decode x bs = decodeLength .matB .matS .matW x.cfg.mlenLimit x.ended bs := by
  simp only [decode, hx, decodeMatch_eq_decodeLength]

theorem decode_offsetField (hx : x.slot = .offsetField) : decode x bs = decodeOffset x.cfg.offBytes bs := by
  simp only [decode, hx]

end

section
variable {byteToken : Byte → Instr} {shortToken : BitVec 7 → Instr} {wideToken : BitVec 7 → Byte → Instr}
  {limit : Nat} {ended : Bool} {rest : List Byte}

theorem decodeLength_byte (hl : wideLimit limit = false) (c : Byte) :
    decodeLength byteToken shortToken wideToken limit ended (c :: rest) = .instr (byteToken c) rest := by
  simp [decodeLength, hl]

theorem decodeLength_short (hl : wideLimit limit = true) (lo : BitVec 7) :
    decodeLength byteToken shortToken wideToken limit ended (lo.setWidth 8 :: rest) = .instr (shortToken lo) rest := by
  have hlt : (lo.setWidth 8).toNat < 128 := by
    rw [BitVec.toNat_setWidth]
    omega
  have hlo : (lo.setWidth 8).setWidth 7 = lo := by bv_omega
  simp only [decodeLength, hl, hlt, hlo, if_true]

theorem decodeLength_wide (hl : wideLimit limit = true) (lo : BitVec 7) (c2 : Byte) :
    decodeLength byteToken shortToken wideToken limit ended (wideFirst lo :: c2 :: rest) =
      .instr (wideToken lo c2) rest := by
  have hge : ¬ (wideFirst lo).toNat < 128 := by
    rw [toNat_wideFirst]
    omega
  simp only [decodeLength, hl, hge, setWidth_wideFirst, if_true, if_false]

/-- A length of 0 is one byte 0, read as the short form or as the plain byte (R74). -/
theorem decodeLength_zero :
    decodeLength byteToken shortToken wideToken limit ended (0x00 :: rest) =
      .instr (if wideLimit limit then shortToken 0 else byteToken 0) rest := by
  cases hl : wideLimit limit with
  | true => exact decodeLength_short hl 0
  | false => exact decodeLength_byte hl 0

/-- A first byte of 128 or more is followed by a second (R66). -/
theorem decodeLength_twoBytes (hl : wideLimit limit = true) {c : Byte} (hc : 128 ≤ c.toNat) (c2 : Byte) :
    ∃ lo, decodeLength byteToken shortToken wideToken limit ended (c :: c2 :: rest) = .instr (wideToken lo c2) rest ∧
      wideFirst lo = c := by
  refine ⟨c.setWidth 7, ?_, wideFirst_lowSeven hc⟩
  simpa only [wideFirst_lowSeven hc] using decodeLength_wide hl (c.setWidth 7) c2

end

/-! ## The statements -/

/-- Settles O1: each word is read by the decoder. -/
theorem writtenOutWordsDecode : Obligations.WrittenOutWordsDecode := by
  unfold Obligations.WrittenOutWordsDecode
  decide

/-- Settles O3: what decodes is well formed at its place, and its bytes are its encoding. -/
theorem encodeOfDecodeIsTheBytes : Obligations.EncodeOfDecodeIsTheBytes :=
  fun _ _ _ _ h => ⟨wellFormed_of_decode h, encode_append_of_decode h⟩

/-- Settles O4: the value of the encoder's bytes, the encoding of a value's bytes, and the reading at both length
places. -/
theorem twoByteLengthsAreInverse : Obligations.TwoByteLengthsAreInverse := by
  intro limit hlimit
  have hwide : wideLimit limit = true := decide_eq_true hlimit
  refine ⟨fun x => lenField_value hlimit, fun c c2 hc => ?_, fun x c c2 rest hc => ⟨fun hx hm => ?_, fun hx hm => ?_⟩⟩
  · exact ⟨wideLength_eq_add_mul c c2, by rw [wideLength_eq_add_mul]; omega, Machine.wideLength_le_lenMax c c2,
      lenField_wideLength hlimit hc⟩
  · rw [decode_literalLength hx]
    exact decodeLength_twoBytes (by rwa [Cfg.llenLimit, hm]) hc c2
  · rw [decode_matchLength hx]
    exact decodeLength_twoBytes (by rwa [Cfg.mlenLimit, hm]) hc c2

/-- Settles O2: the condition of each instruction names its place, and there its bytes are read as the instruction. -/
theorem decodeOfEncodeIsTheInstruction : Obligations.DecodeOfEncodeIsTheInstruction := by
  intro x i rest hwf hend
  cases i with
  | litB n =>
    obtain ⟨hx, hl⟩ : x.slot = .literalLength ∧ wideLimit x.cfg.llenLimit = false := by simpa [WellFormed] using hwf
    exact (decode_literalLength hx).trans (decodeLength_byte hl n)
  | litS n =>
    obtain ⟨hx, hl⟩ : x.slot = .literalLength ∧ wideLimit x.cfg.llenLimit = true := by simpa [WellFormed] using hwf
    exact (decode_literalLength hx).trans (decodeLength_short hl n)
  | litW lo hi =>
    obtain ⟨hx, hl⟩ : x.slot = .literalLength ∧ wideLimit x.cfg.llenLimit = true := by simpa [WellFormed] using hwf
    exact (decode_literalLength hx).trans (decodeLength_wide hl lo hi)
  | matB m =>
    obtain ⟨hx, hl⟩ : x.slot = .matchLength ∧ wideLimit x.cfg.mlenLimit = false := by simpa [WellFormed] using hwf
    exact (decode_matchLength hx).trans (decodeLength_byte hl m)
  | matS m =>
    obtain ⟨hx, hl⟩ : x.slot = .matchLength ∧ wideLimit x.cfg.mlenLimit = true := by simpa [WellFormed] using hwf
    exact (decode_matchLength hx).trans (decodeLength_short hl m)
  | matW lo hi =>
    obtain ⟨hx, hl⟩ : x.slot = .matchLength ∧ wideLimit x.cfg.mlenLimit = true := by simpa [WellFormed] using hwf
    exact (decode_matchLength hx).trans (decodeLength_wide hl lo hi)
  | off0 =>
    obtain ⟨hx, hn⟩ : x.slot = .offsetField ∧ x.cfg.offBytes = 0 := by simpa [WellFormed] using hwf
    simp [decode_offsetField hx, hn, decodeOffset, encode, coreToken]
  | off1 b0 =>
    obtain ⟨hx, hn⟩ : x.slot = .offsetField ∧ x.cfg.offBytes = 1 := by simpa [WellFormed] using hwf
    simp [decode_offsetField hx, hn, decodeOffset, encode, coreToken]
  | off2 b0 b1 =>
    obtain ⟨hx, hn⟩ : x.slot = .offsetField ∧ x.cfg.offBytes = 2 := by simpa [WellFormed] using hwf
    simp [decode_offsetField hx, hn, decodeOffset, encode, coreToken]
  | eos =>
    obtain ⟨hx, he⟩ : (x.slot = .literalLength ∨ x.slot = .matchLength) ∧ x.ended = true := by
      simpa [WellFormed] using hwf
    obtain rfl := hend rfl
    rcases hx with hx | hx
    · simp [decode_literalLength hx, he, decodeLength, encode, coreToken]
    · simp [decode_matchLength hx, he, decodeLength, encode, coreToken]
  | zlit =>
    have hx : x.slot = .literalLength := by simpa [WellFormed] using hwf
    exact (decode_literalLength hx).trans decodeLength_zero
  | zmat =>
    have hx : x.slot = .matchLength := by simpa [WellFormed] using hwf
    exact (decode_matchLength hx).trans decodeLength_zero
  | nop | cmMoff | cmMlen | cmZmc | cmLlen | mfFind | dpInit | dpFill | dpRun | dpSelect | decStart | decRun | decStep =>
    exact decode_command (by simpa [WellFormed] using hwf) rfl

end Sys2Proof
end

section
/-! PROOFS. What a step can do: the command that begins, the stream's next token or byte, and a word of the opcode table
where it is placed. -/

namespace Sys2Proof

/-- The codes that name no operation are those the table does not list (R75, R76). -/
theorem decodeCommand_eq_none_iff (code : Byte) : decodeCommand code = none ↔ code ∉ commandTable.map Prod.fst := by
  simp only [decodeCommand, List.lookup_eq_none_iff, List.mem_map, not_exists, not_and]
  exact forall₂_congr fun e _ => bne_iff_ne.trans ne_comm

/-- Only END asks whether the input has ended, so a place at which it now has admits what it admitted before. -/
theorem wellFormed_of_ended {x : Ctx} {ended : Bool} {i : Instr} (h : WellFormed x i = true)
    (he : x.ended = true → ended = true) : WellFormed { x with ended := ended } i = true := by
  cases i with
  | eos =>
    simp only [WellFormed, Bool.and_eq_true] at h ⊢
    exact ⟨h.1, he h.2⟩
  | _ => exact h

theorem tableCtx_slot_ne_matchLength (nbits w : Nat) : (tableCtx nbits w).slot ≠ .matchLength := by
  unfold tableCtx
  split_ifs <;> simp

theorem tableCtx_ended_of_ne_zero {nbits : Nat} (hn : nbits ≠ 0) (w : Nat) : (tableCtx nbits w).ended = false := by
  rw [tableCtx, if_neg hn]
  split_ifs <;> rfl

/-- A word is read at the place the table's choice gives it (log 20). -/
theorem decode_of_decodeTableWord {nbits w : Nat} {i : Instr} (h : decodeTableWord nbits w = some i) :
    ∃ rest, decode (tableCtx nbits w) (tableBytes nbits w) = .instr i rest := by
  unfold decodeTableWord at h
  split at h
  · split at h
    next j rest hd => exact ⟨rest, Option.some.inj h ▸ hd⟩
    next => cases h
  · cases h

/-- A word read as a command is a code of R75. -/
theorem decodeCommand_of_decode_tableBytes {x : Ctx} {nbits w : Nat} {i : Instr} {rest : List Byte}
    (hx : x.slot = .command) (h : decode x (tableBytes nbits w) = .instr i rest) :
    decodeCommand (BitVec.ofNat 8 w) = some i := by
  unfold tableBytes at h
  split at h
  · simp [decode, hx] at h
  · cases hc : decodeCommand (BitVec.ofNat 8 w) with
    | none => simp [decode, hx, hc] at h
    | some j =>
      rw [decode_command hx hc] at h
      cases h
      rfl

namespace Machine

open Sys2Proof.Safety

variable {s : State} {x : Ctx} {i : Instr} {rest : List Byte}

/-! ## The stream goes on -/

/-- What a token does to a decoder behind its bytes (R139 to R148); a command is none. -/
def tokenEffect (c : Cfg) : Instr → Dec → Dec
  | .litB n => Dec.literal c n.toNat
  | .litS n => Dec.literal c n.toNat
  | .litW lo hi => fun d => Dec.literal c (wideLength (wideFirst lo) hi) { d with lenlo := wideFirst lo }
  | .matB m => Dec.matchBlock c m.toNat
  | .matS m => Dec.matchBlock c m.toNat
  | .matW lo hi => fun d => Dec.matchBlock c (wideLength (wideFirst lo) hi) { d with lenlo := wideFirst lo }
  | .off0 => fun d => (d.rleSrc c).copy c
  | .off1 b0 => fun d => (d.lowOffset b0).finishOffset c
  | .off2 b0 b1 => fun d => ((d.lowOffset b0).highOffset b1).finishOffset c
  | .eos => Dec.finish
  | .zlit => Dec.literal c 0
  | .zmat => Dec.matchBlock c 0
  | .nop | .cmMoff | .cmMlen | .cmZmc | .cmLlen | .mfFind | .dpInit | .dpFill | .dpRun | .dpSelect | .decStart | .decRun
  | .decStep => id

/-- What is well formed in the stream is a token (R73). -/
theorem exec_eq_runToken (hx : x.slot ≠ .command) (h : WellFormed x i = true) (s : State) :
    exec i s = runToken i (tokenEffect s.cfg i) s := by
  cases i with
  | litB | litS | litW | matB | matS | matW | off0 | off1 | off2 | eos | zlit | zmat => rfl
  | nop | cmMoff | cmMlen | cmZmc | cmLlen | mfFind | dpInit | dpFill | dpRun | dpSelect | decStart | decRun | decStep =>
    simp [WellFormed, hx] at h

theorem tokenCtx_slot_ne_command (hx : tokenCtx s = some x) : x.slot ≠ .command := by
  obtain ⟨k, hk, rfl⟩ := tokenCtx_eq_some.mp hx
  rintro rfl
  cases hp : s.dec.phase <;> simp [hp, Phase.slot] at hk

/-- Behind its own bytes a token still stands where the decoder is: END, which alone asks for the end of `IN`, has none. -/
theorem placed_consume (hx : tokenCtx s = some x) (hd : decode x s.dec.inp = .instr i rest) :
    placed i (consume rest s) = true := by
  obtain ⟨k, hk, rfl⟩ := tokenCtx_eq_some.mp hx
  refine (placed_iff i _).mpr ⟨k, hk, wellFormed_of_ended (wellFormed_of_decode hd) fun he => ?_⟩
  obtain ⟨hinp, hend⟩ : s.dec.inp = [] ∧ s.dec.inEnd = true := by simpa using he
  have hrest : rest = [] := (List.append_eq_nil_iff.mp ((encode_append_of_decode hd).trans hinp)).2
  simp [consume, hrest, hend]

/-- Every token that is read runs, and changes the decoder only. -/
theorem exec_token_next (hx : tokenCtx s = some x) (hd : decode x s.dec.inp = .instr i rest) :
    exec i (consume rest s) = .next (s.setDec (tokenEffect s.cfg i (consume rest s).dec)) := by
  rw [exec_eq_runToken (tokenCtx_slot_ne_command hx) (wellFormed_of_decode hd), runToken,
    if_pos (placed_consume hx hd)]
  rfl

/-- The decoder behind the next token of the stream, or behind one byte step. -/
def streamDec (s : State) : Dec :=
  match fetchToken s with
  | some (i, rest) => tokenEffect s.cfg i (consume rest s).dec
  | none => s.dec.byteStep s.cfg

/-- The stream always goes on, and changes the decoder only. -/
theorem streamStep_next (s : State) : streamStep s = .next (s.setDec (streamDec s)) := by
  rcases streamStep_cases s with ⟨i, rest, hf, hs⟩ | ⟨hf, hs⟩
  · obtain ⟨x, hx, hd⟩ := fetchToken_eq_some.mp hf
    simp only [hs, exec_token_next hx hd, streamDec, hf]
  · simp only [hs, streamDec, hf, advanceDecoder]

/-- The stream does not look at the command register. -/
theorem streamDec_setCmdReq (b : Bool) (s : State) : streamDec (s.setCmdReq b) = streamDec s := rfl

/-! ## A command begins, or waits -/

theorem step_of_mayBegin (hreq : s.cmdReq = true) (hi : decodeCommand s.cmd = some i) (hb : mayBegin i s = true) :
    step s = exec i (takeCommand s) := by
  simp [step, hreq, hi, hb]

theorem step_of_unknownCommand (hreq : s.cmdReq = true) (hc : decodeCommand s.cmd = none) :
    step s = .refused (.unknownCommand s.cmd) := by
  simp [step, hreq, hc]

/-- A command answers a next state, or is refused for an operand out of range (R97, D13). -/
theorem exec_command_cases (h : WellFormed x i = true) (hx : x.slot = .command) (s : State) :
    (∃ t, exec i s = .next t) ∨
    (exec i s = .refused .operandOutOfRange ∧
      ((i = .mfFind ∧ s.mf.n.toNat < s.mf.p.toNat) ∨ (i = .dpFill ∧ s.dp.n.toNat ≤ s.dp.p.toNat) ∨
        (i = .dpSelect ∧ s.dp.n.toNat ≤ s.dp.p.toNat))) := by
  cases i with
  | litB | litS | litW | matB | matS | matW | off0 | off1 | off2 | eos | zlit | zmat => simp [WellFormed, hx] at h
  | nop | cmMoff | cmMlen | cmZmc | cmLlen => exact .inl ⟨_, rfl⟩
  | mfFind =>
    rcases execMfFind_cases s with ⟨-, he⟩ | ⟨-, -, he⟩ | ⟨-, -, hp, he⟩ | ⟨-, -, -, he⟩
    · exact .inl ⟨_, he⟩
    · exact .inl ⟨_, he⟩
    · exact .inr ⟨he, .inl ⟨rfl, hp⟩⟩
    · exact .inl ⟨_, he⟩
  | dpInit => rcases execDpInit_cases s with ⟨-, he⟩ | ⟨-, -, he⟩ | ⟨-, -, he⟩ <;> exact .inl ⟨_, he⟩
  | dpFill =>
    rcases execDpFill_cases s with ⟨-, he⟩ | ⟨-, he⟩ | ⟨-, -, he⟩ | ⟨-, hp, he⟩ | ⟨-, -, -, he⟩
    · exact .inl ⟨_, he⟩
    · exact .inl ⟨_, he⟩
    · exact .inl ⟨_, he⟩
    · exact .inr ⟨he, .inr (.inl ⟨rfl, hp⟩)⟩
    · exact .inl ⟨_, he⟩
  | dpRun => rcases execDpRun_cases s with ⟨-, he⟩ | ⟨-, -, he⟩ | ⟨-, -, he⟩ <;> exact .inl ⟨_, he⟩
  | dpSelect =>
    rcases execDpSelect_cases s with ⟨-, he⟩ | ⟨-, he⟩ | ⟨-, hp, he⟩ | ⟨-, -, -, he⟩ | ⟨-, -, c, -, he⟩
    · exact .inl ⟨_, he⟩
    · exact .inl ⟨_, he⟩
    · exact .inr ⟨he, .inr (.inr ⟨rfl, hp⟩)⟩
    · exact .inl ⟨_, he⟩
    · exact .inl ⟨_, he⟩
  | decStart => exact .inl ⟨_, execDecStart_next s⟩
  | decRun => exact .inl ⟨_, execDecRun_next s⟩
  | decStep => exact .inl ⟨_, execDecStep_next s⟩

/-- Settles O8: a code that is not listed is looked up in vain. -/
theorem nopIdlesAndUnknownCodesAreRefused : Obligations.NopIdlesAndUnknownCodesAreRefused :=
  ⟨fun _ => rfl, fun s hreq hcmd => step_of_unknownCommand hreq ((decodeCommand_eq_none_iff s.cmd).mpr hcmd)⟩

/-- Settles O6: a command that waits leaves the step to the stream, which does not look at the request. -/
theorem stepRunsPendingCommand : Obligations.StepRunsPendingCommand := by
  intro s i hreq hi
  refine ⟨fun hb => step_of_mayBegin hreq hi ((mayBegin_iff i s).mpr hb), fun hbusy hne => ?_⟩
  have hwait : mayBegin i s = false := by simp [mayBegin, hbusy, hne]
  refine ⟨(s.setCmdReq false).setDec (streamDec s), ?_, ?_⟩
  · calc step (s.setCmdReq false) = streamStep (s.setCmdReq false) := step_of_noCommandBegins (.inl rfl)
      _ = .next ((s.setCmdReq false).setDec (streamDec s)) := by rw [streamStep_next, streamDec_setCmdReq]
  · calc step s = streamStep s := step_of_noCommandBegins (.inr ⟨i, hi, hwait⟩)
      _ = .next (s.setDec (streamDec s)) := streamStep_next s
      _ = .next (((s.setCmdReq false).setDec (streamDec s)).setCmdReq true) := by rw [← hreq]; rfl

/-- Settles O11: a command that begins is refused for its operand at most, and the stream always goes on. -/
theorem onlySpecRefusalsStopAStep : Obligations.OnlySpecRefusalsStopAStep := by
  intro s
  rcases step_cases s with ⟨i, hreq, hi, hb, he⟩ | ⟨hreq, hc, he⟩ | ⟨-, he⟩ <;> rw [he]
  · have hwf : WellFormed { cfg := s.cfg, slot := .command, ended := false } i = true := wellFormed_of_decodeCommand hi rfl
    rcases exec_command_cases hwf rfl (takeCommand s) with hnext | ⟨href, hwhy⟩
    · exact .inl hnext
    · have hidle : s.dec.status.state ≠ .busy := by
        refine ((mayBegin_iff i s).mp hb).resolve_right ?_
        rintro rfl
        simp at hwhy
      rw [hi]
      exact .inr (.inr ⟨hreq, hidle, href, by simpa [takeCommand] using hwhy⟩)
  · exact .inr (.inl ⟨hreq, hc, rfl⟩)
  · exact .inl ⟨_, streamStep_next s⟩

/-! ## A word of the opcode table in its place -/

theorem step_of_fetchToken (hreq : s.cmdReq = false) (hf : fetchToken s = some (i, rest)) :
    step s = exec i (consume rest s) :=
  (step_of_noCommandBegins (.inl hreq)).trans (streamStep_of_fetchToken hf)

theorem giveUp_not_busy (d : Dec) : d.giveUp.status.state ≠ .busy := by
  unfold Dec.giveUp
  split
  · simp [Status.reset]
  · assumption

variable {nbits w : Nat}

/-- A command in its place is the next to begin: a run that would hold it up is given up (log 20). -/
theorem step_placed_command (hslot : (tableCtx nbits w).slot = .command)
    (hd : decode (tableCtx nbits w) (tableBytes nbits w) = .instr i rest) (s : State) :
    step (placeTableWord s nbits w) = exec i (takeCommand (placeTableWord s nbits w)) := by
  have hc := decodeCommand_of_decode_tableBytes hslot hd
  simp only [placeTableWord, hslot, hc]
  refine step_of_mayBegin rfl hc ((mayBegin_iff i _).mpr ?_)
  by_cases hi : i = .decStep
  · exact .inr hi
  · exact .inl (by simpa [hi] using giveUp_not_busy s.dec)

/-- A literal's word in its place is read as it was alone: the limit and the end of `IN` are those of its place. -/
theorem fetchToken_placed_literal (hslot : (tableCtx nbits w).slot = .literalLength)
    (hd : decode (tableCtx nbits w) (tableBytes nbits w) = .instr i rest) (s : State) :
    fetchToken (placeTableWord s nbits w) = some (i, rest) := by
  refine fetchToken_eq_some.mpr ?_
  by_cases hn : nbits = 0
  · subst hn
    exact ⟨_, rfl, hd⟩
  · have hended := tableCtx_ended_of_ne_zero hn w
    have hcons : (tableBytes nbits w).isEmpty = false := by simp [tableBytes, hn]
    simp only [decode, hslot, hended] at hd
    simp only [placeTableWord, hslot, hn]
    exact ⟨_, rfl, by simpa [decode, hcons] using hd⟩

/-- An offset's word in its place is read as it was alone: the number of its bytes is that of its place. -/
theorem fetchToken_placed_offset (hslot : (tableCtx nbits w).slot = .offsetField)
    (hd : decode (tableCtx nbits w) (tableBytes nbits w) = .instr i rest) (s : State) :
    fetchToken (placeTableWord s nbits w) = some (i, rest) := by
  refine fetchToken_eq_some.mpr ?_
  rw [decode_offsetField hslot] at hd
  simp only [placeTableWord, hslot]
  exact ⟨_, rfl, hd⟩

/-- Settles O5: a command begins, and a token is read as it was alone. -/
theorem placedTableWordRuns : Obligations.PlacedTableWordRuns := by
  intro s nbits w i h
  obtain ⟨rest, hd⟩ := decode_of_decodeTableWord h
  cases hslot : (tableCtx nbits w).slot with
  | command => exact .inl (step_placed_command hslot hd s)
  | literalLength =>
    refine .inr ⟨rest, step_of_fetchToken ?_ (fetchToken_placed_literal hslot hd s)⟩
    simp only [State.withFetchWord, placeTableWord, hslot]
  | offsetField =>
    refine .inr ⟨rest, step_of_fetchToken ?_ (fetchToken_placed_offset hslot hd s)⟩
    simp only [State.withFetchWord, placeTableWord, hslot]
  | matchLength => exact absurd hslot (tableCtx_slot_ne_matchLength nbits w)

end Machine
end Sys2Proof
end

section
/-! PROOFS. A run with the end of `IN` indicated: each part of it goes on with fewer bytes left, or ends with none. -/

namespace Sys2Proof.Machine

namespace Dec

/-- A run over a stream of `total` bytes whose end is indicated, with fewer than `bound` bytes left (R26, R44, R136). -/
structure Reading (total bound : Nat) (d : Dec) : Prop where
  closed : d.inEnd = true
  status : d.status = Status.started
  counted : d.ip + d.inp.length = total
  left : d.inp.length < bound

/-- How such a run ends: all bytes consumed, cleanly or by `Truncated` with its record (R148, R149, R166). -/
structure Ended (total : Nat) (d : Dec) : Prop where
  consumed : d.inp = []
  counted : d.ip = total
  outcome :
    (d.phase = .done ∧ d.status = { state := .done, errcode := .none }) ∨
    (d.phase = .err ∧ d.status = { state := .err, errcode := .truncated } ∧ d.errexp ≠ .none ∧ d.errpos = d.pos ∧
      d.errip = d.ip)

variable {c : Cfg} {total bound : Nat} {d d' : Dec}

theorem reading_start (h : d.inEnd = true) : d.start.Reading d.inp.length (d.inp.length + 1) :=
  ⟨h, rfl, Nat.zero_add _, Nat.lt_succ_self _⟩

/-- What a run reads does not depend on the registers it keeps besides. -/
theorem Reading.of_eq (h : d.Reading total bound) (hinp : d'.inp = d.inp) (hip : d'.ip = d.ip)
    (hstatus : d'.status = d.status) (hend : d'.inEnd = d.inEnd) : d'.Reading total bound :=
  ⟨hend.trans h.closed, hstatus.trans h.status, by rw [hip, hinp]; exact h.counted, by rw [hinp]; exact h.left⟩

theorem Reading.mono (h : d.Reading total bound) : d.Reading total (bound + 1) :=
  ⟨h.closed, h.status, h.counted, Nat.lt_succ_of_lt h.left⟩

theorem Reading.ended_finish (h : d.Reading total bound) (hinp : d.inp = []) : d.finish.Ended total := by
  have hip : d.ip = total := by simpa [hinp] using h.counted
  exact ⟨hinp, hip, .inl ⟨rfl, by rw [finish_status, h.status]; rfl⟩⟩

theorem Reading.ended_raiseTruncated (h : d.Reading total bound) (hinp : d.inp = []) {e : Expected} (he : e ≠ .none) :
    (d.raiseTruncated e).Ended total := by
  have hip : d.ip = total := by simpa [hinp] using h.counted
  exact ⟨hinp, hip, .inr ⟨rfl, rfl, he, rfl, rfl⟩⟩

/-- `InByte()` never waits: it takes one of the bytes left, or there is none (R44). -/
theorem Reading.inByte_cases (h : d.Reading total (bound + 1)) :
    (∃ b d', d.inByte = .byte b d' ∧ d'.Reading total bound) ∨ (d.inp = [] ∧ d.inByte = .eof) := by
  obtain ⟨hend, hstatus, hcount, hleft⟩ := h
  rcases d.inByte_cases with ⟨b, rest, hinp, hb⟩ | ⟨hinp, -, hb⟩ | ⟨-, hopen, -⟩
  · rw [hinp, List.length_cons] at hcount hleft
    exact .inl ⟨b, _, hb, hend, hstatus, by simp only; omega, by simp only; omega⟩
  · exact .inr ⟨hinp, hb⟩
  · simp [hend] at hopen

/-- `GetLen` consumes a byte and answers, or ends the run (R138). -/
theorem Reading.getLen (h : d.Reading total (bound + 1)) (limit : Nat) (second : Phase) :
    (∃ d', d.getLen limit second = .stop d' ∧ d'.Ended total) ∨
    (∃ n d', d.getLen limit second = .length n d' ∧ d'.Reading total bound) := by
  unfold Dec.getLen
  rcases h.inByte_cases with ⟨b, d1, h1, hr1⟩ | ⟨hinp, h1⟩ <;> rw [h1]
  · simp only
    split
    · exact .inr ⟨_, _, rfl, hr1⟩
    · have hlow : Reading total (bound + 1) { d1 with lenlo := b } := hr1.mono.of_eq rfl rfl rfl rfl
      rcases hlow.inByte_cases with ⟨b2, d2, h2, hr2⟩ | ⟨hinp, h2⟩ <;> rw [h2]
      · exact .inr ⟨_, _, rfl, hr2⟩
      · exact .inl ⟨_, rfl, hlow.ended_raiseTruncated hinp (by decide)⟩
  · exact .inl ⟨_, rfl, h.ended_finish hinp⟩

/-- A literal is read to where a match length is expected, or is cut off (R139, R149). -/
theorem Reading.literalLoop (h : d.Reading total bound) (n : Nat) :
    ((d.literalLoop c n).phase = .mlen ∧ (d.literalLoop c n).Reading total bound) ∨
    ((d.literalLoop c n).phase ≠ .mlen ∧ (d.literalLoop c n).Ended total) := by
  induction n generalizing d with
  | zero => exact .inl ⟨rfl, h.of_eq rfl rfl rfl rfl⟩
  | succ n ih =>
    unfold Dec.literalLoop
    rcases h.mono.inByte_cases with ⟨b, d1, h1, hr1⟩ | ⟨hinp, h1⟩ <;> rw [h1]
    · exact ih (hr1.of_eq rfl rfl rfl rfl)
    · exact .inr ⟨by simp, h.ended_raiseTruncated hinp (by decide)⟩

theorem Reading.literal (h : d.Reading total bound) (n : Nat) :
    ((d.literal c n).phase = .mlen ∧ (d.literal c n).Reading total bound) ∨
    ((d.literal c n).phase ≠ .mlen ∧ (d.literal c n).Ended total) :=
  Reading.literalLoop (d := { d with cnt := n }) (h.of_eq rfl rfl rfl rfl) n

/-- A copy reads nothing and ends where a literal length is expected (R147). -/
theorem Reading.copy (h : d.Reading total bound) : (d.copy c).phase = .llen ∧ (d.copy c).Reading total bound := by
  obtain ⟨hinp, hip, -, hstatus, hend, -, hphase, -, -⟩ := copyLoop_frame c d.cnt d
  exact ⟨hphase, h.of_eq hinp hip hstatus hend⟩

theorem Reading.finishOffset (h : d.Reading total bound) :
    (d.finishOffset c).phase = .llen ∧ (d.finishOffset c).Reading total bound :=
  Reading.copy (d := d.computeSrc c) (h.of_eq rfl rfl rfl rfl)

/-- An offset field is read with its copy, or is cut off (R141, R149). -/
theorem Reading.offsetField (h : d.Reading total bound) :
    ((d.offsetField c).phase = .llen ∧ (d.offsetField c).Reading total bound) ∨
    ((d.offsetField c).phase ≠ .llen ∧ (d.offsetField c).Ended total) := by
  unfold Dec.offsetField
  split
  · exact .inl (Reading.copy (d := d.rleSrc c) (h.of_eq rfl rfl rfl rfl))
  · rcases h.mono.inByte_cases with ⟨b0, d1, h1, hr1⟩ | ⟨hinp, h1⟩ <;> rw [h1]
    · have hlow : (d1.lowOffset b0).Reading total bound := hr1.of_eq rfl rfl rfl rfl
      simp only
      split
      · rcases hlow.mono.inByte_cases with ⟨b1, d2, h2, hr2⟩ | ⟨hinp, h2⟩ <;> rw [h2]
        · exact .inl (Reading.finishOffset (d := d2.highOffset b1) (hr2.of_eq rfl rfl rfl rfl))
        · exact .inr ⟨by simp, hlow.ended_raiseTruncated hinp (by decide)⟩
      · exact .inl hlow.finishOffset
    · exact .inr ⟨by simp, h.ended_raiseTruncated hinp (by decide)⟩

theorem Reading.matchBlock (h : d.Reading total bound) (n : Nat) :
    ((d.matchBlock c n).phase = .llen ∧ (d.matchBlock c n).Reading total bound) ∨
    ((d.matchBlock c n).phase ≠ .llen ∧ (d.matchBlock c n).Ended total) := by
  unfold Dec.matchBlock
  split
  · exact Reading.offsetField (d := { d with cnt := n }) (h.of_eq rfl rfl rfl rfl)
  · exact .inl ⟨rfl, h.of_eq rfl rfl rfl rfl⟩

/-- With more rounds than bytes left the loop ends the run: a round that goes on has consumed a byte (R137). -/
theorem Reading.ended_loop {k : Nat} (h : d.Reading total k) : (d.loop c k).Ended total := by
  induction k generalizing d with
  | zero => exact absurd h.left (Nat.not_lt_zero _)
  | succ k ih =>
    unfold Dec.loop
    rcases h.getLen c.llenLimit .llen2 with ⟨d1, h1, he1⟩ | ⟨n, d1, h1, hr1⟩ <;> rw [h1]
    · exact he1
    · simp only
      rcases hr1.literal (c := c) n with ⟨hp2, hr2⟩ | ⟨hp2, he2⟩
      · rw [if_pos hp2]
        rcases hr2.mono.getLen c.mlenLimit .mlen2 with ⟨d3, h3, he3⟩ | ⟨m, d3, h3, hr3⟩ <;> rw [h3]
        · exact he3
        · simp only
          rcases hr3.matchBlock (c := c) m with ⟨hp4, hr4⟩ | ⟨hp4, he4⟩
          · rw [if_pos hp4]
            exact ih hr4
          · rwa [if_neg hp4]
      · rwa [if_neg hp2]

theorem ended_run (h : d.inEnd = true) : (d.run c).Ended d.inp.length :=
  (reading_start h).ended_loop

end Dec

/-- Settles O51: the run ends, and `OUT` has grown by the bytes it has emitted from the start. -/
theorem everyStreamEnds : Obligations.EveryStreamEnds := by
  intro s hv hend
  have hexec : exec .decRun s = .next (s.setDec (s.dec.run s.cfg)) :=
    (execDecRun_next s).trans (by simp [hv])
  obtain ⟨xs, hout, hpos⟩ := (Dec.emits_loop (c := s.cfg) s.dec.start (s.dec.inp.length + 1)).out_pos
  obtain ⟨hinp, hip, houtcome⟩ := Dec.ended_run (c := s.cfg) hend
  exact ⟨_, xs, hexec, hinp, hip, hout, hpos.trans (Nat.zero_add _), houtcome⟩

end Sys2Proof.Machine
end

section
/-! PROOFS. The cost unit: the fields' costs against the sizes of the fields, the closed form of the cost of a
literal run, and its monotonicity. -/

namespace Sys2Proof

namespace Cfg

variable {c : Cfg} {z : Nat}

theorem one_le_llenLimit (hv : c.valid = true) : 1 ≤ c.llenLimit := by
  obtain ⟨-, -, ⟨hlow, -⟩, -⟩ := (configurationValidity c).mp hv
  exact hlow

/-- A finite `moff_cost` is the size of the offset field (R64, R81). -/
theorem moffCost_of_ne_inf {o : Nat} (h : c.moffCost o ≠ .inf) : c.moffCost o = .fin (8 * c.offBytes) := by
  unfold Cfg.moffCost at h ⊢
  unfold Cfg.offBytes
  split
  · rename_i hout
    exact absurd (if_pos hout) h
  · split
    · rfl
    · split <;> rfl

theorem length_lenField (limit x : Nat) : (lenField limit x).length = if 255 < limit ∧ 127 < x then 2 else 1 := by
  unfold lenField
  split <;> rfl

/-- A finite `mlen_cost` is the size of the length field (R65, R66, R82). -/
theorem mlenCost_of_ne_inf {l : Nat} (h : c.mlenCost l ≠ .inf) :
    c.mlenCost l = .fin (8 * (lenField c.mlenLimit l).length) := by
  unfold Cfg.mlenCost at h ⊢
  rw [length_lenField]
  split
  · rename_i hout
    exact absurd (if_pos hout) h
  · split <;> rfl

@[simp] theorem mlenCost_zero (c : Cfg) : c.mlenCost 0 = .fin 8 := by
  simp [Cfg.mlenCost]

/-- Distance 1 is always inside the window (R83). -/
@[simp] theorem moffCost_one (c : Cfg) : c.moffCost 1 = .fin (8 * c.offBytes) := by
  obtain ⟨k, hk⟩ := c.moffCost_finite (Nat.le_refl 1) c.one_le_maxOff
  exact moffCost_of_ne_inf (by simp [hk])

/-- `zero_match_cost` is the size of a zero-length match: its length byte, and the offset field if it has one (R63,
R83). -/
theorem zeroMatchCost_eq (c : Cfg) :
    c.zeroMatchCost = .fin (8 * (1 + if c.zeroOffset then c.offBytes else 0)) := by
  unfold Cfg.zeroMatchCost
  split <;> simp [Nat.mul_add]

/-- The loop of R84 from `n + 1` bytes: one split for each `MAX_LLEN` in `n`, and the rest is one more than the
remainder. -/
theorem llenSplits_succ (hz : c.zeroMatchCost = .fin z) (hm : 1 ≤ c.llenLimit) {k n : Nat} (hk : n < k) (acc : Nat) :
    c.llenSplits k (.fin acc) (n + 1) =
      (.fin (acc + n / c.llenLimit * (8 + z)), n % c.llenLimit + 1) := by
  induction k generalizing n acc with
  | zero => omega
  | succ k ih =>
    unfold Cfg.llenSplits
    split
    · obtain ⟨j, rfl⟩ : ∃ j, n = j + c.llenLimit := ⟨n - c.llenLimit, by omega⟩
      have hrest : j + c.llenLimit + 1 - c.llenLimit = j + 1 := by omega
      rw [hrest, hz, Cost.fin_add_fin, Cost.fin_add_fin, ih (by omega), Nat.add_div_right j hm, Nat.add_mod_right,
        Nat.succ_mul]
      congr 2
      omega
    · rw [Nat.div_eq_of_lt (by omega), Nat.mod_eq_of_lt (by omega), Nat.zero_mul]
      rfl

@[simp] theorem llenCost_zero (c : Cfg) : c.llenCost 0 = .fin 0 := rfl

/-- `llen_cost` in closed form for a run that is not empty (R84). -/
theorem llenCost_succ (hz : c.zeroMatchCost = .fin z) (hm : 1 ≤ c.llenLimit) (n : Nat) :
    c.llenCost (n + 1) = .fin (8 + n / c.llenLimit * (8 + z) +
      (if 255 < c.llenLimit ∧ 127 < n % c.llenLimit + 1 then 8 else 0)) := by
  unfold Cfg.llenCost
  rw [if_neg n.succ_ne_zero, llenSplits_succ hz hm (Nat.lt_succ_self n)]
  dsimp only
  split <;> simp [Nat.add_assoc]

/-- The split count of R84, `ceil(l / MAX_LLEN) - 1`, is the number of whole `MAX_LLEN` below `l`. -/
theorem ceil_div_sub_one (n : Nat) {m : Nat} (hm : 1 ≤ m) : (n + 1 + m - 1) / m - 1 = n / m := by
  rw [show n + 1 + m - 1 = n + m by omega, Nat.add_div_right n hm, Nat.succ_sub_one]

/-- One more split outweighs the second header byte that the rest loses (R85). -/
theorem llen_bits_mono {m n k : Nat} (h : n ≤ k) (z : Nat) :
    n / m * (8 + z) + (if 255 < m ∧ 127 < n % m + 1 then 8 else 0) ≤
      k / m * (8 + z) + (if 255 < m ∧ 127 < k % m + 1 then 8 else 0) := by
  rcases (Nat.div_le_div_right (c := m) h).eq_or_lt with heq | hlt
  · have hn := Nat.div_add_mod n m
    have hk := Nat.div_add_mod k m
    rw [heq] at hn ⊢
    split <;> split <;> omega
  · have hsplit : (n / m + 1) * (8 + z) ≤ k / m * (8 + z) := Nat.mul_le_mul_right _ hlt
    rw [Nat.succ_mul] at hsplit
    split <;> split <;> omega

/-- Settles O24: by the closed form, within a block and across a split. -/
theorem literalLengthCostMonotone : Obligations.LiteralLengthCostMonotone := by
  intro c a b hv hab
  have hm := one_le_llenLimit hv
  have hz := c.zeroMatchCost_eq
  match a, b with
  | 0, 0 => rfl
  | 0, k + 1 => simp [llenCost_succ hz hm]
  | n + 1, k + 1 =>
    have hbits := llen_bits_mono (m := c.llenLimit) (Nat.le_of_succ_le_succ hab)
      (8 * (1 + if c.zeroOffset then c.offBytes else 0))
    rw [llenCost_succ hz hm, llenCost_succ hz hm, Cost.fin_le_fin, decide_eq_true_eq, Nat.add_assoc, Nat.add_assoc]
    exact Nat.add_le_add_left hbits 8

end Cfg

namespace Machine

open Cfg

/-- An operation of `CM` answers with its cost on the result port, and changes nothing else (R80). -/
theorem answerCost_eq {x y : Cost} (h : x = y) (s : State) :
    (.next (answerCost x s) : Host.Outcome State Fault Refusal) =
      .next { s with cm := { s.cm with result := if s.cfg.valid then .cost y else .cfgError } } :=
  h ▸ rfl

/-- Settles O23: the closed form of `llen_cost` with R84's count of splits and rest. -/
theorem literalLengthCostClosedForm : Obligations.LiteralLengthCostClosedForm := by
  intro s z hv hz l m splits r
  have hm : 1 ≤ m := one_le_llenLimit hv
  have hcost : s.cfg.llenCost l =
      .fin (if l = 0 then 0 else 8 + splits * (8 + z) + (if 255 < m ∧ 127 < r then 8 else 0)) := by
    rcases hl : l with _ | n
    · rfl
    · have hsplits : splits = n / m := by simp only [splits, hl, ceil_div_sub_one n hm]
      have hrest : r = n % m + 1 := by
        have hdiv := Nat.div_add_mod n m
        have hr : r = n + 1 - m * (n / m) := by simp only [r, hl, hsplits, Nat.mul_comm]
        omega
      rw [llenCost_succ hz hm, hsplits, hrest, if_neg n.succ_ne_zero]
  exact (answerCost_eq hcost s).trans (by rw [if_pos hv])

/-- Settles O20: the tests are those of `moff_cost`, with `max_off` as a power of two. -/
theorem offsetCost : Obligations.OffsetCost := by
  refine ⟨rfl, fun s => ?_⟩
  intro o cost
  have hcost : s.cfg.moffCost o = cost := by rw [Cfg.moffCost, maxOff_eq_two_pow]
  exact ⟨answerCost_eq hcost s, fun hfin => hcost ▸ moffCost_of_ne_inf (hcost ▸ hfin)⟩

/-- Settles O21: the tests are those of `mlen_cost`, and a finite cost is the field's size. -/
theorem matchLengthCost : Obligations.MatchLengthCost :=
  ⟨rfl, fun s => ⟨answerCost_eq rfl s, mlenCost_of_ne_inf⟩⟩

/-- Settles O22: the values of R83 are those of the token's size, by the cases of `off_bytes`. -/
theorem zeroMatchCostValues : Obligations.ZeroMatchCostValues := by
  refine ⟨rfl, fun s => ?_⟩
  intro bits
  have hbits : bits = 8 * (1 + if s.cfg.zeroOffset then s.cfg.offBytes else 0) := by
    simp only [bits, Cfg.offBytes]
    cases s.cfg.zeroOffset
    · rfl
    · simp only [Bool.true_eq_false, if_false, if_true]
      split
      · rfl
      · split <;> rfl
  have hcost : s.cfg.zeroMatchCost = .fin bits := s.cfg.zeroMatchCost_eq.trans (congrArg Cost.fin hbits.symm)
  exact ⟨answerCost_eq hcost s, hcost.symm, hbits⟩

end Machine

end Sys2Proof
end

section
/-! PROOFS. The match finder: the scan of R93 keeps the best match among the distances it has passed, the bounds of what
it answers, and the operands that have no meaning. -/

namespace Sys2Proof

open Sys2Proof.Safety

variable {c : Cfg} {dat : Nat → Byte} {n p low len dist : Nat} {best : Nat × Nat}

/-- `lcp(i)` reaches the lengths up to the cap over which the bytes agree (R92). -/
theorem le_commonPrefix_iff {cap i : Nat} :
    len ≤ commonPrefix dat cap p i ↔ len ≤ cap ∧ ∀ j, j < len → dat (p + j) = dat (i + j) := by
  obtain ⟨-, hcap, hsame, hstop⟩ := prefixFrom_spec (fun j => dat (p + j) == dat (i + j)) cap 0
  rw [Nat.zero_add] at hcap hstop
  constructor
  · intro h
    exact ⟨h.trans hcap, fun j hj => beq_iff_eq.mp (hsame j j.zero_le (hj.trans_le h))⟩
  · rintro ⟨hlen, heq⟩
    by_contra hlt
    have hshort := Nat.lt_of_not_le hlt
    have hdiffer := hstop (hshort.trans_le hlen)
    exact absurd (heq _ hshort) (beq_eq_false_iff_ne.mp hdiffer)

/-- A match at a distance of the window is a length from 1 to the common prefix there (R91, R92). -/
theorem isMatch_iff_le_commonPrefix (h1 : 1 ≤ dist) (hw : dist ≤ min p c.maxOff) :
    IsMatch c dat n p len dist ↔
      1 ≤ len ∧ len ≤ commonPrefix dat (min c.mlenLimit (n - p)) p (p - dist) := by
  rw [le_commonPrefix_iff]
  exact ⟨fun ⟨hlen, hcap, _, _, heq⟩ => ⟨hlen, hcap, heq⟩, fun ⟨hlen, hcap, heq⟩ => ⟨hlen, hcap, h1, hw, heq⟩⟩

/-- The invariant of the scan of R93: `best` is `(0, 0)` or a match, and no match at a distance above `low` is longer, or
as long and nearer. -/
def BestBeyond (c : Cfg) (dat : Nat → Byte) (n p low : Nat) (best : Nat × Nat) : Prop :=
  (best = (0, 0) ∨ IsMatch c dat n p best.1 best.2) ∧
  ∀ len dist, IsMatch c dat n p len dist → low < dist → len ≤ best.1 ∧ (len = best.1 → best.2 ≤ dist)

/-- Before the scan: no match lies beyond the window. -/
theorem bestBeyond_window : BestBeyond c dat n p (min p c.maxOff) (0, 0) :=
  ⟨.inl rfl, fun _ _ ⟨_, _, _, hw, _⟩ hlt => absurd hlt (Nat.not_lt.mpr hw)⟩

/-- A round of the scan takes in the next smaller distance: on ties it wins, being the smallest so far (R93). -/
theorem bestBeyond_round (h : BestBeyond c dat n p (low + 1) best) (hw : low + 1 ≤ min p c.maxOff) {k : Nat}
    (hk : k = commonPrefix dat (min c.mlenLimit (n - p)) p (p - (low + 1))) :
    BestBeyond c dat n p low (if 1 ≤ k ∧ best.1 ≤ k then (k, low + 1) else best) := by
  obtain ⟨hbest, hfar⟩ := h
  have hhere : ∀ len, IsMatch c dat n p len (low + 1) ↔ 1 ≤ len ∧ len ≤ k := fun _ =>
    hk ▸ isMatch_iff_le_commonPrefix (Nat.le_add_left 1 low) hw
  split
  · rename_i hwins
    obtain ⟨hpos, hlonger⟩ := hwins
    refine ⟨.inr ((hhere k).mpr ⟨hpos, le_rfl⟩), fun len dist hm hlow => ⟨?_, fun _ => hlow⟩⟩
    rcases Nat.eq_or_lt_of_le hlow with rfl | hlow
    · exact ((hhere len).mp hm).2
    · exact (hfar len dist hm hlow).1.trans hlonger
  · rename_i hloses
    refine ⟨hbest, fun len dist hm hlow => ?_⟩
    rcases Nat.eq_or_lt_of_le hlow with rfl | hlow
    · obtain ⟨hpos, hle⟩ := (hhere len).mp hm
      have hshorter : len < best.1 := by omega
      exact ⟨hshorter.le, fun heq => absurd heq hshorter.ne⟩
    · exact hfar len dist hm hlow

/-- After the scan every distance is above `low`. -/
theorem BestBeyond.bestMatch (h : BestBeyond c dat n p 0 best) : BestMatch c dat n p best.1 best.2 := by
  obtain ⟨hnone | hbest, hall⟩ := h
  · subst hnone
    refine .inl ⟨rfl, rfl, fun len dist hm => ?_⟩
    have ⟨hlen, _, hdist, _⟩ := hm
    exact absurd (hall len dist hm hdist).1 (Nat.not_le.mpr hlen)
  · exact .inr ⟨hbest, fun len dist hm =>
      have ⟨_, _, hdist, _⟩ := hm
      hall len dist hm hdist⟩

/-- What MF.FIND answers with (R91 to R94): after `j` rounds of the scan the distances above `min(p, max_off) - j` are
taken in. -/
theorem findMatch_bestMatch (c : Cfg) (dat : Nat → Byte) (n p : Nat) :
    BestMatch c dat n p (findMatch c dat n p).1 (findMatch c dat n p).2 := by
  refine BestBeyond.bestMatch ?_
  rw [← Nat.sub_self (min p c.maxOff)]
  refine loopUp_induction (fun j best => BestBeyond c dat n p (min p c.maxOff - j) best) bestBeyond_window
    fun j best hj hbest => ?_
  have hlow : min p c.maxOff - j = min p c.maxOff - (j + 1) + 1 := by omega
  have hindex : p - c.maxOff + (j + 1 - 1) = p - (min p c.maxOff - (j + 1) + 1) := by omega
  have hdist : p - (p - (min p c.maxOff - (j + 1) + 1)) = min p c.maxOff - (j + 1) + 1 := by omega
  rw [hlow] at hbest
  dsimp only
  rw [hindex, hdist]
  exact bestBeyond_round hbest (by omega) rfl

/-- Where the finder's length is not 0 its answer is a match (R94). -/
theorem findMatch_isMatch (h : 1 ≤ (findMatch c dat n p).1) :
    IsMatch c dat n p (findMatch c dat n p).1 (findMatch c dat n p).2 := by
  rcases findMatch_bestMatch c dat n p with ⟨hzero, -⟩ | ⟨hm, -⟩
  · omega
  · exact hm

theorem findMatch_length_le (c : Cfg) (dat : Nat → Byte) (n p : Nat) :
    (findMatch c dat n p).1 ≤ min c.mlenLimit (n - p) := by
  rcases findMatch_bestMatch c dat n p with ⟨hzero, -⟩ | ⟨⟨-, hcap, -⟩, -⟩
  · exact hzero ▸ Nat.zero_le _
  · exact hcap

/-- Settles O26: the answer is a match, whose distance and lengths have finite costs, and so is each prefix of it. -/
theorem finderResultBounds : Obligations.FinderResultBounds := by
  intro c dat n p _ _ r
  refine ⟨findMatch_length_le c dat n p, fun hpos => ?_⟩
  obtain ⟨-, hcap, hdist, hwindow, heq⟩ := findMatch_isMatch hpos
  obtain ⟨_, hmoff⟩ := c.moffCost_finite hdist (hwindow.trans (Nat.min_le_right _ _))
  have hmlen : ∀ l, l ≤ r.1 → c.mlenCost l ≠ .inf := fun l hl => by
    obtain ⟨_, hcost⟩ := c.mlenCost_finite (hl.trans (hcap.trans (Nat.min_le_left _ _)))
    simp [hcost]
  exact ⟨hdist, hwindow, by simp [r, hmoff], hmlen, fun l _ hl j hj => heq j (hj.trans_le hl)⟩

namespace Machine

/-- Settles O25: under the premises MF.FIND runs the scan, which answers a best match. -/
theorem finderAnswersBestMatch : Obligations.FinderAnswersBestMatch := by
  intro s hv hcap hp
  refine ⟨_, _, ?_, findMatch_bestMatch s.cfg (dataByte s.data) s.mf.n.toNat s.mf.p.toNat⟩
  rcases execMfFind_cases s with ⟨hinv, -⟩ | ⟨-, hover, -⟩ | ⟨-, -, hout, -⟩ | ⟨-, -, -, he⟩
  · simp [hv] at hinv
  · exact absurd hcap (Nat.not_le.mpr hover)
  · exact absurd hp (Nat.not_le.mpr hout)
  · exact he

/-- Settles O35: under the premises no other end of the three commands is left. -/
theorem operandsOutOfRangeAreRefused : Obligations.OperandsOutOfRangeAreRefused := by
  intro s hv
  refine ⟨fun hcap hout => ?_, fun herr hout => ⟨?_, fun hcap => ?_⟩⟩
  · rcases execMfFind_cases s with ⟨hinv, -⟩ | ⟨-, hover, -⟩ | ⟨-, -, -, he⟩ | ⟨-, -, hin, -⟩
    · simp [hv] at hinv
    · exact absurd hcap (Nat.not_le.mpr hover)
    · exact he
    · exact absurd hin (Nat.not_le.mpr hout)
  · rcases execDpSelect_cases s with ⟨he, -⟩ | ⟨hinv, -⟩ | ⟨-, -, he⟩ | ⟨-, hin, -⟩ | ⟨-, hin, -⟩
    · exact absurd he herr
    · simp [hv] at hinv
    · exact he
    · exact absurd hout (Nat.not_le.mpr hin)
    · exact absurd hout (Nat.not_le.mpr hin)
  · rcases execDpFill_cases s with ⟨he, -⟩ | ⟨hinv, -⟩ | ⟨-, hover, -⟩ | ⟨-, -, he⟩ | ⟨-, -, hin, -⟩
    · exact absurd he herr
    · simp [hv] at hinv
    · exact absurd hcap (Nat.not_le.mpr hover)
    · exact he
    · exact absurd hout (Nat.not_le.mpr hin)

end Machine

end Sys2Proof
end

section
/-! PROOFS. The order of costs, and which candidate a loop with a strict or a non-strict comparison leaves: the literal
path (R103, R104) and the match path (R105, R106). -/

namespace Sys2Proof

open Sys2Proof.Safety

namespace Cost

variable {a b c : Cost}

theorem le_of_lt (h : a.lt b = true) : a.le b = true := by
  cases a <;> cases b <;> simp_all
  omega

theorem not_lt_iff : ¬ a.lt b = true ↔ b.le a = true := by
  rw [lt_eq_not_le, Bool.not_eq_true', Bool.not_eq_false]

theorem lt_of_lt_of_le (h : a.lt b = true) (h' : b.le c = true) : a.lt c = true := by
  cases a <;> cases b <;> cases c <;> simp_all
  omega

theorem ne_of_lt (h : a.lt b = true) : a ≠ b := by
  rintro rfl
  cases a <;> simp at h

theorem ne_inf_of_lt (h : a.lt b = true) : a ≠ .inf := by
  rintro rfl
  cases h

theorem ne_inf_of_le (h : a.le b = true) (hb : b ≠ .inf) : a ≠ .inf := by
  rintro rfl
  cases b <;> simp_all

theorem add_ne_inf (ha : a ≠ .inf) (hb : b ≠ .inf) : a.add b ≠ .inf := by
  cases a <;> cases b <;> simp_all

theorem sub_ne_inf (ha : a ≠ .inf) (b : Cost) : a.sub b ≠ .inf := by
  cases a <;> cases b <;> simp_all [Cost.sub]

end Cost

/-! ## The first of the cheapest candidates -/

/-- After the candidates 1 to `j`, those that are `admitted`, a loop with a strict comparison holds the cheapest of them
and its length, the first among equals, if one is below what it started from. -/
def CheapestUpTo (cand : Nat → Cost) (len : Nat → Nat) (admitted : Nat → Prop) (start : Cost × Nat) (j : Nat)
    (best : Cost × Nat) : Prop :=
  (∀ k, 1 ≤ k → k ≤ j → admitted k → best.1.le (cand k) = true) ∧
  (best = start ∨
    ∃ i, 1 ≤ i ∧ i ≤ j ∧ admitted i ∧ best = (cand i, len i) ∧ best.1.lt start.1 = true ∧
      ∀ k, 1 ≤ k → k < i → admitted k → best.1.lt (cand k) = true)

section
variable {cand : Nat → Cost} {len : Nat → Nat} {admitted : Nat → Prop} {start best : Cost × Nat} {j : Nat}

theorem cheapestUpTo_zero : CheapestUpTo cand len admitted start 0 start :=
  ⟨fun k h1 h0 => absurd h1 (by omega), .inl rfl⟩

theorem CheapestUpTo.le_start (h : CheapestUpTo cand len admitted start j best) : best.1.le start.1 = true := by
  obtain ⟨-, rfl | ⟨i, -, -, -, -, hlt, -⟩⟩ := h
  · exact Cost.le_refl _
  · exact Cost.le_of_lt hlt

/-- The next candidate is left out, or is not cheaper. -/
theorem CheapestUpTo.skip (h : CheapestUpTo cand len admitted start j best)
    (hskip : admitted (j + 1) → best.1.le (cand (j + 1)) = true) :
    CheapestUpTo cand len admitted start (j + 1) best := by
  obtain ⟨hmin, hfirst⟩ := h
  refine ⟨fun k h1 hk ha => ?_, hfirst.imp_right ?_⟩
  · rcases Nat.eq_or_lt_of_le hk with rfl | hk
    · exact hskip ha
    · exact hmin k h1 (by omega) ha
  · rintro ⟨i, h1, hi, hrest⟩
    exact ⟨i, h1, by omega, hrest⟩

/-- The next candidate is strictly cheaper than every one before it. -/
theorem CheapestUpTo.take (h : CheapestUpTo cand len admitted start j best) (ha : admitted (j + 1))
    (hlt : (cand (j + 1)).lt best.1 = true) :
    CheapestUpTo cand len admitted start (j + 1) (cand (j + 1), len (j + 1)) := by
  have hbefore : ∀ k, 1 ≤ k → k ≤ j → admitted k → (cand (j + 1)).lt (cand k) = true := fun k h1 hk hak =>
    Cost.lt_of_lt_of_le hlt (h.1 k h1 hk hak)
  refine ⟨fun k h1 hk hak => ?_, .inr ⟨j + 1, by omega, le_rfl, ha, rfl, Cost.lt_of_lt_of_le hlt h.le_start,
    fun k h1 hk => hbefore k h1 (by omega)⟩⟩
  rcases Nat.eq_or_lt_of_le hk with rfl | hk
  · exact Cost.le_refl _
  · exact Cost.le_of_lt (hbefore k h1 (by omega) hak)

end

/-! ## The literal path -/

variable {c : Cfg} {cell : Nat → SpCell} {n p : Nat}

/-- The running maximum of R103 after the joins 1 to `j`: 0, or the greatest run among them. -/
def GreatestRunUpTo (cell : Nat → SpCell) (n p j ml : Nat) : Prop :=
  (∀ i, 1 ≤ i → i ≤ j → p + i ≤ n → (cell (p + i)).llen + i ≤ ml) ∧
  (ml = 0 ∨ ∃ i, 1 ≤ i ∧ i ≤ j ∧ p + i ≤ n ∧ ml = (cell (p + i)).llen + i)

/-- What the first loop holds after `j` rounds (R103). -/
def JoinedUpTo (c : Cfg) (cell : Nat → SpCell) (n p j : Nat) (x : LitPath) : Prop :=
  CheapestUpTo (joinCost c cell p) (fun i => (cell (p + i)).llen + i) (p + · ≤ n) (.inf, 0) j (x.lbits, x.llen) ∧
  GreatestRunUpTo cell n p j x.ml

theorem GreatestRunUpTo.skip {j ml : Nat} (h : GreatestRunUpTo cell n p j ml) (hout : ¬ p + (j + 1) ≤ n) :
    GreatestRunUpTo cell n p (j + 1) ml := by
  obtain ⟨hmax, hreached⟩ := h
  refine ⟨fun i h1 hi hin => hmax i h1 ?_ hin, hreached.imp_right ?_⟩
  · have : i ≠ j + 1 := by rintro rfl; exact hout hin
    omega
  · rintro ⟨i, h1, hi, hrest⟩
    exact ⟨i, h1, by omega, hrest⟩

theorem GreatestRunUpTo.take {j ml : Nat} (h : GreatestRunUpTo cell n p j ml) (hin : p + (j + 1) ≤ n) :
    GreatestRunUpTo cell n p (j + 1) (max ml ((cell (p + (j + 1))).llen + (j + 1))) := by
  obtain ⟨hmax, hreached⟩ := h
  refine ⟨fun i h1 hi hn => ?_, .inr ?_⟩
  · rcases Nat.eq_or_lt_of_le hi with rfl | hi
    · exact Nat.le_max_right _ _
    · exact (hmax i h1 (by omega) hn).trans (Nat.le_max_left _ _)
  · rcases Nat.le_total ml ((cell (p + (j + 1))).llen + (j + 1)) with hle | hle
    · exact ⟨j + 1, by omega, le_rfl, hin, Nat.max_eq_right hle⟩
    · obtain rfl | ⟨i, h1, hi, hn, heq⟩ := hreached
      · omega
      · exact ⟨i, h1, by omega, hn, (Nat.max_eq_left hle).trans heq⟩

/-- A round of the first loop inside the input: the maximum first, then the strict comparison (R103). -/
theorem joinRound_of_le {i : Nat} (h : p + i ≤ n) (x : LitPath) :
    joinRound c cell n p i x =
      if (joinCost c cell p i).lt x.lbits then
        { lbits := joinCost c cell p i, llen := (cell (p + i)).llen + i, ml := max x.ml ((cell (p + i)).llen + i) }
      else { x with ml := max x.ml ((cell (p + i)).llen + i) } :=
  if_pos h

theorem joinRound_of_lt {i : Nat} (h : n < p + i) (x : LitPath) : joinRound c cell n p i x = x :=
  if_neg (Nat.not_le.mpr h)

theorem joinedUpTo_round {j : Nat} {x : LitPath} (h : JoinedUpTo c cell n p j x) :
    JoinedUpTo c cell n p (j + 1) (joinRound c cell n p (j + 1) x) := by
  obtain ⟨hbest, hml⟩ := h
  by_cases hin : p + (j + 1) ≤ n
  · rw [joinRound_of_le hin]
    split
    · rename_i hlt
      exact ⟨hbest.take hin hlt, hml.take hin⟩
    · rename_i hlt
      exact ⟨hbest.skip fun _ => Cost.not_lt_iff.mp hlt, hml.take hin⟩
  · rw [joinRound_of_lt (Nat.lt_of_not_le hin)]
    exact ⟨hbest.skip fun h => absurd h hin, hml.skip hin⟩

theorem joinLiterals_joinedUpTo (c : Cfg) (cell : Nat → SpCell) (n p : Nat) :
    JoinedUpTo c cell n p 5 (joinLiterals c cell n p) :=
  loopUp_induction (JoinedUpTo c cell n p) ⟨cheapestUpTo_zero, fun _ h1 h0 => by omega, .inl rfl⟩
    fun _ _ _ => joinedUpTo_round

/-- The first join that is cheapest, if one is finite (R103). -/
theorem joinLiterals_cheapest (hp : p < n) (hfin : joinCost c cell p 1 ≠ .inf) :
    ∃ i, 1 ≤ i ∧ i ≤ 5 ∧ p + i ≤ n ∧ (joinLiterals c cell n p).lbits = joinCost c cell p i ∧
      (joinLiterals c cell n p).llen = (cell (p + i)).llen + i ∧
      (∀ k, 1 ≤ k → k ≤ 5 → p + k ≤ n → (joinLiterals c cell n p).lbits.le (joinCost c cell p k) = true) ∧
      ∀ k, 1 ≤ k → k < i → (joinLiterals c cell n p).lbits.lt (joinCost c cell p k) = true := by
  obtain ⟨⟨hmin, hstart | ⟨i, h1, h5, hin, hbest, -, hfirst⟩⟩, -⟩ := joinLiterals_joinedUpTo c cell n p
  · obtain ⟨hinf, -⟩ := Prod.mk.inj hstart
    exact absurd hinf (Cost.ne_inf_of_le (hmin 1 le_rfl (by omega) hp) hfin)
  · obtain ⟨hlbits, hllen⟩ := Prod.mk.inj hbest
    exact ⟨i, h1, h5, hin, hlbits, hllen, hmin, fun k hk1 hki => hfirst k hk1 hki (by dsimp only; omega)⟩

/-- The greatest run a join reaches, and that one does (R103). -/
theorem joinLiterals_ml (c : Cfg) (cell : Nat → SpCell) (hp : p < n) :
    (∀ i, 1 ≤ i → i ≤ 5 → p + i ≤ n → (cell (p + i)).llen + i ≤ (joinLiterals c cell n p).ml) ∧
    ∃ i, 1 ≤ i ∧ i ≤ 5 ∧ p + i ≤ n ∧ (joinLiterals c cell n p).ml = (cell (p + i)).llen + i := by
  obtain ⟨-, hmax, hzero | hreached⟩ := joinLiterals_joinedUpTo c cell n p
  · have := hmax 1 le_rfl (by omega) hp
    omega
  · exact ⟨hmax, hreached⟩

theorem shortLiteralRound_eq (c : Cfg) (cell : Nat → SpCell) (p i : Nat) (x : LitPath) :
    shortLiteralRound c cell p i x =
      if (shortLiteralCost c cell p i).lt x.lbits then { x with lbits := shortLiteralCost c cell p i, llen := i }
      else x := rfl

/-- The second loop goes on from what the first leaves: a literal before a match has to be strictly cheaper (R104). -/
theorem literalPath_cheapest (c : Cfg) (cell : Nat → SpCell) (n p : Nat) :
    CheapestUpTo (shortLiteralCost c cell p) (fun i => i) (fun _ => True)
      ((joinLiterals c cell n p).lbits, (joinLiterals c cell n p).llen) ((joinLiterals c cell n p).ml - 1)
      ((literalPath c cell n p).lbits, (literalPath c cell n p).llen) := by
  refine loopUp_induction (fun j (y : LitPath) => CheapestUpTo (shortLiteralCost c cell p) (fun i => i) (fun _ => True)
    ((joinLiterals c cell n p).lbits, (joinLiterals c cell n p).llen) j (y.lbits, y.llen)) cheapestUpTo_zero
    fun j y _ hy => ?_
  rw [shortLiteralRound_eq]
  split
  · rename_i hlt
    exact hy.take trivial hlt
  · rename_i hlt
    exact hy.skip fun _ => Cost.not_lt_iff.mp hlt

/-- The literal path ends with a join, or with a literal before a match that is strictly cheaper (R103, R104). -/
theorem literalPath_cases (c : Cfg) (cell : Nat → SpCell) (n p : Nat) :
    ((literalPath c cell n p).lbits = (joinLiterals c cell n p).lbits ∧
      (literalPath c cell n p).llen = (joinLiterals c cell n p).llen) ∨
    ∃ i, 1 ≤ i ∧ i < (joinLiterals c cell n p).ml ∧ (literalPath c cell n p).lbits = shortLiteralCost c cell p i ∧
      (literalPath c cell n p).llen = i ∧ (literalPath c cell n p).lbits.lt (joinLiterals c cell n p).lbits = true ∧
      ∀ k, 1 ≤ k → k < i → (literalPath c cell n p).lbits.lt (shortLiteralCost c cell p k) = true := by
  obtain ⟨-, hstart | ⟨i, h1, hi, -, hbest, hlt, hfirst⟩⟩ := literalPath_cheapest c cell n p
  · exact .inl (Prod.mk.inj hstart)
  · obtain ⟨hlbits, hllen⟩ := Prod.mk.inj hbest
    exact .inr ⟨i, h1, by omega, hlbits, hllen, hlt, fun k hk1 hki => hfirst k hk1 hki trivial⟩

/-- Settles O31: the invariants of the two loops at their ends. -/
theorem literalPathIsCheapest : Obligations.LiteralPathIsCheapest := by
  intro c cell n p hp hfin x y
  obtain ⟨hmax, hreached⟩ := joinLiterals_ml c cell hp
  obtain ⟨hshort, -⟩ := literalPath_cheapest c cell n p
  have hbelow : ∀ i, 1 ≤ i → i < x.ml → y.lbits.le (shortLiteralCost c cell p i) = true := fun i h1 hi =>
    hshort i h1 (Nat.le_sub_one_of_lt hi) trivial
  refine ⟨joinLiterals_cheapest hp (hfin 1 le_rfl (by omega) hp), hmax, hreached, hbelow, ?_⟩
  refine (literalPath_cases c cell n p).imp_left ?_
  rintro ⟨hlbits, hllen⟩
  exact ⟨hlbits, hllen, fun i h1 hi => hlbits ▸ hbelow i h1 hi⟩

/-! ## The match path -/

/-- What the loop of the match path holds after the lengths 1 to `j` (R105, R106): the cheapest candidate of both kinds, at
the largest length whose match-candidate ties it, and where only literal-candidates reach it at the smallest such length;
with no finite candidate, the length 0. -/
def MatchTiesUpTo (c : Cfg) (cell : Nat → SpCell) (p mp j : Nat) (x : Cost × Nat) : Prop :=
  (∀ l, 1 ≤ l → l ≤ j →
    x.1.le (matchThenLiteral c cell p mp l) = true ∧ x.1.le (matchThenMatch c cell p mp l) = true) ∧
  (x.1 = .inf → x.2 = 0) ∧
  (x.1 ≠ .inf →
    1 ≤ x.2 ∧ x.2 ≤ j ∧
    ((x.1 = matchThenMatch c cell p mp x.2 ∧
        ∀ l, 1 ≤ l → l ≤ j → matchThenMatch c cell p mp l = x.1 → l ≤ x.2) ∨
     (x.1 = matchThenLiteral c cell p mp x.2 ∧
        (∀ l, 1 ≤ l → l ≤ j → matchThenMatch c cell p mp l ≠ x.1) ∧
        ∀ l, 1 ≤ l → l < x.2 → matchThenLiteral c cell p mp l ≠ x.1)))

/-- The strict comparison of the literal-candidate in a round (R105). -/
def takeMatchThenLiteral (c : Cfg) (cell : Nat → SpCell) (p mp l : Nat) (x : Cost × Nat) : Cost × Nat :=
  if (matchThenLiteral c cell p mp l).lt x.1 then (matchThenLiteral c cell p mp l, l) else x

/-- A round: the strict comparison of the literal-candidate, then the match-candidate overwrites on a tie (R105, R106). -/
theorem matchRound_eq (c : Cfg) (cell : Nat → SpCell) (p mp l : Nat) (x : Cost × Nat) :
    matchRound c cell p mp l x =
      if matchThenMatch c cell p mp l ≠ .inf ∧
          (matchThenMatch c cell p mp l).le (takeMatchThenLiteral c cell p mp l x).1 = true then
        (matchThenMatch c cell p mp l, l)
      else takeMatchThenLiteral c cell p mp l x := rfl

theorem takeMatchThenLiteral_le (c : Cfg) (cell : Nat → SpCell) (p mp l : Nat) (x : Cost × Nat) :
    (takeMatchThenLiteral c cell p mp l x).1.le x.1 = true ∧
    (takeMatchThenLiteral c cell p mp l x).1.le (matchThenLiteral c cell p mp l) = true := by
  unfold takeMatchThenLiteral
  split
  · rename_i hlt
    exact ⟨Cost.le_of_lt hlt, Cost.le_refl _⟩
  · rename_i hlt
    exact ⟨Cost.le_refl _, Cost.not_lt_iff.mp hlt⟩

section
variable {mp j : Nat} {x : Cost × Nat}

/-- What is no more than the cheapest so far and than both new candidates is no more than any candidate up to here. -/
theorem MatchTiesUpTo.le_succ (h : MatchTiesUpTo c cell p mp j x) {y : Cost} (hx : y.le x.1 = true)
    (hlit : y.le (matchThenLiteral c cell p mp (j + 1)) = true)
    (hmat : y.le (matchThenMatch c cell p mp (j + 1)) = true) :
    ∀ l, 1 ≤ l → l ≤ j + 1 →
      y.le (matchThenLiteral c cell p mp l) = true ∧ y.le (matchThenMatch c cell p mp l) = true := fun l h1 hl => by
  rcases Nat.eq_or_lt_of_le hl with rfl | hl
  · exact ⟨hlit, hmat⟩
  · obtain ⟨hlit', hmat'⟩ := h.1 l h1 (by omega)
    exact ⟨Cost.le_trans hx hlit', Cost.le_trans hx hmat'⟩

/-- The match-candidate at the new length overwrites (R105, R106). -/
theorem MatchTiesUpTo.takeMatch (h : MatchTiesUpTo c cell p mp j x) (hfin : matchThenMatch c cell p mp (j + 1) ≠ .inf)
    (hx : (matchThenMatch c cell p mp (j + 1)).le x.1 = true)
    (hlit : (matchThenMatch c cell p mp (j + 1)).le (matchThenLiteral c cell p mp (j + 1)) = true) :
    MatchTiesUpTo c cell p mp (j + 1) (matchThenMatch c cell p mp (j + 1), j + 1) :=
  ⟨h.le_succ hx hlit (Cost.le_refl _), fun hinf => absurd hinf hfin,
    fun _ => ⟨by simp, le_rfl, .inl ⟨rfl, fun _ _ hl _ => hl⟩⟩⟩

/-- The literal-candidate at the new length is strictly cheaper than every candidate before it, and its match-candidate is
dearer still (R105). -/
theorem MatchTiesUpTo.takeLiteral (h : MatchTiesUpTo c cell p mp j x)
    (hlt : (matchThenLiteral c cell p mp (j + 1)).lt x.1 = true)
    (hmat : (matchThenLiteral c cell p mp (j + 1)).lt (matchThenMatch c cell p mp (j + 1)) = true) :
    MatchTiesUpTo c cell p mp (j + 1) (matchThenLiteral c cell p mp (j + 1), j + 1) := by
  refine ⟨h.le_succ (Cost.le_of_lt hlt) (Cost.le_refl _) (Cost.le_of_lt hmat),
    fun hinf => absurd hinf (Cost.ne_inf_of_lt hlt), fun _ => ⟨by simp, le_rfl, .inr ⟨rfl, fun l h1 hl => ?_,
      fun l h1 hl => ?_⟩⟩⟩
  · rcases Nat.eq_or_lt_of_le hl with rfl | hl
    · exact (Cost.ne_of_lt hmat).symm
    · exact (Cost.ne_of_lt (Cost.lt_of_lt_of_le hlt (h.1 l h1 (by omega)).2)).symm
  · have hlj : l ≤ j := by
      dsimp only at hl
      omega
    exact (Cost.ne_of_lt (Cost.lt_of_lt_of_le hlt (h.1 l h1 hlj).1)).symm

/-- Neither candidate at the new length takes the place of the one held: the match-candidate is infinite or dearer. -/
theorem MatchTiesUpTo.skip (h : MatchTiesUpTo c cell p mp j x)
    (hlit : x.1.le (matchThenLiteral c cell p mp (j + 1)) = true)
    (hmat : matchThenMatch c cell p mp (j + 1) = .inf ∨ x.1.lt (matchThenMatch c cell p mp (j + 1)) = true) :
    MatchTiesUpTo c cell p mp (j + 1) x := by
  have hle : x.1.le (matchThenMatch c cell p mp (j + 1)) = true :=
    hmat.elim (fun hinf => hinf ▸ Cost.le_inf _) Cost.le_of_lt
  obtain ⟨hmin, hnone, hsome⟩ := id h
  refine ⟨h.le_succ (Cost.le_refl _) hlit hle, hnone, fun hfin => ?_⟩
  have hne : matchThenMatch c cell p mp (j + 1) ≠ x.1 :=
    hmat.elim (fun hinf heq => hfin (heq ▸ hinf)) fun hlt => (Cost.ne_of_lt hlt).symm
  obtain ⟨h1, hj, hwin⟩ := hsome hfin
  refine ⟨h1, by omega, hwin.imp ?_ ?_⟩
  · rintro ⟨heq, hlast⟩
    refine ⟨heq, fun l h1 hl htie => hlast l h1 ?_ htie⟩
    have : l ≠ j + 1 := by rintro rfl; exact hne htie
    omega
  · rintro ⟨heq, hno, hfirst⟩
    refine ⟨heq, fun l h1 hl => ?_, hfirst⟩
    rcases Nat.eq_or_lt_of_le hl with rfl | hl
    · exact hne
    · exact hno l h1 (by omega)

theorem matchTiesUpTo_round (h : MatchTiesUpTo c cell p mp j x) :
    MatchTiesUpTo c cell p mp (j + 1) (matchRound c cell p mp (j + 1) x) := by
  obtain ⟨hx, hlit⟩ := takeMatchThenLiteral_le c cell p mp (j + 1) x
  rw [matchRound_eq]
  split
  · rename_i hwins
    obtain ⟨hfin, hle⟩ := hwins
    exact h.takeMatch hfin (Cost.le_trans hle hx) (Cost.le_trans hle hlit)
  · rename_i hloses
    have hmat : matchThenMatch c cell p mp (j + 1) = .inf ∨
        (takeMatchThenLiteral c cell p mp (j + 1) x).1.lt (matchThenMatch c cell p mp (j + 1)) = true := by
      rw [Cost.lt_eq_not_le, Bool.not_eq_true', ← Bool.not_eq_true]
      by_cases hinf : matchThenMatch c cell p mp (j + 1) = .inf
      · exact .inl hinf
      · exact .inr fun hle => hloses ⟨hinf, hle⟩
    unfold takeMatchThenLiteral at hlit hmat ⊢
    split
    · rename_i hlt
      rw [if_pos hlt] at hmat
      refine h.takeLiteral hlt (hmat.elim (fun hinf => ?_) id)
      exact Cost.lt_of_lt_of_le hlt (hinf ▸ Cost.le_inf _)
    · rename_i hlt
      rw [if_neg hlt] at hlit hmat
      exact h.skip hlit hmat

end

theorem matchPath_ties (c : Cfg) (cell : Nat → SpCell) (p fl mp : Nat) :
    MatchTiesUpTo c cell p mp fl (matchPath c cell p fl mp) :=
  loopUp_induction (MatchTiesUpTo c cell p mp) ⟨fun l h1 h0 => absurd h1 (by omega), fun _ => rfl, fun h => absurd rfl h⟩
    fun _ _ _ => matchTiesUpTo_round

/-- Settles O32: the invariant of the loop at its end. -/
theorem matchPathTiePolicy : Obligations.MatchPathTiePolicy := matchPath_ties

end Sys2Proof
end

section
/-! PROOFS. A final table: the induction on descending positions, the cells a fill reads, that they determine the cells
below, and the invariants of R108. -/

namespace Sys2Proof

open Sys2Proof.Safety

variable {c : Cfg} {dat : Nat → Byte} {n f p : Nat} {cell cell' : Nat → SpCell}

/-- What holds of the sentinel, and of a cell the fill computes when it holds of every cell above, holds of every final
cell (R101, R108). -/
theorem tableFinal_induction {P : Nat → SpCell → Prop} (h : TableFinal c dat n f cell) (hsentinel : P n SpCell.sentinel)
    (hfill : ∀ p, f ≤ p → p < n → (∀ q, p < q → q ≤ n → P q (cell q)) → P p (fillCell c dat n cell p)) :
    ∀ p, f ≤ p → p ≤ n → P p (cell p) := by
  obtain ⟨-, hlast, hcells⟩ := h
  intro p hfp hpn
  induction hd : n - p using Nat.strong_induction_on generalizing p with
  | _ d ih =>
    rcases Nat.eq_or_lt_of_le hpn with rfl | hlt
    · exact hlast ▸ hsentinel
    · rw [hcells p hfp hlt]
      exact hfill p hfp hlt fun q hpq hqn => ih (n - q) (by omega) q (by omega) hqn rfl

/-! ## The literal runs of the cells (R108 (b)) -/

/-- The cells above `p` hold literal runs that stay within the input (R108 (b)). -/
def RunsFit (cell : Nat → SpCell) (n p : Nat) : Prop := ∀ q, p < q → q ≤ n → (cell q).llen ≤ n - q

/-- A join stays within the input too, hence `ml ≤ N - p` (R108 (b)). -/
theorem RunsFit.join_le (h : RunsFit cell n p) {i : Nat} (h1 : 1 ≤ i) (hn : p + i ≤ n) :
    (cell (p + i)).llen + i ≤ n - p := by
  have := h (p + i) (by omega) hn
  omega

theorem RunsFit.ml_le (h : RunsFit cell n p) (hp : p < n) : (joinLiterals c cell n p).ml ≤ n - p := by
  obtain ⟨-, i, h1, -, hn, heq⟩ := joinLiterals_ml c cell hp
  exact heq ▸ h.join_le h1 hn

/-- Whatever the costs are, the first loop ends with no run or with a join. -/
theorem joinLiterals_llen (c : Cfg) (cell : Nat → SpCell) (n p : Nat) :
    (joinLiterals c cell n p).llen = 0 ∨
    ∃ i, 1 ≤ i ∧ p + i ≤ n ∧ (joinLiterals c cell n p).llen = (cell (p + i)).llen + i := by
  obtain ⟨⟨-, hstart | ⟨i, h1, -, hn, hbest, -⟩⟩, -⟩ := joinLiterals_joinedUpTo c cell n p
  · exact .inl (Prod.mk.inj hstart).2
  · exact .inr ⟨i, h1, hn, (Prod.mk.inj hbest).2⟩

theorem RunsFit.llen_le (h : RunsFit cell n p) (hp : p < n) : (literalPath c cell n p).llen ≤ n - p := by
  rcases literalPath_cases c cell n p with ⟨-, heq⟩ | ⟨i, -, hi, -, heq, -⟩
  · rw [heq]
    rcases joinLiterals_llen c cell n p with hzero | ⟨i, h1, hn, hjoin⟩
    · omega
    · exact hjoin ▸ h.join_le h1 hn
  · have := h.ml_le (c := c) hp
    omega

theorem tableFinal_runsFit (h : TableFinal c dat n f cell) (hp : f ≤ p + 1) : RunsFit cell n p := fun q hpq hqn =>
  tableFinal_induction (P := fun q x => x.llen ≤ n - q) h (Nat.zero_le _)
    (fun p' _ hp' habove => RunsFit.llen_le (c := c) (cell := cell) habove hp') q (by omega) hqn

/-! ## The cells a fill reads (R102) -/

section
variable (hcell : ∀ q, p < q → q ≤ n → cell q = cell' q)
include hcell

theorem joinLiterals_congr (c : Cfg) : joinLiterals c cell n p = joinLiterals c cell' n p :=
  loopUp_congr _ fun j x _ => by
    by_cases hin : p + (j + 1) ≤ n
    · have heq := hcell (p + (j + 1)) (by omega) hin
      rw [joinRound_of_le hin, joinRound_of_le hin, joinCost, joinCost, heq]
    · simp only [joinRound_of_lt (Nat.lt_of_not_le hin)]

theorem literalPath_congr (hfit : RunsFit cell n p) (hp : p < n) : literalPath c cell n p = literalPath c cell' n p := by
  have hjoin := joinLiterals_congr hcell c
  have hml := hfit.ml_le (c := c) hp
  simp only [literalPath, ← hjoin]
  refine loopUp_congr _ fun j x hj => ?_
  simp only [shortLiteralRound, hcell (p + (j + 1)) (by omega) (by omega)]

theorem matchPath_congr {fl mp : Nat} (hfl : fl ≤ n - p) : matchPath c cell p fl mp = matchPath c cell' p fl mp :=
  loopUp_congr _ fun j x hj => by
    have heq := hcell (p + (j + 1)) (by omega) (by omega)
    simp only [matchRound, heq]

/-- A fill reads the cells above it up to the sentinel only, as long as the literal runs they hold stay within the input
(R102). -/
theorem fillCell_congr_cell (hfit : RunsFit cell n p) (hp : p < n) : fillCell c dat n cell p = fillCell c dat n cell' p := by
  have hfl : (findMatch c dat n p).1 ≤ n - p := (findMatch_length_le c dat n p).trans (Nat.min_le_right _ _)
  simp only [fillCell, literalPath_congr hcell hfit hp, matchPath_congr hcell hfl]

end

/-- Final cells are determined: two tables final from `f` on agree there (R111). -/
theorem tableFinal_unique (h : TableFinal c dat n f cell) (h' : TableFinal c dat n f cell') :
    ∀ p, f ≤ p → p ≤ n → cell p = cell' p := by
  obtain ⟨-, hlast, hcells⟩ := id h'
  refine tableFinal_induction (P := fun p x => x = cell' p) h hlast.symm fun p hfp hp habove => ?_
  rw [hcells p hfp hp]
  exact fillCell_congr_cell habove (tableFinal_runsFit h (by omega)) hp

/-- A table that agrees on the final cells is final there. -/
theorem tableFinal_congr_cell (h : TableFinal c dat n f cell) (heq : ∀ p, f ≤ p → p ≤ n → cell p = cell' p) :
    TableFinal c dat n f cell' := by
  obtain ⟨hfn, hlast, hcells⟩ := id h
  refine ⟨hfn, heq n hfn le_rfl ▸ hlast, fun p hfp hp => ?_⟩
  rw [← heq p hfp hp.le, hcells p hfp hp]
  exact fillCell_congr_cell (fun q hpq => heq q (by omega)) (tableFinal_runsFit h (by omega)) hp

/-- The cell below the final ones becomes final when it is what the fill computes there (R102, R107). -/
theorem tableFinal_extend (h : TableFinal c dat n (p + 1) cell) (hp : cell p = fillCell c dat n cell p) :
    TableFinal c dat n p cell := by
  obtain ⟨hpn, hlast, hcells⟩ := h
  refine ⟨by omega, hlast, fun q hpq hq => ?_⟩
  rcases Nat.eq_or_lt_of_le hpq with rfl | hpq
  · exact hp
  · exact hcells q hpq hq

/-! ## Whole bytes (R108 (f)) -/

theorem wholeBytes_fin (k : Nat) : WholeBytes (.fin (8 * k)) := .inr ⟨k, rfl⟩

theorem wholeBytes_add {a b : Cost} (ha : WholeBytes a) (hb : WholeBytes b) : WholeBytes (a.add b) := by
  obtain rfl | ⟨k, rfl⟩ := ha
  · exact .inl rfl
  · obtain rfl | ⟨l, rfl⟩ := hb
    · exact .inl (Cost.add_inf _)
    · exact .inr ⟨k + l, by simp [Nat.mul_add]⟩

theorem wholeBytes_sub {a b : Cost} (ha : WholeBytes a) (hb : WholeBytes b) : WholeBytes (a.sub b) := by
  obtain rfl | ⟨k, rfl⟩ := ha
  · exact .inl rfl
  · obtain rfl | ⟨l, rfl⟩ := hb
    · exact .inr ⟨0, rfl⟩
    · exact .inr ⟨k - l, by simp [Nat.mul_sub]⟩

theorem wholeBytes_moffCost (c : Cfg) (o : Nat) : WholeBytes (c.moffCost o) := by
  by_cases h : c.moffCost o = .inf
  · exact .inl h
  · exact .inr ⟨_, Cfg.moffCost_of_ne_inf h⟩

theorem wholeBytes_mlenCost (c : Cfg) (l : Nat) : WholeBytes (c.mlenCost l) := by
  by_cases h : c.mlenCost l = .inf
  · exact .inl h
  · exact .inr ⟨_, Cfg.mlenCost_of_ne_inf h⟩

/-- `llen_cost` is finite, and whole bytes (R84). -/
theorem llenCost_finite (hv : c.valid = true) (l : Nat) : ∃ k, c.llenCost l = .fin (8 * k) := by
  match l with
  | 0 => exact ⟨0, rfl⟩
  | l + 1 =>
    rw [Cfg.llenCost_succ c.zeroMatchCost_eq (Cfg.one_le_llenLimit hv)]
    generalize (if c.zeroOffset then c.offBytes else 0) = z
    refine ⟨1 + l / c.llenLimit * (1 + (1 + z)) + (if 255 < c.llenLimit ∧ 127 < l % c.llenLimit + 1 then 1 else 0), ?_⟩
    split <;> congr 1 <;> ring

theorem llenCost_ne_inf (hv : c.valid = true) (l : Nat) : c.llenCost l ≠ .inf := by
  obtain ⟨k, hk⟩ := llenCost_finite hv l
  simp [hk]

theorem wholeBytes_llenCost (hv : c.valid = true) (l : Nat) : WholeBytes (c.llenCost l) := .inr (llenCost_finite hv l)

/-! ## The candidates over sound cells -/

section
variable (hv : c.valid = true)
include hv

theorem joinCost_ne_inf {i : Nat} (h : (cell (p + i)).lbits ≠ .inf) : joinCost c cell p i ≠ .inf :=
  Cost.sub_ne_inf (Cost.add_ne_inf (Cost.add_ne_inf h (by simp)) (llenCost_ne_inf hv _)) _

theorem wholeBytes_joinCost {i : Nat} (h : WholeBytes (cell (p + i)).lbits) : WholeBytes (joinCost c cell p i) :=
  wholeBytes_sub (wholeBytes_add (wholeBytes_add h (wholeBytes_fin i)) (wholeBytes_llenCost hv _))
    (wholeBytes_llenCost hv _)

theorem wholeBytes_shortLiteralCost {i : Nat} (h : WholeBytes (cell (p + i)).mbits) :
    WholeBytes (shortLiteralCost c cell p i) :=
  wholeBytes_add (wholeBytes_add h (wholeBytes_fin i)) (wholeBytes_llenCost hv _)

/-- A join pays for its header and its bytes when the run it joins does (R108 (c)). -/
theorem joinCost_covers {i : Nat}
    (h : ((c.llenCost (cell (p + i)).llen).add (.fin (8 * (cell (p + i)).llen))).le (cell (p + i)).lbits = true) :
    ((c.llenCost ((cell (p + i)).llen + i)).add (.fin (8 * ((cell (p + i)).llen + i)))).le (joinCost c cell p i) = true := by
  obtain ⟨a, ha⟩ := llenCost_finite hv (cell (p + i)).llen
  obtain ⟨b, hb⟩ := llenCost_finite hv ((cell (p + i)).llen + i)
  unfold joinCost
  rw [ha] at h ⊢
  rw [hb]
  cases hl : (cell (p + i)).lbits with
  | inf => rfl
  | fin x =>
    simp [hl] at h ⊢
    omega

end

theorem shortLiteralCost_covers (c : Cfg) (cell : Nat → SpCell) (p i : Nat) :
    ((c.llenCost i).add (.fin (8 * i))).le (shortLiteralCost c cell p i) = true := by
  unfold shortLiteralCost
  cases (cell (p + i)).mbits <;> cases c.llenCost i <;> simp
  omega

/-! ## The cell a fill computes over sound cells (R108) -/

/-- The first bytes of a match are a match at its distance (R95). -/
theorem isMatch_shorten {len l dist : Nat} (h : IsMatch c dat n p len dist) (h1 : 1 ≤ l) (hl : l ≤ len) :
    IsMatch c dat n p l dist := by
  obtain ⟨-, hcap, hdist, hwindow, heq⟩ := h
  exact ⟨h1, hl.trans hcap, hdist, hwindow, fun j hj => heq j (hj.trans_le hl)⟩

/-- The finder's length is 0 exactly where there is no match (R94). -/
theorem one_le_findMatch_iff : 1 ≤ (findMatch c dat n p).1 ↔ ∃ len dist, IsMatch c dat n p len dist := by
  refine ⟨fun h => ⟨_, _, findMatch_isMatch h⟩, fun ⟨len, dist, hm⟩ => ?_⟩
  rcases findMatch_bestMatch c dat n p with ⟨-, -, hnone⟩ | ⟨⟨h1, -⟩, -⟩
  · exact absurd hm (hnone len dist)
  · exact h1

/-- What holds of every join and of every literal before a match holds of the literal path, when the first join is finite
(R103, R104). -/
theorem literalPath_of_candidates {P : Cost → Nat → Prop} (hp : p < n) (hfin : joinCost c cell p 1 ≠ .inf)
    (hfit : RunsFit cell n p)
    (hjoin : ∀ i, 1 ≤ i → p + i ≤ n → P (joinCost c cell p i) ((cell (p + i)).llen + i))
    (hshort : ∀ i, 1 ≤ i → p + i ≤ n → P (shortLiteralCost c cell p i) i) :
    P (literalPath c cell n p).lbits (literalPath c cell n p).llen := by
  rcases literalPath_cases c cell n p with ⟨hlbits, hllen⟩ | ⟨i, h1, hi, hlbits, hllen, -⟩
  · obtain ⟨i, h1, -, hn, hjbits, hjlen, -⟩ := joinLiterals_cheapest hp hfin
    rw [hlbits, hllen, hjbits, hjlen]
    exact hjoin i h1 hn
  · have hml := hfit.ml_le (c := c) hp
    rw [hlbits, hllen]
    exact hshort i h1 (by omega)

theorem literalPath_lbits_ne_inf (hp : p < n) (hfin : joinCost c cell p 1 ≠ .inf) :
    (literalPath c cell n p).lbits ≠ .inf := by
  obtain ⟨-, -, -, -, -, -, hmin, -⟩ := joinLiterals_cheapest hp hfin
  exact Cost.ne_inf_of_le (literalPath_cheapest c cell n p).le_start
    (Cost.ne_inf_of_le (hmin 1 le_rfl (by omega) hp) hfin)

theorem matchPath_ne_inf_iff (c : Cfg) (cell : Nat → SpCell) (p fl mp : Nat) :
    (matchPath c cell p fl mp).1 ≠ .inf ↔ 1 ≤ (matchPath c cell p fl mp).2 := by
  obtain ⟨-, hnone, hsome⟩ := matchPath_ties c cell p fl mp
  refine ⟨fun h => (hsome h).1, fun h hinf => ?_⟩
  have := hnone hinf
  omega

theorem matchPath_length_le (c : Cfg) (cell : Nat → SpCell) (p fl mp : Nat) : (matchPath c cell p fl mp).2 ≤ fl := by
  obtain ⟨-, hnone, hsome⟩ := matchPath_ties c cell p fl mp
  by_cases h : (matchPath c cell p fl mp).1 = .inf
  · exact hnone h ▸ Nat.zero_le _
  · exact (hsome h).2.1

/-- The candidate of one byte is finite where the finder found a match (R95, R105). -/
theorem matchThenLiteral_one_ne_inf (h : 1 ≤ (findMatch c dat n p).1) (hl : (cell (p + 1)).lbits ≠ .inf) :
    matchThenLiteral c cell p (findMatch c dat n p).2 1 ≠ .inf := by
  obtain ⟨-, hcap, hdist, hwindow, -⟩ := findMatch_isMatch h
  obtain ⟨a, ha⟩ := c.moffCost_finite hdist (hwindow.trans (Nat.min_le_right _ _))
  obtain ⟨b, hb⟩ := c.mlenCost_finite (h.trans (hcap.trans (Nat.min_le_left _ _)))
  exact Cost.add_ne_inf hl (Cost.add_ne_inf (by simp [ha]) (by simp [hb]))

/-- The match path has a length exactly where the finder found a match (R105, R108 (d)). -/
theorem one_le_matchPath_iff (hl : (cell (p + 1)).lbits ≠ .inf) :
    1 ≤ (matchPath c cell p (findMatch c dat n p).1 (findMatch c dat n p).2).2 ↔ 1 ≤ (findMatch c dat n p).1 := by
  refine ⟨fun h => h.trans (matchPath_length_le _ _ _ _ _), fun h => (matchPath_ne_inf_iff _ _ _ _ _).mp ?_⟩
  obtain ⟨hmin, -⟩ := matchPath_ties c cell p (findMatch c dat n p).1 (findMatch c dat n p).2
  exact Cost.ne_inf_of_le (hmin 1 le_rfl h).1 (matchThenLiteral_one_ne_inf h hl)

theorem wholeBytes_matchPath (hv : c.valid = true) {fl mp : Nat}
    (h : ∀ l, 1 ≤ l → l ≤ fl → WholeBytes (cell (p + l)).lbits ∧ WholeBytes (cell (p + l)).mbits) :
    WholeBytes (matchPath c cell p fl mp).1 := by
  have hbase (l : Nat) : WholeBytes ((c.moffCost mp).add (c.mlenCost l)) :=
    wholeBytes_add (wholeBytes_moffCost c mp) (wholeBytes_mlenCost c l)
  obtain ⟨-, -, hsome⟩ := matchPath_ties c cell p fl mp
  by_cases hinf : (matchPath c cell p fl mp).1 = .inf
  · exact .inl hinf
  · obtain ⟨h1, hfl, ⟨heq, -⟩ | ⟨heq, -⟩⟩ := hsome hinf <;> rw [heq] <;> obtain ⟨hlbits, hmbits⟩ := h _ h1 hfl
    · exact wholeBytes_add (wholeBytes_add hmbits (wholeBytes_llenCost hv 1)) (hbase _)
    · exact wholeBytes_add hlbits (hbase _)

/-- The sentinel is as R108 lists. -/
theorem cellSound_sentinel (c : Cfg) (dat : Nat → Byte) (n : Nat) : CellSound c dat n n SpCell.sentinel where
  lbitsFinite := by simp [SpCell.sentinel]
  llenRange := ⟨Nat.zero_le _, fun h => absurd h (Nat.lt_irrefl n)⟩
  lbitsCovers := rfl
  mbitsFinite := by simp [SpCell.sentinel]
  matchFound := by simp [SpCell.sentinel]
  matchRange := fun h => absurd h (by simp [SpCell.sentinel])
  unusedDistance := fun _ => rfl
  noMatchAtStart := fun _ => rfl
  lbitsBytes := wholeBytes_fin 0
  mbitsBytes := .inl rfl

theorem runsFit_of_cellSound (h : ∀ q, p < q → q ≤ n → CellSound c dat n q (cell q)) : RunsFit cell n p :=
  fun q hpq hqn => (h q hpq hqn).llenRange.1

/-- The step of the induction of R108: over sound cells the fill computes a sound cell. -/
theorem cellSound_fillCell (hv : c.valid = true) (hp : p < n)
    (habove : ∀ q, p < q → q ≤ n → CellSound c dat n q (cell q)) : CellSound c dat n p (fillCell c dat n cell p) := by
  have hat : ∀ i, 1 ≤ i → p + i ≤ n → CellSound c dat n (p + i) (cell (p + i)) := fun i h1 => habove (p + i) (by omega)
  have hfit := runsFit_of_cellSound habove
  have hnext := (hat 1 le_rfl hp).lbitsFinite
  have hjoin : joinCost c cell p 1 ≠ .inf := joinCost_ne_inf hv hnext
  have hfl : (findMatch c dat n p).1 ≤ n - p := (findMatch_length_le c dat n p).trans (Nat.min_le_right _ _)
  have hfound := one_le_matchPath_iff (c := c) (dat := dat) (n := n) hnext
  have hmatch : 1 ≤ (fillCell c dat n cell p).mlen →
      IsMatch c dat n p (fillCell c dat n cell p).mlen (fillCell c dat n cell p).mpos := fun h => by
    have hpos := hfound.mp h
    rw [show (fillCell c dat n cell p).mpos = (findMatch c dat n p).2 from if_pos hpos]
    exact isMatch_shorten (findMatch_isMatch hpos) h (matchPath_length_le _ _ _ _ _)
  exact {
    lbitsFinite := literalPath_lbits_ne_inf hp hjoin
    llenRange := ⟨hfit.llen_le hp, fun _ =>
      literalPath_of_candidates (P := fun _ l => 1 ≤ l) hp hjoin hfit (fun i h1 _ => by omega) fun i h1 _ => h1⟩
    lbitsCovers :=
      literalPath_of_candidates (P := fun b l => ((c.llenCost l).add (.fin (8 * l))).le b = true) hp hjoin hfit
        (fun i h1 hn => joinCost_covers hv (hat i h1 hn).lbitsCovers) fun i _ _ => shortLiteralCost_covers c cell p i
    mbitsFinite := matchPath_ne_inf_iff _ _ _ _ _
    matchFound := (hfound.trans one_le_findMatch_iff).trans (and_iff_right hp).symm
    matchRange := hmatch
    unusedDistance := fun h => if_neg fun hpos => Nat.ne_of_gt (hfound.mpr hpos) h
    noMatchAtStart := fun hzero => by
      by_contra hfin
      obtain ⟨-, -, hdist, hwindow, -⟩ := hmatch ((matchPath_ne_inf_iff _ _ _ _ _).mp hfin)
      omega
    lbitsBytes :=
      literalPath_of_candidates (P := fun b _ => WholeBytes b) hp hjoin hfit
        (fun i h1 hn => wholeBytes_joinCost hv (hat i h1 hn).lbitsBytes)
        fun i h1 hn => wholeBytes_shortLiteralCost hv (hat i h1 hn).mbitsBytes
    mbitsBytes := wholeBytes_matchPath hv fun l h1 hl =>
      have hcell := hat l h1 (by omega)
      ⟨hcell.lbitsBytes, hcell.mbitsBytes⟩ }

/-- The final cells of a table are as R108 lists. -/
theorem tableFinal_cellSound (hv : c.valid = true) (h : TableFinal c dat n f cell) :
    ∀ p, f ≤ p → p ≤ n → CellSound c dat n p (cell p) :=
  tableFinal_induction h (cellSound_sentinel c dat n) fun _ _ hp habove => cellSound_fillCell hv hp habove

/-- Settles O38: by induction from the sentinel down, each cell by those above it. -/
theorem filledTableInvariants : Obligations.FilledTableInvariants := fun _ _ _ _ _ hv h p hfp hpn =>
  ⟨tableFinal_cellSound hv h p hfp hpn, fun hp => (tableFinal_runsFit h (by omega)).ml_le hp⟩

end Sys2Proof
end

section
/-! PROOFS. The commands of the parser: the cells they make final, what each does where it completes, and that no step
moves a final cell. -/

namespace Sys2Proof

open Sys2Proof.Safety

section
variable {c c' : Cfg}

theorem llenCost_congr_cfg (hllen : c'.llenLimit = c.llenLimit) (hzero : c'.zeroMatchCost = c.zeroMatchCost) :
    c'.llenCost = c.llenCost := by
  have hsplits (k : Nat) : c'.llenSplits k = c.llenSplits k := by
    induction k with
    | zero => rfl
    | succ k ih =>
      funext acc l
      simp only [Cfg.llenSplits, ih, hllen, hzero]
  funext l
  simp only [Cfg.llenCost, hsplits, hllen]

theorem joinLiterals_congr_cfg (hllen : c'.llenCost = c.llenCost) (cell : Nat → SpCell) (n p : Nat) :
    joinLiterals c' cell n p = joinLiterals c cell n p :=
  loopUp_congr _ fun _ _ _ => by simp only [joinRound, hllen]

theorem literalPath_congr_cfg (hllen : c'.llenCost = c.llenCost) (cell : Nat → SpCell) (n p : Nat) :
    literalPath c' cell n p = literalPath c cell n p := by
  simp only [literalPath, joinLiterals_congr_cfg hllen]
  exact loopUp_congr _ fun _ _ _ => by simp only [shortLiteralRound, hllen]

theorem matchPath_congr_cfg (hllen : c'.llenCost = c.llenCost) (hmoff : c'.moffCost = c.moffCost)
    (hmlen : c'.mlenCost = c.mlenCost) (cell : Nat → SpCell) (p fl mp : Nat) :
    matchPath c' cell p fl mp = matchPath c cell p fl mp :=
  loopUp_congr _ fun _ _ _ => by simp only [matchRound, hllen, hmoff, hmlen]

/-- A fill reads four fields of `CFG` (R111). -/
theorem fillCell_congr_cfg (hbits : c'.bitsMoff = c.bitsMoff) (hmlen : c'.maxMlen = c.maxMlen)
    (hllen : c'.maxLlen = c.maxLlen) (hzero : c'.zeroOffset = c.zeroOffset) : fillCell c' = fillCell c := by
  replace hbits : c'.bits = c.bits := congrArg BitVec.toNat hbits
  replace hmlen : c'.mlenLimit = c.mlenLimit := congrArg BitVec.toNat hmlen
  replace hllen : c'.llenLimit = c.llenLimit := congrArg BitVec.toNat hllen
  have hmaxOff : c'.maxOff = c.maxOff := by simp only [Cfg.maxOff, hbits]
  have hmoffCost : c'.moffCost = c.moffCost := by funext o; simp only [Cfg.moffCost, hmaxOff, hbits]
  have hmlenCost : c'.mlenCost = c.mlenCost := by funext l; simp only [Cfg.mlenCost, hmlen]
  have hllenCost : c'.llenCost = c.llenCost :=
    llenCost_congr_cfg hllen (by simp only [Cfg.zeroMatchCost, hmlenCost, hmoffCost, hzero])
  funext dat n cell p
  have hfound : findMatch c' dat n p = findMatch c dat n p := by simp only [findMatch, hmaxOff, hmlen]
  simp only [fillCell, literalPath_congr_cfg hllenCost, hfound, matchPath_congr_cfg hllenCost hmoffCost hmlenCost]

end

namespace Machine

variable {c : Cfg} {dat : Nat → Byte} {n f p : Nat} {tab : Table} {s t : State} {i : Instr}

/-! ## The cells the commands make final -/

/-- The sentinel alone is final (R100). -/
theorem tableFinal_sentinel (c : Cfg) (dat : Nat → Byte) (n : Nat) (tab : Table) :
    TableFinal c dat n n (cellAt (SMap.put tab n SpCell.sentinel)) :=
  ⟨le_rfl, by rw [cellAt_put, if_pos rfl], fun _ hle hlt => absurd hle (Nat.not_le.mpr hlt)⟩

/-- A write below the final cells moves none of them. -/
theorem tableFinal_put (h : TableFinal c dat n f (cellAt tab)) (hp : p < f) (x : SpCell) :
    TableFinal c dat n f (cellAt (SMap.put tab p x)) :=
  tableFinal_congr_cell h fun q hq _ => by rw [cellAt_put, if_neg (by omega)]

/-- A fill over final cells makes its own cell final, and over its own final cell writes what stands there (R102). -/
theorem tableFinal_fillInto (h : TableFinal c dat n f (cellAt tab)) (hf : f ≤ p + 1) (hp : p < n) :
    TableFinal c dat n (min f p) (cellAt (fillInto c dat n tab p)) := by
  rcases Nat.eq_or_lt_of_le hf with rfl | hfp
  · have hbelow : TableFinal c dat n (p + 1) (cellAt (fillInto c dat n tab p)) :=
      tableFinal_put h (Nat.lt_succ_self p) _
    rw [Nat.min_eq_right (Nat.le_succ p)]
    refine tableFinal_extend hbelow ?_
    rw [fillInto, cellAt_put, if_pos rfl]
    exact fillCell_congr_cell (fun q hpq _ => by rw [cellAt_put, if_neg (by omega)]) (tableFinal_runsFit h le_rfl) hp
  · have hle : f ≤ p := Nat.le_of_lt_succ hfp
    rw [Nat.min_eq_left hle]
    obtain ⟨-, -, hcells⟩ := id h
    refine tableFinal_congr_cell h fun q _ _ => ?_
    rw [fillInto, cellAt_put]
    split
    · rename_i hpq
      exact hpq ▸ hcells p hle hp
    · rfl

/-- Filling down from the lowest final cell makes the whole table final (R101). -/
theorem tableFinal_fillDown {k : Nat} (h : TableFinal c dat n k (cellAt tab)) :
    TableFinal c dat n 0 (cellAt (fillDown c dat n k tab)) := by
  induction k generalizing tab with
  | zero => exact h
  | succ k ih =>
    obtain ⟨hk, -⟩ := id h
    have hnext := tableFinal_fillInto h le_rfl hk
    rw [Nat.min_eq_right (Nat.le_succ k)] at hnext
    exact ih hnext

/-! ## The commands where they complete -/

theorem execDpInit_completes (hv : s.cfg.valid = true) (hcap : s.dp.n.toNat ≤ Config.nCap) :
    execDpInit s = .next { s with
      sp := SMap.put s.sp s.dp.n.toNat SpCell.sentinel
      dp := { s.dp with status := Status.completed, fill := some (s.dp.n.toNat, s.dp.n.toNat) }
      held := max s.held s.dp.n.toNat } := by
  rcases execDpInit_cases s with ⟨hinv, -⟩ | ⟨-, hover, -⟩ | ⟨-, -, he⟩
  · simp [hv] at hinv
  · exact absurd hcap (Nat.not_le.mpr hover)
  · exact he

theorem execDpRun_completes (hv : s.cfg.valid = true) (hcap : s.dp.n.toNat ≤ Config.nCap) :
    execDpRun s = .next { s with
      sp := fillDown s.cfg (dataByte s.data) s.dp.n.toNat s.dp.n.toNat (SMap.put s.sp s.dp.n.toNat SpCell.sentinel)
      dp := { s.dp with
        p := if s.dp.n = 0 then s.dp.p else 0
        status := Status.completed
        fill := some (s.dp.n.toNat, 0) }
      held := max s.held s.dp.n.toNat } := by
  rcases execDpRun_cases s with ⟨hinv, -⟩ | ⟨-, hover, -⟩ | ⟨-, -, he⟩
  · simp [hv] at hinv
  · exact absurd hcap (Nat.not_le.mpr hover)
  · exact he

/-- DP.RUN leaves a table that is final from 0 on (R101). -/
theorem execDpRun_tableFinal (hv : s.cfg.valid = true) (hcap : s.dp.n.toNat ≤ Config.nCap) (h : execDpRun s = .next t) :
    TableFinal s.cfg (dataByte s.data) s.dp.n.toNat 0 (cellAt t.sp) := by
  rw [execDpRun_completes hv hcap] at h
  cases h
  exact tableFinal_fillDown (tableFinal_sentinel _ _ _ _)

theorem finalAbove_eq_some {fill : Option (Nat × Nat)} :
    finalAbove fill n p = some f ↔ fill = some (n, f) ∧ f ≤ p + 1 := by
  cases fill with
  | none => simp [finalAbove]
  | some x =>
    obtain ⟨m, g⟩ := x
    simp only [finalAbove, Option.ite_none_right_eq_some, Option.some.injEq, Prod.mk.injEq]
    constructor
    · rintro ⟨⟨rfl, hg⟩, rfl⟩
      exact ⟨⟨rfl, rfl⟩, hg⟩
    · rintro ⟨⟨rfl, rfl⟩, hg⟩
      exact ⟨⟨rfl, hg⟩, rfl⟩

/-- A fill in order (R102). -/
theorem fillEffect_of_final (hfill : s.dp.fill = some (s.dp.n.toNat, f)) (hf : f ≤ s.dp.p.toNat + 1) :
    fillEffect s = { s with
      sp := fillInto s.cfg (dataByte s.data) s.dp.n.toNat s.sp s.dp.p.toNat
      dp := { s.dp with fill := some (s.dp.n.toNat, min f s.dp.p.toNat) } } := by
  simp only [fillEffect, finalAbove_eq_some.mpr ⟨hfill, hf⟩]
  rfl

theorem execDpFill_of_final (herr : s.dp.status.state ≠ .err) (hv : s.cfg.valid = true)
    (hcap : s.dp.n.toNat ≤ Config.nCap) (hp : s.dp.p.toNat < s.dp.n.toNat)
    (hfill : s.dp.fill = some (s.dp.n.toNat, f)) (hf : f ≤ s.dp.p.toNat + 1) :
    execDpFill s = .next { s with
      sp := fillInto s.cfg (dataByte s.data) s.dp.n.toNat s.sp s.dp.p.toNat
      dp := { s.dp with fill := some (s.dp.n.toNat, min f s.dp.p.toNat) }
      held := max s.held s.dp.n.toNat } := by
  rcases execDpFill_cases s with ⟨he, -⟩ | ⟨hinv, -⟩ | ⟨-, hover, -⟩ | ⟨-, hout, -⟩ | ⟨-, -, -, he⟩
  · exact absurd he herr
  · simp [hv] at hinv
  · exact absurd hcap (Nat.not_le.mpr hover)
  · exact absurd hp (Nat.not_lt.mpr hout)
  · rw [he, fillEffect_of_final hfill hf]
    rfl

/-- DP.SELECT in a unit that accepts it, at a position of the input (R109, R110). -/
theorem execDpSelect_selects (herr : s.dp.status.state ≠ .err) (hv : s.cfg.valid = true)
    (hp : s.dp.p.toNat < s.dp.n.toNat) :
    (selectChoice s.cfg (cellAt s.sp s.dp.p.toNat) s.dp.prevLit = none ∧
      execDpSelect s = .next (s.setDp (s.dp.raise .infeasible))) ∨
    ∃ x, selectChoice s.cfg (cellAt s.sp s.dp.p.toNat) s.dp.prevLit = some x ∧
      execDpSelect s = .next (s.setDp { s.dp with choice := x }) := by
  rcases execDpSelect_cases s with ⟨he, -⟩ | ⟨hinv, -⟩ | ⟨-, hout, -⟩ | ⟨-, -, hnone⟩ | ⟨-, -, hsome⟩
  · exact absurd he herr
  · simp [hv] at hinv
  · exact absurd hp (Nat.not_lt.mpr hout)
  · exact .inl hnone
  · exact .inr hsome

/-! ## No step moves a final cell -/

/-- A change of other fields keeps the mark sound, also one that holds more of `DATA`. -/
theorem fillMarkSound_of_same (hs : FillMarkSound s) (hcfg : t.cfg = s.cfg) (hdata : t.data = s.data) (hsp : t.sp = s.sp)
    (hfill : t.dp.fill = s.dp.fill) (hheld : s.held ≤ t.held) : FillMarkSound t := fun n f hf => by
  obtain ⟨hv, hcap, hn, htable⟩ := hs n f (hfill ▸ hf)
  rw [hcfg, hdata, hsp]
  exact ⟨hv, hcap, hn.trans hheld, htable⟩

/-- A mark set by a command that writes the table and holds the `DATA` of its encode. -/
theorem fillMarkSound_of_final (hv : t.cfg.valid = true) (hcap : n ≤ Config.nCap) (hheld : n ≤ t.held)
    (hfill : t.dp.fill = some (n, f)) (h : TableFinal t.cfg (dataByte t.data) n f (cellAt t.sp)) : FillMarkSound t :=
  fun m g hg => by
    rw [hfill] at hg
    cases hg
    exact ⟨hv, hcap, hheld, h⟩

theorem execMfFind_held_le (h : execMfFind s = .next t) : s.held ≤ t.held := by
  rcases execMfFind_cases s with ⟨-, he⟩ | ⟨-, -, he⟩ | ⟨-, -, -, he⟩ | ⟨-, -, -, he⟩ <;> rw [he] at h <;> cases h
  · exact le_rfl
  · exact le_rfl
  · exact Nat.le_max_left _ _

theorem raiseDp_keeps_fillMarkSound (hs : FillMarkSound s) (kind : ErrKind) :
    FillMarkSound (s.setDp (s.dp.raise kind)) :=
  fillMarkSound_of_same hs rfl rfl rfl rfl le_rfl

theorem execDpInit_keeps_fillMarkSound (hs : FillMarkSound s) (h : execDpInit s = .next t) : FillMarkSound t := by
  rcases execDpInit_cases s with ⟨-, he⟩ | ⟨-, -, he⟩ | ⟨hv, hcap, he⟩ <;> rw [he] at h <;> cases h
  · exact raiseDp_keeps_fillMarkSound hs _
  · exact raiseDp_keeps_fillMarkSound hs _
  · exact fillMarkSound_of_final hv hcap (Nat.le_max_right _ _) rfl (tableFinal_sentinel _ _ _ _)

theorem execDpRun_keeps_fillMarkSound (hs : FillMarkSound s) (h : execDpRun s = .next t) : FillMarkSound t := by
  rcases execDpRun_cases s with ⟨-, he⟩ | ⟨-, -, he⟩ | ⟨hv, hcap, he⟩ <;> rw [he] at h <;> cases h
  · exact raiseDp_keeps_fillMarkSound hs _
  · exact raiseDp_keeps_fillMarkSound hs _
  · exact fillMarkSound_of_final hv hcap (Nat.le_max_right _ _) rfl (tableFinal_fillDown (tableFinal_sentinel _ _ _ _))

/-- A fill in order makes its cell final; one out of order writes below the final cells, or ends the tracking of the
encode (R102, R186; log 8). -/
theorem fillEffect_keeps_fillMarkSound (hs : FillMarkSound s) (hp : s.dp.p.toNat < s.dp.n.toNat) :
    FillMarkSound (fillEffect s) := by
  unfold fillEffect
  split
  · rename_i f hfinal
    obtain ⟨hfill, hf⟩ := finalAbove_eq_some.mp hfinal
    obtain ⟨hv, hcap, hheld, htable⟩ := hs _ _ hfill
    exact fillMarkSound_of_final hv hcap hheld rfl (tableFinal_fillInto htable hf hp)
  · rename_i hnone
    by_cases hsame : s.dp.fill.map Prod.fst = some s.dp.n.toNat
    · rw [if_pos hsame]
      obtain ⟨⟨_, f⟩, hfill, rfl⟩ := Option.map_eq_some_iff.mp hsame
      obtain ⟨hv, hcap, hheld, htable⟩ := hs _ _ hfill
      have hbelow : s.dp.p.toNat < f := by
        by_contra hle
        have hfinal := finalAbove_eq_some.mpr ⟨hfill, show f ≤ s.dp.p.toNat + 1 by omega⟩
        simp [hnone] at hfinal
      exact fillMarkSound_of_final hv hcap hheld hfill (tableFinal_put htable hbelow _)
    · exact fillMarkSound_of_fill_eq_none (if_neg hsame)

theorem execDpFill_keeps_fillMarkSound (hs : FillMarkSound s) (h : execDpFill s = .next t) : FillMarkSound t := by
  rcases execDpFill_cases s with
    ⟨-, he⟩ | ⟨-, he⟩ | ⟨-, -, he⟩ | ⟨-, -, he⟩ | ⟨-, -, hp, he⟩ <;> rw [he] at h <;> cases h
  · exact hs
  · exact raiseDp_keeps_fillMarkSound hs _
  · exact raiseDp_keeps_fillMarkSound hs _
  · exact fillMarkSound_of_same (fillEffect_keeps_fillMarkSound hs hp) rfl rfl rfl rfl (Nat.le_max_left _ _)

theorem execDpSelect_keeps_fillMarkSound (hs : FillMarkSound s) (h : execDpSelect s = .next t) : FillMarkSound t := by
  rcases execDpSelect_cases s with
    ⟨-, he⟩ | ⟨-, he⟩ | ⟨-, -, he⟩ | ⟨-, -, -, he⟩ | ⟨-, -, x, -, he⟩ <;> rw [he] at h <;> cases h
  · exact hs
  · exact raiseDp_keeps_fillMarkSound hs _
  · exact raiseDp_keeps_fillMarkSound hs _
  · exact fillMarkSound_of_same hs rfl rfl rfl rfl le_rfl

/-- Only the commands of `DP` write `SP` and the mark. -/
theorem exec_keeps_fillMarkSound (hs : FillMarkSound s) (h : exec i s = .next t) : FillMarkSound t := by
  cases exec_writes h with
  | nop => exact hs
  | cost | decoder => exact fillMarkSound_of_same hs rfl rfl rfl rfl le_rfl
  | finder => exact fillMarkSound_of_same hs rfl rfl rfl rfl (execMfFind_held_le h)
  | parser hi =>
    obtain rfl | rfl | rfl | rfl : i = .dpInit ∨ i = .dpFill ∨ i = .dpRun ∨ i = .dpSelect := by simpa using hi
    · exact execDpInit_keeps_fillMarkSound hs h
    · exact execDpFill_keeps_fillMarkSound hs h
    · exact execDpRun_keeps_fillMarkSound hs h
    · exact execDpSelect_keeps_fillMarkSound hs h

/-- Settles O36: a command or a token by what its unit writes; a byte step writes the decoder only. -/
theorem stepKeepsFinalCells : Obligations.StepKeepsFinalCells := by
  intro s t hs h
  rcases step_next_cases h with ⟨i, -, -, -, he⟩ | ⟨-, x, i, rest, -, -, he⟩ | ⟨-, rfl⟩
  · exact exec_keeps_fillMarkSound (s := takeCommand s) hs he
  · exact exec_keeps_fillMarkSound (s := consume rest s) hs he
  · exact hs

/-! ## The statements about the commands -/

/-- Settles O27: what DP.INIT writes where it completes, read back. -/
theorem initWritesSentinel : Obligations.InitWritesSentinel := by
  intro s hv hcap
  refine ⟨_, execDpInit_completes hv hcap, by rw [cellAt_put, if_pos rfl]; rfl, fun q hq => ?_⟩
  rw [cellAt_put, if_neg hq.symm]

/-- Settles O29: the cell of a fill in order, read back, is `fillCell`, whose fields are those of the two paths. -/
theorem fillWritesItsCell : Obligations.FillWritesItsCell := by
  intro s f herr hv hcap hp hfill hf
  have hself : cellAt (fillInto s.cfg (dataByte s.data) s.dp.n.toNat s.sp s.dp.p.toNat) s.dp.p.toNat =
      fillCell s.cfg (dataByte s.data) s.dp.n.toNat (cellAt s.sp) s.dp.p.toNat := by
    rw [fillInto, cellAt_put, if_pos rfl]
  refine ⟨_, execDpFill_of_final herr hv hcap hp hfill hf, hself, ?_, fun q hq => ?_⟩
  · intro lit found mat x
    have hx : x = fillCell s.cfg (dataByte s.data) s.dp.n.toNat (cellAt s.sp) s.dp.p.toNat := hself
    rw [hx]
    exact ⟨rfl, rfl, rfl, rfl, fun hfound => if_pos hfound, fun hzero => if_neg fun h1 => Nat.ne_of_gt h1 hzero⟩
  · rw [fillInto, cellAt_put, if_neg hq.symm]

/-- The comparison of R109. -/
theorem selectChoice_of_feasible {x : SpCell} (h : ¬ (x.lbits = .inf ∧ x.mbits = .inf)) (c : Cfg) (b : Bool) :
    selectChoice c x b =
      some (if (x.lbits.add (if b then c.zeroMatchCost else .fin 0)).le x.mbits then .literal else .matched) := by
  rw [selectChoice, if_neg h]
  exact (apply_ite some _ _ _).symm

theorem selectChoice_eq_none_iff (c : Cfg) (x : SpCell) (b : Bool) :
    selectChoice c x b = none ↔ x.lbits = .inf ∧ x.mbits = .inf := by
  by_cases h : x.lbits = .inf ∧ x.mbits = .inf
  · simp [selectChoice, h]
  · simp [selectChoice_of_feasible h, h]

/-- Settles O33: a choice is made, and it is that of R109. -/
theorem selectChoosesTheCheaper : Obligations.SelectChoosesTheCheaper := by
  intro s herr hv hp x hfeasible
  rcases execDpSelect_selects herr hv hp with ⟨hnone, -⟩ | ⟨y, hy, he⟩
  · exact absurd ((selectChoice_eq_none_iff _ _ _).mp hnone) hfeasible
  · rw [selectChoice_of_feasible hfeasible] at hy
    cases hy
    exact he

/-- Settles O34: no choice is made over two infinite costs, and `raise` records the position. -/
theorem selectOnTwoInfinitesIsInfeasible : Obligations.SelectOnTwoInfinitesIsInfeasible := by
  intro s herr hv hp hlbits hmbits
  rcases execDpSelect_selects herr hv hp with ⟨-, he⟩ | ⟨x, hx, -⟩
  · exact he
  · simp [(selectChoice_eq_none_iff _ _ _).mpr ⟨hlbits, hmbits⟩] at hx

/-- DP.FILL at the position below the lowest final one, on an encode whose `DATA` is held. -/
theorem exec_dpFill_below {k : Nat} (herr : s.dp.status.state ≠ .err) (hv : s.cfg.valid = true)
    (hcap : s.dp.n.toNat ≤ Config.nCap) (hk : k < s.dp.n.toNat) (hfill : s.dp.fill = some (s.dp.n.toNat, k + 1))
    (hheld : s.dp.n.toNat ≤ s.held) :
    exec .dpFill (s.setDp { s.dp with p := BitVec.ofNat 18 k }) = .next { s with
      sp := fillInto s.cfg (dataByte s.data) s.dp.n.toNat s.sp k
      dp := { s.dp with p := BitVec.ofNat 18 k, fill := some (s.dp.n.toNat, k) } } := by
  have hp : (BitVec.ofNat 18 k).toNat = k := Nat.mod_eq_of_lt (by omega)
  have h := execDpFill_of_final (s := s.setDp { s.dp with p := BitVec.ofNat 18 k }) herr hv hcap (hp.trans_lt hk) hfill
    (congrArg (· + 1) hp).ge
  simp only [State.setDp_dp, State.setDp_cfg, State.setDp_data, State.setDp_sp, State.setDp_held, hp,
    Nat.min_eq_right (Nat.le_succ k), Nat.max_eq_left hheld] at h
  exact h

/-- The commands DP.FILL from below the lowest final cell down: they fill the table as DP.RUN does, `P` follows and ends at
0, and every cell is final (R101, R102). -/
theorem fillEach_eq_fillDown {k : Nat} (herr : s.dp.status.state ≠ .err) (hv : s.cfg.valid = true)
    (hcap : s.dp.n.toNat ≤ Config.nCap) (hk : k ≤ s.dp.n.toNat) (hfill : s.dp.fill = some (s.dp.n.toNat, k))
    (hheld : s.dp.n.toNat ≤ s.held) :
    fillEach k s = some { s with
      sp := fillDown s.cfg (dataByte s.data) s.dp.n.toNat k s.sp
      dp := { s.dp with p := if k = 0 then s.dp.p else 0, fill := some (s.dp.n.toNat, 0) } } := by
  induction k generalizing s with
  | zero =>
    rw [← hfill]
    rfl
  | succ k ih =>
    have hlast : (if k = 0 then BitVec.ofNat 18 k else 0) = 0 := by
      split
      · subst k; rfl
      · rfl
    rw [fillEach, exec_dpFill_below herr hv hcap hk hfill hheld]
    refine (ih (s := { s with
      sp := fillInto s.cfg (dataByte s.data) s.dp.n.toNat s.sp k
      dp := { s.dp with p := BitVec.ofNat 18 k, fill := some (s.dp.n.toNat, k) } }) herr hv hcap (Nat.le_of_lt hk) rfl
      hheld).trans ?_
    dsimp only
    rw [hlast]
    rfl

/-- Settles O28: both ends of DP.RUN, the second as DP.INIT and the commands DP.FILL that follow it. -/
theorem runIsInitThenFills : Obligations.RunIsInitThenFills := by
  refine ⟨fun s hbad => ?_, fun s hv hcap => ?_⟩
  · rcases execDpRun_cases s with ⟨-, he⟩ | ⟨-, -, he⟩ | ⟨hv, hcap, -⟩
    · exact ⟨_, he, rfl, rfl⟩
    · exact ⟨_, he, rfl, rfl⟩
    · rcases hbad with hinv | hover
      · simp [hv] at hinv
      · exact absurd hcap (Nat.not_le.mpr hover)
  · have hzero : (s.dp.n = 0) = (s.dp.n.toNat = 0) := by simp [BitVec.toNat_eq]
    have hrun := execDpRun_completes hv hcap
    simp only [hzero] at hrun
    refine ⟨_, _, execDpInit_completes hv hcap, fillEach_eq_fillDown (by simp [Status.completed]) hv hcap le_rfl rfl
      (Nat.le_max_right _ _), hrun, rfl, fun hn => ?_⟩
    simp [hn, fillDown]

/-- Settles O39: at position 0 of a final table a literal has a finite cost and a match has none (R108 (a), (e)). -/
theorem streamBeginsWithLiteral : Obligations.StreamBeginsWithLiteral := by
  intro s t b hv hn hcap h
  have hsound := tableFinal_cellSound hv (execDpRun_tableFinal hv hcap h) 0 le_rfl (Nat.zero_le _)
  have hnoMatch : (cellAt t.sp 0).mbits = .inf := hsound.noMatchAtStart rfl
  obtain ⟨hcfg, hdpn, hstatus⟩ : t.cfg = s.cfg ∧ t.dp.n = s.dp.n ∧ t.dp.status = Status.completed := by
    rw [show exec .dpRun s = execDpRun s from rfl, execDpRun_completes hv hcap] at h
    cases h
    exact ⟨rfl, rfl, rfl⟩
  have hselect := selectChoosesTheCheaper { t with dp := { t.dp with p := 0, prevLit := b } }
    (by simp [hstatus, Status.completed]) (hcfg ▸ hv) (by simpa [hdpn] using hn) fun hinf => hsound.lbitsFinite hinf.1
  refine hselect.trans ?_
  rw [if_pos (hnoMatch ▸ Cost.le_inf _)]

theorem tableFinal_congr_cfg {c' : Cfg} {cell : Nat → SpCell} (h : TableFinal c' dat n f cell)
    (hfill : fillCell c' = fillCell c) : TableFinal c dat n f cell := by
  obtain ⟨hf, hlast, hcells⟩ := h
  exact ⟨hf, hlast, hfill ▸ hcells⟩

/-- Settles O40: both tables are final from 0 on for the same fill, and final cells are determined. -/
theorem tableIsFunctionOfItsInputs : Obligations.TableIsFunctionOfItsInputs := by
  intro s s' hv hv' hcap hbits hmlen hllen hzero hn hdata
  have hcap' : s'.dp.n.toNat ≤ Config.nCap := hn ▸ hcap
  obtain ⟨t, ht⟩ : ∃ t, execDpRun s = .next t := ⟨_, execDpRun_completes hv hcap⟩
  obtain ⟨t', ht'⟩ : ∃ t', execDpRun s' = .next t' := ⟨_, execDpRun_completes hv' hcap'⟩
  have hfinal := execDpRun_tableFinal hv hcap ht
  have hfinal' := execDpRun_tableFinal hv' hcap' ht'
  rw [hn] at hfinal'
  have hsame := tableFinal_congr_cfg (tableFinal_congr hdata hfinal') (fillCell_congr_cfg hbits hmlen hllen hzero)
  exact ⟨t, t', ht, ht', fun p hp => tableFinal_unique hsame hfinal p p.zero_le hp⟩

end Machine

end Sys2Proof
end

section
/-! PROOFS. The two forms of the decoder (R152): every operation of the block form is some number of byte steps, so a run is
the byte steps from its start to where a further one changes nothing. -/

namespace Sys2Proof.Machine

open Sys2Proof.Safety

namespace Dec

variable {c : Cfg} {d d' d'' : Dec} {b b1 : Byte} {rest : List Byte} {n : Nat}

/-! ## Byte steps in a row -/

theorem byteSteps_eq_iterate (c : Cfg) (k : Nat) (d : Dec) : byteSteps c k d = (Dec.byteStep c)^[k] d := by
  induction k generalizing d with
  | zero => rfl
  | succ k ih => exact ih _

/-- Some number of byte steps makes the second decoder of the first. -/
def Reaches (c : Cfg) (d d' : Dec) : Prop := ∃ k, byteSteps c k d = d'

/-- A further byte step changes nothing. -/
def Halted (c : Cfg) (d : Dec) : Prop := d.byteStep c = d

theorem Reaches.refl (d : Dec) : d.Reaches c d := ⟨0, rfl⟩

theorem reaches_of_byteStep_eq (h : d.byteStep c = d') : d.Reaches c d' := ⟨1, h⟩

theorem Reaches.trans (h : d.Reaches c d') (h' : d'.Reaches c d'') : d.Reaches c d'' := by
  obtain ⟨j, rfl⟩ := h
  obtain ⟨k, rfl⟩ := h'
  exact ⟨k + j, by simp only [byteSteps_eq_iterate, Function.iterate_add_apply]⟩

/-- Byte steps that have come to where they halt stay there. -/
theorem Reaches.eventually (h : d.Reaches c d') (hd : d'.Halted c) : ∃ j, ∀ k, j ≤ k → byteSteps c k d = d' := by
  obtain ⟨j, hj⟩ := h
  refine ⟨j, fun k hk => ?_⟩
  obtain ⟨i, rfl⟩ := Nat.exists_eq_add_of_le' hk
  rw [byteSteps_eq_iterate] at hj ⊢
  rw [Function.iterate_add_apply, hj]
  exact Function.iterate_fixed hd i

/-- The byte steps halt in one place only. -/
theorem Reaches.halted_unique (h : d.Reaches c d') (hd : d'.Halted c) (h' : d.Reaches c d'') (hd' : d''.Halted c) :
    d' = d'' := by
  obtain ⟨j, hj⟩ := h.eventually hd
  obtain ⟨k, hk⟩ := h'.eventually hd'
  exact (hj (j + k) (by omega)).symm.trans (hk (j + k) (by omega))

/-- What every byte step keeps, byte steps keep. -/
theorem Reaches.invariant {P : Dec → Prop} (hstep : ∀ d, P d → P (d.byteStep c)) (h : d.Reaches c d') (hd : P d) :
    P d' := by
  obtain ⟨k, rfl⟩ := h
  induction k generalizing d with
  | zero => exact hd
  | succ k ih => exact ih (hstep d hd)

/-! ## A row of R152 that takes a byte -/

section
variable {atByte : Byte → Dec → Dec} {atEnd : Dec}

theorem onByte_byte (h : d.inp = b :: rest) :
    d.onByte atByte atEnd = atByte b { d with inp := rest, ip := d.ip + 1 } := by
  simp only [Dec.onByte, inByte_cons h]

theorem onByte_eof (h : d.inp = []) (he : d.inEnd = true) : d.onByte atByte atEnd = atEnd := by
  simp only [Dec.onByte, inByte_eof h he]

theorem onByte_wait (h : d.inp = []) (he : d.inEnd = false) : d.onByte atByte atEnd = d := by
  simp only [Dec.onByte, inByte_wait h he]

/-- Such a row takes the first byte of `IN` where there is one, if what it does then leaves `IN` alone. -/
theorem onByte_input (hp : d.phase ≠ .copy) (hbyte : ∀ b d', (atByte b d').inp = d'.inp ∧ (atByte b d').ip = d'.ip)
    (hend : atEnd.inp = d.inp ∧ atEnd.ip = d.ip) :
    ((d.onByte atByte atEnd).inp = d.inp ∧ (d.onByte atByte atEnd).ip = d.ip) ∨
    (d.phase ≠ .copy ∧ ∃ b, d.inp = b :: (d.onByte atByte atEnd).inp ∧ (d.onByte atByte atEnd).ip = d.ip + 1) := by
  rcases inByte_cases d with ⟨b, rest, hinp, -⟩ | ⟨hinp, he, -⟩ | ⟨hinp, he, -⟩
  · obtain ⟨hinp', hip'⟩ := hbyte b { d with inp := rest, ip := d.ip + 1 }
    rw [onByte_byte hinp, hinp', hip']
    exact .inr ⟨hp, b, hinp, rfl⟩
  · rw [onByte_eof hinp he]
    exact .inl hend
  · rw [onByte_wait hinp he]
    exact .inl ⟨rfl, rfl⟩

end

/-! ## The table of R152, a row at a time -/

theorem byteStep_llen (hp : d.phase = .llen) :
    d.byteStep c =
      d.onByte
        (fun b d1 =>
          if 256 ≤ c.llenLimit ∧ 128 ≤ b.toNat then { d1 with lenlo := b, phase := .llen2 }
          else Dec.afterLLen { d1 with cnt := b.toNat })
        d.finish := by
  rw [Dec.byteStep, hp]

theorem byteStep_llen2 (hp : d.phase = .llen2) :
    d.byteStep c =
      d.onByte (fun b d1 => Dec.afterLLen { d1 with cnt := wideLength d1.lenlo b })
        (d.raiseTruncated .secondLengthByte) := by
  rw [Dec.byteStep, hp]

theorem byteStep_lit (hp : d.phase = .lit) :
    d.byteStep c =
      d.onByte
        (fun b d1 =>
          if d1.cnt - 1 = 0 then { d1.literalByte c b with phase := .mlen } else d1.literalByte c b)
        (d.raiseTruncated .literalByte) := by
  rw [Dec.byteStep, hp]
  rfl

theorem byteStep_mlen (hp : d.phase = .mlen) :
    d.byteStep c =
      d.onByte
        (fun b d1 =>
          if 256 ≤ c.mlenLimit ∧ 128 ≤ b.toNat then { d1 with lenlo := b, phase := .mlen2 }
          else Dec.afterMLen c { d1 with cnt := b.toNat })
        d.finish := by
  rw [Dec.byteStep, hp]

theorem byteStep_mlen2 (hp : d.phase = .mlen2) :
    d.byteStep c =
      d.onByte (fun b d1 => Dec.afterMLen c { d1 with cnt := wideLength d1.lenlo b })
        (d.raiseTruncated .secondLengthByte) := by
  rw [Dec.byteStep, hp]

/-- The empty offset field (R142). -/
theorem byteStep_offlo_rle (hp : d.phase = .offlo) (hb : c.bits = 0) : d.byteStep c = (d.rleSrc c).afterSrc := by
  rw [Dec.byteStep, hp]
  exact if_pos hb

theorem byteStep_offlo (hp : d.phase = .offlo) (hb : c.bits ≠ 0) :
    d.byteStep c =
      d.onByte
        (fun b d1 => if c.bits > 8 then { d1.lowOffset b with phase := .offhi } else (d1.lowOffset b).afterOff c)
        (d.raiseTruncated .offsetByte) := by
  rw [Dec.byteStep, hp]
  exact if_neg hb

theorem byteStep_offhi (hp : d.phase = .offhi) :
    d.byteStep c = d.onByte (fun b d1 => (d1.highOffset b).afterOff c) (d.raiseTruncated .offsetByte) := by
  rw [Dec.byteStep, hp]

theorem byteStep_copy (hp : d.phase = .copy) :
    d.byteStep c = if d.cnt - 1 = 0 then { d.copyByte c with phase := .llen } else d.copyByte c := by
  rw [Dec.byteStep, hp]
  rfl

theorem afterMLen_input (c : Cfg) (d : Dec) : (d.afterMLen c).inp = d.inp ∧ (d.afterMLen c).ip = d.ip := by
  unfold Dec.afterMLen
  split
  · exact ⟨rfl, rfl⟩
  · split <;> exact ⟨rfl, rfl⟩

/-- A byte step takes no byte, or the first byte of `IN`, which the copy does not (R152). -/
theorem byteStep_input (c : Cfg) (d : Dec) :
    ((d.byteStep c).inp = d.inp ∧ (d.byteStep c).ip = d.ip) ∨
    (d.phase ≠ .copy ∧ ∃ b, d.inp = b :: (d.byteStep c).inp ∧ (d.byteStep c).ip = d.ip + 1) := by
  cases hp : d.phase
  case llen =>
    rw [byteStep_llen hp, ← hp]
    refine onByte_input (by simp [hp]) (fun b d' => ?_) ⟨rfl, rfl⟩
    split <;> exact ⟨rfl, rfl⟩
  case llen2 =>
    rw [byteStep_llen2 hp, ← hp]
    exact onByte_input (by simp [hp]) (fun b d' => ⟨rfl, rfl⟩) ⟨rfl, rfl⟩
  case lit =>
    rw [byteStep_lit hp, ← hp]
    refine onByte_input (by simp [hp]) (fun b d' => ?_) ⟨rfl, rfl⟩
    split <;> exact ⟨rfl, rfl⟩
  case mlen =>
    rw [byteStep_mlen hp, ← hp]
    refine onByte_input (by simp [hp]) (fun b d' => ?_) ⟨rfl, rfl⟩
    split
    · exact ⟨rfl, rfl⟩
    · exact afterMLen_input c { d' with cnt := b.toNat }
  case mlen2 =>
    rw [byteStep_mlen2 hp, ← hp]
    exact onByte_input (by simp [hp]) (fun b d' => afterMLen_input c { d' with cnt := wideLength d'.lenlo b })
      ⟨rfl, rfl⟩
  case offlo =>
    by_cases hb : c.bits = 0
    · rw [byteStep_offlo_rle hp hb]
      exact .inl ⟨rfl, rfl⟩
    · rw [byteStep_offlo hp hb, ← hp]
      refine onByte_input (by simp [hp]) (fun b d' => ?_) ⟨rfl, rfl⟩
      split <;> exact ⟨rfl, rfl⟩
  case offhi =>
    rw [byteStep_offhi hp, ← hp]
    exact onByte_input (by simp [hp]) (fun b d' => ⟨rfl, rfl⟩) ⟨rfl, rfl⟩
  case copy =>
    rw [byteStep_copy hp]
    split <;> exact .inl ⟨rfl, rfl⟩
  case idle | done | err =>
    rw [byteStep_of_not_busy (by simp [hp, Phase.unitState])]
    exact .inl ⟨rfl, rfl⟩

theorem Reaches.length_inp_le (h : d.Reaches c d') : d'.inp.length ≤ d.inp.length := by
  refine h.invariant (P := fun x => x.inp.length ≤ d.inp.length) (fun x hx => ?_) le_rfl
  rcases x.byteStep_input c with ⟨hinp, -⟩ | ⟨-, b, hinp, -⟩
  · rwa [hinp]
  · rw [hinp, List.length_cons] at hx
    omega

theorem halted_of_not_busy (h : d.phase.unitState ≠ .busy) : d.Halted c := byteStep_of_not_busy h

/-- A decoder that needs a byte and has to wait for it stays as it is (R170). -/
theorem halted_waiting (h : d.inp = []) (he : d.inEnd = false) (hcopy : d.phase ≠ .copy)
    (hoff : d.phase = .offlo → c.bits ≠ 0) : d.Halted c := by
  unfold Halted
  cases hp : d.phase
  case llen => rw [byteStep_llen hp, onByte_wait h he]
  case llen2 => rw [byteStep_llen2 hp, onByte_wait h he]
  case lit => rw [byteStep_lit hp, onByte_wait h he]
  case mlen => rw [byteStep_mlen hp, onByte_wait h he]
  case mlen2 => rw [byteStep_mlen2 hp, onByte_wait h he]
  case offlo => rw [byteStep_offlo hp (hoff hp), onByte_wait h he]
  case offhi => rw [byteStep_offhi hp, onByte_wait h he]
  case copy => exact absurd hp hcopy
  case idle | done | err => exact byteStep_of_not_busy (by simp [hp, Phase.unitState])

theorem halted_raiseTruncated (e : Expected) (d : Dec) : (d.raiseTruncated e).Halted c :=
  byteStep_of_not_busy (by simp [Phase.unitState])

theorem halted_finish (d : Dec) : d.finish.Halted c := byteStep_of_not_busy (by simp [Phase.unitState])

/-! ## Literals and copies -/

theorem literalLoop_eof (c : Cfg) (n : Nat) (h : d.inp = []) (he : d.inEnd = true) :
    d.literalLoop c (n + 1) = d.raiseTruncated .literalByte := by
  simp only [Dec.literalLoop, inByte_eof h he]

theorem literalLoop_wait (c : Cfg) (n : Nat) (h : d.inp = []) (he : d.inEnd = false) :
    d.literalLoop c (n + 1) = { d with phase := .lit } := by
  simp only [Dec.literalLoop, inByte_wait h he]

/-- The phase in which the loop of R139 is entered does not matter to it. -/
theorem literalLoop_withPhase (c : Cfg) (n : Nat) (d : Dec) (p : Phase) :
    Dec.literalLoop c n { d with phase := p } = d.literalLoop c n := by
  induction n generalizing d with
  | zero => rfl
  | succ n ih =>
    rcases inByte_cases d with ⟨b, rest, hinp, -⟩ | ⟨hinp, he, -⟩ | ⟨hinp, he, -⟩
    · rw [literalLoop_cons c n hinp, literalLoop_cons c n (d := { d with phase := p }) hinp]
      exact ih (Dec.literalByte c b { d with inp := rest, ip := d.ip + 1 })
    · rw [literalLoop_eof c n hinp he, literalLoop_eof c n (d := { d with phase := p }) hinp he]
      rfl
    · rw [literalLoop_wait c n hinp he, literalLoop_wait c n (d := { d with phase := p }) hinp he]

/-- The phase in which the loop of R147 is entered does not matter to it. -/
theorem copyLoop_withPhase (c : Cfg) (n : Nat) (d : Dec) (p : Phase) :
    Dec.copyLoop c n { d with phase := p } = d.copyLoop c n := by
  induction n generalizing d with
  | zero => rfl
  | succ n ih => exact ih (d.copyByte c)

/-- A round of the loop of R139 is the row LIT of R152; behind the loop a match length is expected, or the decoder halts. -/
theorem reaches_literalLoop (hp : d.phase = .lit) (hcnt : d.cnt = n + 1) :
    d.Reaches c (d.literalLoop c (n + 1)) ∧
    ((d.literalLoop c (n + 1)).phase = .mlen ∨ (d.literalLoop c (n + 1)).Halted c) := by
  induction n generalizing d with
  | zero =>
    rcases inByte_cases d with ⟨b, rest, hinp, -⟩ | ⟨hinp, he, -⟩ | ⟨hinp, he, -⟩
    · rw [literalLoop_cons c 0 hinp]
      refine ⟨reaches_of_byteStep_eq ?_, .inl rfl⟩
      rw [byteStep_lit hp, onByte_byte hinp, if_pos (by simp [hcnt])]
      rfl
    · rw [literalLoop_eof c 0 hinp he]
      exact ⟨reaches_of_byteStep_eq ((byteStep_lit hp).trans (onByte_eof hinp he)), .inr (halted_raiseTruncated _ _)⟩
    · rw [literalLoop_wait c 0 hinp he, ← hp]
      exact ⟨.refl d, .inr (halted_waiting hinp he (by simp [hp]) (by simp [hp]))⟩
  | succ n ih =>
    rcases inByte_cases d with ⟨b, rest, hinp, -⟩ | ⟨hinp, he, -⟩ | ⟨hinp, he, -⟩
    · rw [literalLoop_cons c (n + 1) hinp]
      have hbyte : Reaches c d (Dec.literalByte c b { d with inp := rest, ip := d.ip + 1 }) := by
        refine reaches_of_byteStep_eq ?_
        rw [byteStep_lit hp, onByte_byte hinp, if_neg (by simp [hcnt])]
      have hrest := ih (d := Dec.literalByte c b { d with inp := rest, ip := d.ip + 1 }) hp (by simp [hcnt])
      exact hrest.imp_left hbyte.trans
    · rw [literalLoop_eof c (n + 1) hinp he]
      exact ⟨reaches_of_byteStep_eq ((byteStep_lit hp).trans (onByte_eof hinp he)), .inr (halted_raiseTruncated _ _)⟩
    · rw [literalLoop_wait c (n + 1) hinp he, ← hp]
      exact ⟨.refl d, .inr (halted_waiting hinp he (by simp [hp]) (by simp [hp]))⟩

/-- A literal, from where its length has been read. -/
theorem reaches_literal (c : Cfg) (n : Nat) (d : Dec) :
    Reaches c (Dec.afterLLen { d with cnt := n }) (d.literal c n) ∧
    ((d.literal c n).phase = .mlen ∨ (d.literal c n).Halted c) := by
  cases n with
  | zero => exact ⟨.refl _, .inl rfl⟩
  | succ n =>
    rw [Dec.literal, ← literalLoop_withPhase c (n + 1) { d with cnt := n + 1 } .lit]
    exact reaches_literalLoop rfl rfl

/-- A round of the loop of R147 is the row COPY of R152. -/
theorem reaches_copyLoop (hp : d.phase = .copy) (hcnt : d.cnt = n + 1) : d.Reaches c (d.copyLoop c (n + 1)) := by
  induction n generalizing d with
  | zero =>
    refine reaches_of_byteStep_eq ?_
    rw [byteStep_copy hp, if_pos (by simp [hcnt])]
    rfl
  | succ n ih =>
    rw [copyLoop_succ]
    refine (reaches_of_byteStep_eq ?_).trans (ih hp (by simp [hcnt]))
    rw [byteStep_copy hp, if_neg (by simp [hcnt])]

/-- A copy, from where its source is computed; a literal length is expected behind it. -/
theorem reaches_copy (c : Cfg) (d : Dec) : Reaches c d.afterSrc (d.copy c) ∧ (d.copy c).phase = .llen := by
  obtain ⟨-, -, -, -, -, -, hphase, -⟩ := copyLoop_frame c d.cnt d
  refine ⟨?_, hphase⟩
  cases hcnt : d.cnt with
  | zero =>
    have hcopy : d.copy c = { d with phase := .llen } := congrArg (Dec.copyLoop c · d) hcnt
    rw [Dec.afterSrc, if_neg (by omega), hcopy]
    exact .refl _
  | succ n =>
    have hcopy : d.copy c = d.copyLoop c (n + 1) := congrArg (Dec.copyLoop c · d) hcnt
    rw [Dec.afterSrc, if_pos (by omega), hcopy, ← copyLoop_withPhase c (n + 1) d .copy]
    exact reaches_copyLoop rfl hcnt

/-- The rest of a match block, from where its offset is assembled (R143 to R147). -/
theorem Reaches.finishOffset (h : d.Reaches c (d'.afterOff c)) :
    d.Reaches c (d'.finishOffset c) ∧ ((d'.finishOffset c).phase = .llen ∨ (d'.finishOffset c).Halted c) :=
  (reaches_copy c (d'.computeSrc c)).imp h.trans .inl

/-! ## The offset field and the match block -/

theorem offsetField_rle (hb : c.bits = 0) : d.offsetField c = (d.rleSrc c).copy c := if_pos hb

theorem offsetField_eof (hb : c.bits ≠ 0) (h : d.inp = []) (he : d.inEnd = true) :
    d.offsetField c = d.raiseTruncated .offsetByte := by
  simp only [Dec.offsetField, if_neg hb, inByte_eof h he]

theorem offsetField_wait (hb : c.bits ≠ 0) (h : d.inp = []) (he : d.inEnd = false) :
    d.offsetField c = { d with phase := .offlo } := by
  simp only [Dec.offsetField, if_neg hb, inByte_wait h he]

theorem offsetField_oneByte (hb : c.bits ≠ 0) (hb8 : ¬ 8 < c.bits) (h : d.inp = b :: rest) :
    d.offsetField c = Dec.finishOffset c (Dec.lowOffset b { d with inp := rest, ip := d.ip + 1 }) := by
  simp only [Dec.offsetField, if_neg hb, inByte_cons h, gt_iff_lt, if_neg hb8]

theorem offsetField_twoBytes (hb8 : 8 < c.bits) (h : d.inp = b :: b1 :: rest) :
    d.offsetField c =
      Dec.finishOffset c (Dec.highOffset b1 (Dec.lowOffset b { d with inp := rest, ip := d.ip + 1 + 1 })) := by
  have hb : c.bits ≠ 0 := by omega
  simp only [Dec.offsetField, if_neg hb, inByte_cons h, gt_iff_lt, if_pos hb8]
  rfl

theorem offsetField_cut_eof (hb8 : 8 < c.bits) (h : d.inp = [b]) (he : d.inEnd = true) :
    d.offsetField c = Dec.raiseTruncated .offsetByte (Dec.lowOffset b { d with inp := [], ip := d.ip + 1 }) := by
  have hb : c.bits ≠ 0 := by omega
  have heof : (Dec.lowOffset b { d with inp := [], ip := d.ip + 1 }).inByte = .eof := inByte_eof rfl he
  simp only [Dec.offsetField, if_neg hb, inByte_cons h, gt_iff_lt, if_pos hb8, heof]

theorem offsetField_cut_wait (hb8 : 8 < c.bits) (h : d.inp = [b]) (he : d.inEnd = false) :
    d.offsetField c = { Dec.lowOffset b { d with inp := [], ip := d.ip + 1 } with phase := .offhi } := by
  have hb : c.bits ≠ 0 := by omega
  have hwait : (Dec.lowOffset b { d with inp := [], ip := d.ip + 1 }).inByte = .wait := inByte_wait rfl he
  simp only [Dec.offsetField, if_neg hb, inByte_cons h, gt_iff_lt, if_pos hb8, hwait]

/-- The offset field of a match block, from the phase that takes its first byte: behind it a literal length is expected, or
the decoder halts in it. -/
theorem reaches_offsetField (c : Cfg) (d : Dec) :
    Reaches c { d with phase := .offlo } (d.offsetField c) ∧
    ((d.offsetField c).phase = .llen ∨ (d.offsetField c).Halted c) := by
  by_cases hb : c.bits = 0
  · rw [offsetField_rle hb]
    have hrow : Dec.byteStep c { d with phase := .offlo } = (d.rleSrc c).afterSrc := byteStep_offlo_rle rfl hb
    exact (reaches_copy c _).imp (reaches_of_byteStep_eq hrow).trans .inl
  have hrow := byteStep_offlo (c := c) (d := { d with phase := .offlo }) rfl hb
  rcases inByte_cases d with ⟨b0, rest, hinp, -⟩ | ⟨hinp, he, -⟩ | ⟨hinp, he, -⟩
  · replace hrow := hrow.trans (onByte_byte hinp)
    by_cases hb8 : 8 < c.bits
    · rw [if_pos hb8] at hrow
      have hrow2 := byteStep_offhi (c := c)
        (d := { Dec.lowOffset b0 { d with inp := rest, ip := d.ip + 1 } with phase := .offhi }) rfl
      cases rest with
      | cons b1 rest =>
        rw [offsetField_twoBytes hb8 hinp]
        exact Reaches.finishOffset
          ((reaches_of_byteStep_eq hrow).trans (reaches_of_byteStep_eq (hrow2.trans (onByte_byte rfl))))
      | nil =>
        rcases Bool.eq_false_or_eq_true d.inEnd with he | he
        · rw [offsetField_cut_eof hb8 hinp he]
          exact ⟨(reaches_of_byteStep_eq hrow).trans (reaches_of_byteStep_eq (hrow2.trans (onByte_eof rfl he))),
            .inr (halted_raiseTruncated _ _)⟩
        · rw [offsetField_cut_wait hb8 hinp he]
          exact ⟨reaches_of_byteStep_eq hrow, .inr (halted_waiting rfl he nofun nofun)⟩
    · rw [if_neg hb8] at hrow
      rw [offsetField_oneByte hb hb8 hinp]
      exact Reaches.finishOffset (reaches_of_byteStep_eq hrow)
  · rw [offsetField_eof hb hinp he]
    exact ⟨reaches_of_byteStep_eq (hrow.trans (onByte_eof hinp he)), .inr (halted_raiseTruncated _ _)⟩
  · rw [offsetField_wait hb hinp he]
    exact ⟨.refl _, .inr (halted_waiting hinp he nofun fun _ => hb)⟩

theorem matchBlock_of_due (h : 0 < n ∨ c.zeroOffset = true) : d.matchBlock c n = Dec.offsetField c { d with cnt := n } :=
  if_pos (by simpa [Cfg.offsetDue] using h)

theorem matchBlock_zero (h : c.zeroOffset = false) : d.matchBlock c 0 = { d with cnt := 0, phase := .llen } :=
  if_neg (by simp [Cfg.offsetDue, h])

/-- A match block, from where its length has been read (R140, R152). -/
theorem reaches_matchBlock (c : Cfg) (n : Nat) (d : Dec) :
    Reaches c (Dec.afterMLen c { d with cnt := n }) (d.matchBlock c n) ∧
    ((d.matchBlock c n).phase = .llen ∨ (d.matchBlock c n).Halted c) := by
  unfold Dec.afterMLen
  by_cases hzero : n = 0 ∧ c.zeroOffset = false
  · obtain ⟨rfl, hz⟩ := hzero
    rw [if_pos ⟨rfl, hz⟩, matchBlock_zero hz]
    exact ⟨.refl _, .inl rfl⟩
  · have hdue : 0 < n ∨ c.zeroOffset = true := by
      rcases Nat.eq_zero_or_pos n with rfl | hpos
      · exact .inr (by simpa using hzero)
      · exact .inl hpos
    rw [if_neg hzero, matchBlock_of_due hdue]
    split
    next hb =>
      rw [offsetField_rle hb]
      exact (reaches_copy c _).imp_right .inl
    next => exact reaches_offsetField c _

/-! ## Length fields -/

section
variable {limit : Nat} {second : Phase}

theorem getLen_oneByte (h : d.inp = b :: rest) (hb : limit < 256 ∨ b.toNat < 128) :
    d.getLen limit second = .length b.toNat { d with inp := rest, ip := d.ip + 1 } := by
  simp only [Dec.getLen, inByte_cons h, if_pos hb]

theorem getLen_eof (h : d.inp = []) (he : d.inEnd = true) : d.getLen limit second = .stop d.finish := by
  simp only [Dec.getLen, inByte_eof h he]

theorem getLen_wait (h : d.inp = []) (he : d.inEnd = false) : d.getLen limit second = .stop d := by
  simp only [Dec.getLen, inByte_wait h he]

theorem getLen_twoBytes (h : d.inp = b :: b1 :: rest) (hb : ¬ (limit < 256 ∨ b.toNat < 128)) :
    d.getLen limit second = .length (wideLength b b1) { d with inp := rest, ip := d.ip + 1 + 1, lenlo := b } := by
  simp only [Dec.getLen, inByte_cons h, if_neg hb]
  rfl

theorem getLen_cut_eof (h : d.inp = [b]) (hb : ¬ (limit < 256 ∨ b.toNat < 128)) (he : d.inEnd = true) :
    d.getLen limit second =
      .stop (Dec.raiseTruncated .secondLengthByte { d with inp := [], ip := d.ip + 1, lenlo := b }) := by
  have heof : Dec.inByte { d with inp := [], ip := d.ip + 1, lenlo := b } = .eof := inByte_eof rfl he
  simp only [Dec.getLen, inByte_cons h, if_neg hb, heof]

theorem getLen_cut_wait (h : d.inp = [b]) (hb : ¬ (limit < 256 ∨ b.toNat < 128)) (he : d.inEnd = false) :
    d.getLen limit second = .stop { d with inp := [], ip := d.ip + 1, lenlo := b, phase := second } := by
  have hwait : Dec.inByte { d with inp := [], ip := d.ip + 1, lenlo := b } = .wait := inByte_wait rfl he
  simp only [Dec.getLen, inByte_cons h, if_neg hb, hwait]

end

/-- The two rows of R152 that read a length field under a limit, and what is done with the length: a literal's and a
match's have them in common. -/
structure LengthRows (c : Cfg) (limit : Nat) (first second : Phase) (after : Dec → Dec) : Prop where
  firstByte : ∀ d : Dec, d.phase = first → d.byteStep c =
    d.onByte
      (fun b d1 =>
        if 256 ≤ limit ∧ 128 ≤ b.toNat then { d1 with lenlo := b, phase := second } else after { d1 with cnt := b.toNat })
      d.finish
  secondByte : ∀ d : Dec, d.phase = second → d.byteStep c =
    d.onByte (fun b d1 => after { d1 with cnt := wideLength d1.lenlo b }) (d.raiseTruncated .secondLengthByte)
  phase : ∀ (d : Dec) (p : Phase), after { d with phase := p } = after d
  waits : first ≠ .copy ∧ first ≠ .offlo ∧ second ≠ .copy ∧ second ≠ .offlo

theorem literalLengthRows (c : Cfg) : LengthRows c c.llenLimit .llen .llen2 Dec.afterLLen where
  firstByte _ hp := byteStep_llen hp
  secondByte _ hp := byteStep_llen2 hp
  phase _ _ := rfl
  waits := by decide

theorem matchLengthRows (c : Cfg) : LengthRows c c.mlenLimit .mlen .mlen2 (Dec.afterMLen c) where
  firstByte _ hp := byteStep_mlen hp
  secondByte _ hp := byteStep_mlen2 hp
  phase _ _ := rfl
  waits := by decide

section
variable {limit m : Nat} {first second : Phase} {after : Dec → Dec}

/-- `GetLen` answers a length behind at least one byte, as the rows do, or stops where they halt (R138). -/
theorem LengthRows.getLen_cases (h : LengthRows c limit first second after) (hp : d.phase = first) :
    (∃ d', d.getLen limit second = .stop d' ∧ d.Reaches c d' ∧ d'.Halted c) ∨
    (∃ m d', d.getLen limit second = .length m d' ∧ d.Reaches c (after { d' with cnt := m }) ∧
      d'.inp.length < d.inp.length) := by
  obtain ⟨hfirst, hsecond, hphase, hcopy, hoff, hcopy', hoff'⟩ := h
  have hrow := hfirst d hp
  rcases inByte_cases d with ⟨b, rest, hinp, -⟩ | ⟨hinp, he, -⟩ | ⟨hinp, he, -⟩
  · replace hrow := hrow.trans (onByte_byte hinp)
    by_cases hone : limit < 256 ∨ b.toNat < 128
    · rw [if_neg (by omega)] at hrow
      exact .inr ⟨_, _, getLen_oneByte hinp hone, reaches_of_byteStep_eq hrow, by simp [hinp]⟩
    · rw [if_pos (by omega)] at hrow
      have hrow2 := hsecond { d with inp := rest, ip := d.ip + 1, lenlo := b, phase := second } rfl
      cases rest with
      | cons b2 rest =>
        have hafter := hphase { d with inp := rest, ip := d.ip + 1 + 1, lenlo := b, cnt := wideLength b b2 } second
        exact .inr ⟨_, _, getLen_twoBytes hinp hone,
          (reaches_of_byteStep_eq hrow).trans (reaches_of_byteStep_eq ((hrow2.trans (onByte_byte rfl)).trans hafter)),
          by simp only [hinp, List.length_cons]; omega⟩
      | nil =>
        rcases Bool.eq_false_or_eq_true d.inEnd with he | he
        · exact .inl ⟨_, getLen_cut_eof hinp hone he, (reaches_of_byteStep_eq hrow).trans (reaches_of_byteStep_eq
          (hrow2.trans (onByte_eof rfl he))), halted_raiseTruncated _ _⟩
        · exact .inl ⟨_, getLen_cut_wait hinp hone he, reaches_of_byteStep_eq hrow,
          halted_waiting rfl he hcopy' fun h => absurd h hoff'⟩
  · exact .inl ⟨_, getLen_eof hinp he, reaches_of_byteStep_eq (hrow.trans (onByte_eof hinp he)), halted_finish d⟩
  · exact .inl ⟨_, getLen_wait hinp he, .refl d, halted_waiting hinp he (hp ▸ hcopy) fun h => absurd (hp ▸ h) hoff⟩

/-- From a length place to behind the length that `GetLen` answers. -/
theorem LengthRows.reaches_length (h : LengthRows c limit first second after) (hp : d.phase = first)
    (hlen : d.getLen limit second = .length m d') : d.Reaches c (after { d' with cnt := m }) := by
  rcases h.getLen_cases hp with ⟨_, hstop, -⟩ | ⟨m', d'', hlen', hr, -⟩
  · cases hlen.symm.trans hstop
  · cases hlen.symm.trans hlen'
    exact hr

end

/-! ## The run -/

/-- With more rounds than bytes left the loop of R137 is the byte steps until they halt: a round that goes on has taken a
byte. -/
theorem reaches_loop {k : Nat} (hp : d.phase = .llen) (hk : d.inp.length < k) :
    d.Reaches c (d.loop c k) ∧ (d.loop c k).Halted c := by
  induction k generalizing d with
  | zero => omega
  | succ k ih =>
    unfold Dec.loop
    rcases (literalLengthRows c).getLen_cases hp with ⟨d1, h1, hr1, hh1⟩ | ⟨n, d1, h1, hr1, hlt1⟩ <;> simp only [h1]
    · exact ⟨hr1, hh1⟩
    · obtain ⟨hlit, hlit'⟩ := reaches_literal c n d1
      have hle2 : (d1.literal c n).inp.length ≤ d1.inp.length := hlit.length_inp_le
      split
      next hp2 =>
        rcases (matchLengthRows c).getLen_cases hp2 with ⟨d3, h3, hr3, hh3⟩ | ⟨m, d3, h3, hr3, hlt3⟩ <;> simp only [h3]
        · exact ⟨(hr1.trans hlit).trans hr3, hh3⟩
        · obtain ⟨hmat, hmat'⟩ := reaches_matchBlock c m d3
          have hle4 : (d3.matchBlock c m).inp.length ≤ d3.inp.length :=
            hmat.length_inp_le.trans (congrArg List.length (afterMLen_input c { d3 with cnt := m }).1).le
          have hr4 := ((hr1.trans hlit).trans hr3).trans hmat
          split
          next hp4 => exact (ih hp4 (by omega)).imp_left hr4.trans
          next hp4 => exact ⟨hr4, hmat'.resolve_left hp4⟩
      next hp2 => exact ⟨hr1.trans hlit, hlit'.resolve_left hp2⟩

theorem reaches_run (c : Cfg) (d : Dec) : d.start.Reaches c (d.run c) ∧ (d.run c).Halted c :=
  reaches_loop rfl (Nat.lt_succ_self _)

end Dec
end Sys2Proof.Machine
end

section
/-! PROOFS. A token where it may stand, and the commands of the decoder as byte steps: DEC.START, DEC.RUN and the steps it
stands for, the complement in RLE mode, and a stream that is cut short. -/

namespace Sys2Proof.Machine

open Sys2Proof.Safety

variable {s t : State} {c : Cfg}

/-! ## A token where it may stand -/

/-- A token that is well formed at the decoder's place takes its effect there, and changes the decoder only. -/
theorem exec_of_wellFormed {i : Instr} {k : Slot} (hk : s.dec.phase.slot = some k)
    (hwf : WellFormed { cfg := s.cfg, slot := k, ended := s.dec.inp.isEmpty && s.dec.inEnd } i = true) :
    exec i s = .next (s.setDec (tokenEffect s.cfg i s.dec)) := by
  have hslot : k ≠ .command := tokenCtx_slot_ne_command (tokenCtx_eq_some.mpr ⟨k, hk, rfl⟩)
  rw [exec_eq_runToken hslot hwf, runToken, if_pos ((placed_iff i s).mpr ⟨k, hk, hwf⟩)]

theorem offBytes_eq_zero_iff : c.offBytes = 0 ↔ c.bits = 0 := by
  unfold Cfg.offBytes
  split
  · simp [*]
  · split <;> simp [*]

theorem offBytes_eq_two_iff : c.offBytes = 2 ↔ 8 < c.bits := by
  unfold Cfg.offBytes
  split
  · omega
  · split <;> omega

theorem offBytes_eq_one_iff : c.offBytes = 1 ↔ c.bits ≠ 0 ∧ ¬ 8 < c.bits := by
  have hcases := c.offBytes_cases
  rw [Ne, ← offBytes_eq_zero_iff, ← offBytes_eq_two_iff]
  omega

theorem exec_off0 (hp : s.dec.phase = .offlo) (hb : s.cfg.bits = 0) :
    exec .off0 s = .next (s.setDec ((s.dec.rleSrc s.cfg).copy s.cfg)) :=
  exec_of_wellFormed (k := .offsetField) (by rw [hp]; rfl) (by simp [WellFormed, offBytes_eq_zero_iff.mpr hb])

theorem exec_off1 (hp : s.dec.phase = .offlo) (hb : s.cfg.bits ≠ 0) (hb8 : ¬ 8 < s.cfg.bits) (b0 : Byte) :
    exec (.off1 b0) s = .next (s.setDec ((s.dec.lowOffset b0).finishOffset s.cfg)) :=
  exec_of_wellFormed (k := .offsetField) (by rw [hp]; rfl) (by simp [WellFormed, offBytes_eq_one_iff.mpr ⟨hb, hb8⟩])

theorem exec_off2 (hp : s.dec.phase = .offlo) (hb8 : 8 < s.cfg.bits) (b0 b1 : Byte) :
    exec (.off2 b0 b1) s = .next (s.setDec (((s.dec.lowOffset b0).highOffset b1).finishOffset s.cfg)) :=
  exec_of_wellFormed (k := .offsetField) (by rw [hp]; rfl) (by simp [WellFormed, offBytes_eq_two_iff.mpr hb8])

/-- A literal's token in the form that the limit gives its length (R65, R66, R74). -/
theorem exec_literal (hp : s.dec.phase = .llen) :
    (∀ n : Byte, s.cfg.llenLimit ≤ 255 → exec (.litB n) s = .next (s.setDec (s.dec.literal s.cfg n.toNat))) ∧
    (∀ n : BitVec 7, 255 < s.cfg.llenLimit → exec (.litS n) s = .next (s.setDec (s.dec.literal s.cfg n.toNat))) ∧
    (∀ (lo : BitVec 7) (hi : Byte), 255 < s.cfg.llenLimit → exec (.litW lo hi) s =
      .next (s.setDec (Dec.literal s.cfg (128 + lo.toNat + 128 * hi.toNat) { s.dec with lenlo := wideFirst lo }))) ∧
    exec .zlit s = .next (s.setDec (s.dec.literal s.cfg 0)) := by
  have hk : s.dec.phase.slot = some .literalLength := by rw [hp]; rfl
  refine ⟨fun n hl => exec_of_wellFormed hk ?_, fun n hl => exec_of_wellFormed hk ?_, fun lo hi hl => ?_,
    exec_of_wellFormed hk rfl⟩
  · simpa [WellFormed, wideLimit] using hl
  · simpa [WellFormed, wideLimit] using hl
  · rw [← toNat_wideFirst, ← wideLength_eq_add_mul]
    exact exec_of_wellFormed hk (by simpa [WellFormed, wideLimit] using hl)

/-- A match's token in the form that the limit gives its length (R65, R66, R74). -/
theorem exec_match (hp : s.dec.phase = .mlen) :
    (∀ n : Byte, s.cfg.mlenLimit ≤ 255 → exec (.matB n) s = .next (s.setDec (s.dec.matchBlock s.cfg n.toNat))) ∧
    (∀ n : BitVec 7, 255 < s.cfg.mlenLimit → exec (.matS n) s = .next (s.setDec (s.dec.matchBlock s.cfg n.toNat))) ∧
    (∀ (lo : BitVec 7) (hi : Byte), 255 < s.cfg.mlenLimit → exec (.matW lo hi) s =
      .next (s.setDec (Dec.matchBlock s.cfg (128 + lo.toNat + 128 * hi.toNat) { s.dec with lenlo := wideFirst lo }))) ∧
    exec .zmat s = .next (s.setDec (s.dec.matchBlock s.cfg 0)) := by
  have hk : s.dec.phase.slot = some .matchLength := by rw [hp]; rfl
  refine ⟨fun n hl => exec_of_wellFormed hk ?_, fun n hl => exec_of_wellFormed hk ?_, fun lo hi hl => ?_,
    exec_of_wellFormed hk rfl⟩
  · simpa [WellFormed, wideLimit] using hl
  · simpa [WellFormed, wideLimit] using hl
  · rw [← toNat_wideFirst, ← wideLength_eq_add_mul]
    exact exec_of_wellFormed hk (by simpa [WellFormed, wideLimit] using hl)

/-- Settles O48: END may stand at both places, and finishes the run. -/
theorem endOfStreamIsClean : Obligations.EndOfStreamIsClean := by
  intro s hp hinp hend
  rcases hp with hp | hp
  · exact exec_of_wellFormed (k := .literalLength) (by rw [hp]; rfl) (by simp [WellFormed, hinp, hend])
  · exact exec_of_wellFormed (k := .matchLength) (by rw [hp]; rfl) (by simp [WellFormed, hinp, hend])

/-- Settles O45: the three forms are the match block of length 0, which carries no offset field. -/
theorem zeroMatchDoesNothing : Obligations.ZeroMatchDoesNothing := by
  intro s hp hz t
  have hblock : s.setDec (s.dec.matchBlock s.cfg 0) = t := by rw [Dec.matchBlock_zero hz]; rfl
  obtain ⟨hmatB, hmatS, -, hzmat⟩ := exec_match hp
  rw [← hblock]
  exact ⟨hzmat, hmatB 0, hmatS 0⟩

/-! ## A token of the stream as byte steps -/

namespace Dec

variable {d : Dec} {i : Instr} {rest : List Byte}

/-- The token of a length field, behind its own bytes, is the field's byte steps and those of what is done with the
length. -/
theorem LengthRows.reaches_token {limit : Nat} {first second : Phase} {after : Dec → Dec}
    (rows : LengthRows c limit first second after) (hp : d.phase = first) {effect : Nat → Dec → Dec}
    (heffect : ∀ n d, Reaches c (after { d with cnt := n }) (effect n d))
    {byteToken : Byte → Instr} {shortToken : BitVec 7 → Instr} {wideToken : BitVec 7 → Byte → Instr}
    (hbyte : ∀ b, tokenEffect c (byteToken b) = effect b.toNat)
    (hshort : ∀ lo, tokenEffect c (shortToken lo) = effect lo.toNat)
    (hwide : ∀ lo hi d, tokenEffect c (wideToken lo hi) d =
      effect (wideLength (wideFirst lo) hi) { d with lenlo := wideFirst lo })
    (h : decodeLength byteToken shortToken wideToken limit (d.inp.isEmpty && d.inEnd) d.inp = .instr i rest) :
    d.Reaches c (tokenEffect c i { d with inp := rest, ip := d.ip + (d.inp.length - rest.length) }) := by
  rcases decodeLength_cases h with
    ⟨hended, hinp, rfl, rfl⟩ | ⟨hl, b, hinp, rfl⟩ | ⟨hl, b, hb, hinp, rfl⟩ | ⟨hl, b, b2, hb, hinp, rfl⟩
  · have hend : d.inEnd = true := by simpa [hinp] using hended
    have hsame : { d with inp := [], ip := d.ip + (d.inp.length - ([] : List Byte).length) } = d := by
      rw [← hinp, Nat.sub_self, Nat.add_zero]
    rw [hsame]
    exact reaches_of_byteStep_eq ((rows.firstByte d hp).trans (onByte_eof hinp hend))
  · have hlimit : limit < 256 := by simpa [wideLimit, Nat.lt_succ_iff] using hl
    have hlen := rows.reaches_length hp (getLen_oneByte hinp (.inl hlimit))
    rw [hbyte, show d.inp.length - rest.length = 1 by simp [hinp]]
    exact hlen.trans (heffect _ _)
  · have hlen := rows.reaches_length hp (getLen_oneByte hinp (.inr hb))
    rw [hshort, show d.inp.length - rest.length = 1 by simp [hinp], BitVec.toNat_setWidth, Nat.mod_eq_of_lt hb]
    exact hlen.trans (heffect _ _)
  · have hlimit : 255 < limit := by simpa [wideLimit] using hl
    have hlen := rows.reaches_length hp (getLen_twoBytes hinp (by omega))
    rw [hwide, show d.inp.length - rest.length = 1 + 1 by simp [hinp]; omega, wideFirst_lowSeven hb]
    exact hlen.trans (heffect _ _)

/-- The token of an offset field, behind its own bytes, is the field's byte steps and those of the copy. -/
theorem reaches_offsetToken (hp : d.phase = .offlo) (h : decodeOffset c.offBytes d.inp = .instr i rest) :
    d.Reaches c (tokenEffect c i { d with inp := rest, ip := d.ip + (d.inp.length - rest.length) }) := by
  have hfield : d.Reaches c (d.offsetField c) := by
    have hfield := (reaches_offsetField c d).1
    rwa [← hp] at hfield
  suffices heq : d.offsetField c =
      tokenEffect c i { d with inp := rest, ip := d.ip + (d.inp.length - rest.length) } from heq ▸ hfield
  rcases decodeOffset_cases h with ⟨hn, hinp, rfl⟩ | ⟨hn, b0, hinp, rfl⟩ | ⟨hn0, hn1, b0, b1, hinp, rfl⟩
  · rw [offsetField_rle (offBytes_eq_zero_iff.mp hn), ← hinp, Nat.sub_self]
    rfl
  · obtain ⟨hb, hb8⟩ := offBytes_eq_one_iff.mp hn
    rw [offsetField_oneByte hb hb8 hinp, show d.inp.length - rest.length = 1 by simp [hinp]]
    rfl
  · have hn2 : c.offBytes = 2 := by simpa [hn0, hn1] using c.offBytes_cases
    rw [offsetField_twoBytes (offBytes_eq_two_iff.mp hn2) hinp, show d.inp.length - rest.length = 1 + 1 by simp [hinp]; omega]
    rfl

end Dec

/-- A token that stands at the decoder's place, behind its own bytes, is some number of byte steps (R137, R152). -/
theorem reaches_token {x : Ctx} {i : Instr} {rest : List Byte} (hx : tokenCtx s = some x)
    (hd : decode x s.dec.inp = .instr i rest) : s.dec.Reaches s.cfg (tokenEffect s.cfg i (consume rest s).dec) := by
  obtain ⟨k, hk, rfl⟩ := tokenCtx_eq_some.mp hx
  cases hp : s.dec.phase with
  | llen =>
    obtain rfl : Slot.literalLength = k := by simpa [hp, Phase.slot] using hk
    rw [decode_literalLength rfl] at hd
    exact (Dec.literalLengthRows s.cfg).reaches_token hp (fun n d => (Dec.reaches_literal s.cfg n d).1) (fun _ => rfl)
      (fun _ => rfl) (fun _ _ _ => rfl) hd
  | mlen =>
    obtain rfl : Slot.matchLength = k := by simpa [hp, Phase.slot] using hk
    rw [decode_matchLength rfl] at hd
    exact (Dec.matchLengthRows s.cfg).reaches_token hp (fun n d => (Dec.reaches_matchBlock s.cfg n d).1) (fun _ => rfl)
      (fun _ => rfl) (fun _ _ _ => rfl) hd
  | offlo =>
    obtain rfl : Slot.offsetField = k := by simpa [hp, Phase.slot] using hk
    rw [decode_offsetField rfl] at hd
    exact Dec.reaches_offsetToken hp hd
  | llen2 | lit | mlen2 | offhi | copy | idle | done | err => simp [hp, Phase.slot] at hk

/-- Settles O52: the step is the stream's, which runs a token or makes one byte step. -/
theorem tokenStepIsByteSteps : Obligations.TokenStepIsByteSteps := by
  intro s hno
  have hreach : s.dec.Reaches s.cfg (streamDec s) := by
    unfold streamDec
    cases hf : fetchToken s with
    | none => exact Dec.reaches_of_byteStep_eq rfl
    | some ir =>
      obtain ⟨x, hx, hd⟩ := fetchToken_eq_some.mp hf
      exact reaches_token hx hd
  obtain ⟨k, hk⟩ := hreach
  refine ⟨k, ?_⟩
  rw [step_of_noCommandBegins hno, streamStep_next, ← hk]
  rfl

/-! ## The commands -/

/-- Settles O41: the effect of DEC.START, and of its `CfgError`. -/
theorem startInitialisesDecoder : Obligations.StartInitialisesDecoder := by
  refine ⟨rfl, fun s => ⟨fun hv => ?_, fun hv => ?_⟩⟩
  · exact (execDecStart_next s).trans (by rw [if_neg (by simp [hv])]; rfl)
  · exact (execDecStart_next s).trans (by rw [if_pos hv]; rfl)

theorem exec_decRun_of_valid (hv : s.cfg.valid = true) : exec .decRun s = .next (s.setDec (s.dec.run s.cfg)) :=
  (execDecRun_next s).trans (by rw [if_neg (by simp [hv])])

theorem exec_decRun_setDec (hv : s.cfg.valid = true) (d : Dec) :
    exec .decRun (s.setDec d) = .next (s.setDec (d.run s.cfg)) :=
  exec_decRun_of_valid (s := s.setDec d) hv

theorem exec_decStep_of_valid (hv : s.cfg.valid = true) :
    exec .decStep s = .next (s.setDec (if s.dec.status.state = .err then s.dec else s.dec.byteStep s.cfg)) :=
  (execDecStep_next s).trans (by rw [if_neg (c := s.cfg.valid = false) (by simp [hv])])

/-! ## The run and the steps -/

/-- In a sound decoder STATE is ERR in phase ERR only, where the byte step changes nothing either. -/
theorem exec_decStep_of_sound (hv : s.cfg.valid = true) (hs : s.dec.Sound s.cfg) :
    exec .decStep s = .next (s.setDec (s.dec.byteStep s.cfg)) := by
  rw [exec_decStep_of_valid hv]
  split
  next herr =>
    have hp : s.dec.phase.unitState = .err := ((phaseAgrees_iff s.dec).mp hs.phase).symm.trans herr
    rw [Dec.byteStep_of_not_busy (by simp [hp])]
  next => rfl

theorem decSteps_of_sound (hv : s.cfg.valid = true) (hs : s.dec.Sound s.cfg) (k : Nat) :
    decSteps k s = some (s.setDec (byteSteps s.cfg k s.dec)) := by
  induction k generalizing s with
  | zero => rfl
  | succ k ih =>
    rw [decSteps, exec_decStep_of_sound hv hs]
    exact ih hv hs.byteStep

/-- Settles O50: the run is the byte steps from its start to where they halt. -/
theorem runIsStartThenSteps : Obligations.RunIsStartThenSteps := by
  intro s hv
  obtain ⟨⟨k, hk⟩, hhalt⟩ := Dec.reaches_run s.cfg s.dec
  have hsteps := decSteps_of_sound (s := s.setDec s.dec.start) hv (Dec.sound_start s.dec) k
  refine ⟨s.setDec s.dec.start, s.setDec (s.dec.run s.cfg), k, ?_, ?_, exec_decRun_of_valid hv, ?_, fun hend => ?_⟩
  · exact (execDecStart_next s).trans (by rw [if_neg (by simp [hv])])
  · exact hsteps.trans (congrArg (fun d => some (s.setDec d)) hk)
  · rw [exec_decStep_of_sound (s := s.setDec (s.dec.run s.cfg)) hv (Dec.sound_run s.dec)]
    exact congrArg (fun d => (.next (s.setDec d) : Host.Outcome State Fault Refusal)) hhalt
  · obtain ⟨-, -, houtcome⟩ := Dec.ended_run (c := s.cfg) hend
    exact houtcome.imp And.left And.left

/-! ## The complement in RLE mode -/

namespace Dec

variable {d : Dec}

/-- A copy reads no configuration but the size of the ring. -/
theorem copy_withComplement (b : Bool) (d : Dec) : d.copy { c with exorOffset := b } = d.copy c := by
  have hloop : ∀ (n : Nat) (d : Dec), d.copyLoop { c with exorOffset := b } n = d.copyLoop c n := by
    intro n
    induction n with
    | zero => exact fun d => rfl
    | succ n ih => exact fun d => ih (d.copyByte c)
  exact hloop d.cnt d

/-- The complement is in no row of R152 that a decoder in RLE mode comes to (R144). -/
theorem byteStep_withComplement (hb : c.bits = 0) (hoff : d.phase ≠ .offhi) (b : Bool) :
    d.byteStep { c with exorOffset := b } = d.byteStep c := by
  cases hp : d.phase
  case offhi => exact absurd hp hoff
  case offlo =>
    rw [byteStep_offlo_rle hp hb, byteStep_offlo_rle (c := { c with exorOffset := b }) hp hb]
    rfl
  case llen | llen2 | idle | done | err => rw [Dec.byteStep, Dec.byteStep, hp]
  case lit | mlen | mlen2 | copy =>
    rw [Dec.byteStep, Dec.byteStep, hp]
    rfl

theorem Sound.phase_ne_offhi (h : d.Sound c) (hb : c.bits = 0) : d.phase ≠ .offhi := fun hp => by
  have hwide : 8 < c.bits := h.offsetPhase.2 hp
  omega

theorem run_withComplement (hb : c.bits = 0) (b : Bool) (d : Dec) : d.run { c with exorOffset := b } = d.run c := by
  obtain ⟨hreach, hhalt⟩ := reaches_run { c with exorOffset := b } d
  have hboth : Sound c (d.run { c with exorOffset := b }) ∧ d.start.Reaches c (d.run { c with exorOffset := b }) := by
    refine hreach.invariant (P := fun x => Sound c x ∧ d.start.Reaches c x) (fun x hx => ?_) ⟨sound_start d, .refl _⟩
    obtain ⟨hsound, hx⟩ := hx
    rw [byteStep_withComplement hb (hsound.phase_ne_offhi hb)]
    exact ⟨hsound.byteStep, hx.trans (reaches_of_byteStep_eq rfl)⟩
  obtain ⟨hsound, hreach'⟩ := hboth
  have hhalt' : Halted c (d.run { c with exorOffset := b }) :=
    (byteStep_withComplement hb (hsound.phase_ne_offhi hb) b).symm.trans hhalt
  obtain ⟨hrun, hrun'⟩ := reaches_run c d
  exact hreach'.halted_unique hhalt' hrun hrun'

end Dec

/-- Settles O57: the run and the byte step do not come to the complement, and OFF.0 does not apply it. -/
theorem complementIsVoidInRleMode : Obligations.ComplementIsVoidInRleMode := by
  intro s b hb s'
  refine ⟨?_, fun hoff => ?_, fun hp => ?_⟩
  · refine ⟨_, execDecRun_next s, (execDecRun_next s').trans ?_⟩
    rw [show s'.dec.run s'.cfg = s.dec.run s.cfg from Dec.run_withComplement hb b s.dec]
    rfl
  · have hphase : s.dec.phase ≠ .offhi := fun hp => by have := hoff hp; omega
    refine ⟨_, execDecStep_next s, (execDecStep_next s').trans ?_⟩
    rw [show s'.dec.byteStep s'.cfg = s.dec.byteStep s.cfg from Dec.byteStep_withComplement hb hphase b]
    rfl
  · have hoff : ((s.dec.rleSrc s.cfg).copy s.cfg).off = 0 := by
      obtain ⟨-, -, hoff, -⟩ := Dec.copyLoop_frame s.cfg (s.dec.rleSrc s.cfg).cnt (s.dec.rleSrc s.cfg)
      exact hoff
    refine ⟨_, exec_off0 hp hb, (exec_off0 (s := s') hp hb).trans ?_, hoff⟩
    rw [show (s'.dec.rleSrc s'.cfg).copy s'.cfg = (s.dec.rleSrc s.cfg).copy s.cfg from
      Dec.copy_withComplement b (s.dec.rleSrc s.cfg)]
    rfl

/-! ## A stream cut short -/

namespace Dec

variable {d e : Dec} {tail : List Byte}

/-- The decoder with more bytes in `IN`. -/
def withMore (tail : List Byte) (d : Dec) : Dec := { d with inp := d.inp ++ tail }

/-- What is output stays output. -/
theorem Reaches.out_prefix (h : d.Reaches c e) : d.out <+: e.out := by
  refine h.invariant (P := fun x => d.out <+: x.out) (fun x hx => ?_) (List.prefix_refl _)
  obtain ⟨xs, hout, -⟩ := (emits_byteStep (c := c) x).out_pos
  exact hx.trans ⟨xs, hout.symm⟩

/-- A row that takes a byte does the same with more bytes behind it; without a byte the shorter stream halts. -/
theorem onByte_withMore {atByte : Byte → Dec → Dec} {atEnd atEnd' : Dec}
    (hrow : e.byteStep c = e.onByte atByte atEnd)
    (hrow' : (e.withMore tail).byteStep c = (e.withMore tail).onByte atByte atEnd')
    (hbyte : ∀ b d, atByte b (withMore tail d) = withMore tail (atByte b d)) (hend : atEnd.Halted c)
    (hout : atEnd.out = e.out) :
    (e.withMore tail).byteStep c = (e.byteStep c).withMore tail ∨
    ((e.byteStep c).Halted c ∧ (e.byteStep c).out = e.out) := by
  rcases inByte_cases e with ⟨b, rest, hinp, -⟩ | ⟨hinp, he, -⟩ | ⟨hinp, he, -⟩
  · have hinp' : (e.withMore tail).inp = b :: (rest ++ tail) := congrArg (· ++ tail) hinp
    rw [hrow, hrow', onByte_byte hinp, onByte_byte hinp']
    exact .inl (hbyte b { e with inp := rest, ip := e.ip + 1 })
  · rw [hrow, onByte_eof hinp he]
    exact .inr ⟨hend, hout⟩
  · have hwait : e.byteStep c = e := hrow.trans (onByte_wait hinp he)
    rw [hwait]
    exact .inr ⟨hwait, rfl⟩

theorem afterMLen_withMore (d : Dec) : (d.withMore tail).afterMLen c = (d.afterMLen c).withMore tail := by
  show (if d.cnt = 0 ∧ c.zeroOffset = false then _ else if c.bits = 0 then _ else _) = withMore tail (d.afterMLen c)
  unfold Dec.afterMLen
  split
  · rfl
  · split <;> rfl

/-- A byte step is the same with more bytes in `IN`, unless the shorter stream has ended, or has to wait (R153). -/
theorem byteStep_withMore (c : Cfg) (e : Dec) (tail : List Byte) :
    (e.withMore tail).byteStep c = (e.byteStep c).withMore tail ∨
    ((e.byteStep c).Halted c ∧ (e.byteStep c).out = e.out) := by
  cases hp : e.phase
  case llen =>
    refine onByte_withMore (byteStep_llen hp) (byteStep_llen hp) (fun b d => ?_) (halted_finish e) rfl
    split <;> rfl
  case llen2 =>
    exact onByte_withMore (byteStep_llen2 hp) (byteStep_llen2 hp) (fun b d => rfl) (halted_raiseTruncated _ e) rfl
  case lit =>
    refine onByte_withMore (byteStep_lit hp) (byteStep_lit hp) (fun b d => ?_) (halted_raiseTruncated _ e) rfl
    show (if d.cnt - 1 = 0 then _ else _) = withMore tail (if d.cnt - 1 = 0 then _ else _)
    split <;> rfl
  case mlen =>
    refine onByte_withMore (byteStep_mlen hp) (byteStep_mlen hp) (fun b d => ?_) (halted_finish e) rfl
    split
    · rfl
    · exact afterMLen_withMore { d with cnt := b.toNat }
  case mlen2 =>
    exact onByte_withMore (byteStep_mlen2 hp) (byteStep_mlen2 hp)
      (fun b d => afterMLen_withMore { d with cnt := wideLength d.lenlo b }) (halted_raiseTruncated _ e) rfl
  case offlo =>
    by_cases hb : c.bits = 0
    · rw [byteStep_offlo_rle hp hb, byteStep_offlo_rle (d := e.withMore tail) hp hb]
      exact .inl rfl
    · refine onByte_withMore (byteStep_offlo hp hb) (byteStep_offlo hp hb) (fun b d => ?_) (halted_raiseTruncated _ e) rfl
      split <;> rfl
  case offhi =>
    exact onByte_withMore (byteStep_offhi hp) (byteStep_offhi hp) (fun b d => rfl) (halted_raiseTruncated _ e) rfl
  case copy =>
    rw [byteStep_copy hp, byteStep_copy (d := e.withMore tail) hp]
    show (if e.cnt - 1 = 0 then _ else _) = _ ∨ _
    split <;> exact .inl rfl
  case idle | done | err =>
    have hhalt : e.byteStep c = e := byteStep_of_not_busy (by simp [hp, Phase.unitState])
    rw [hhalt]
    exact .inr ⟨hhalt, rfl⟩

/-- Along any number of byte steps the decoder on the shorter stream goes with the one on the longer, or has halted with an
output that the other's begins with. -/
theorem byteSteps_withMore (c : Cfg) (tail : List Byte) (k : Nat) (e : Dec) :
    byteSteps c k (e.withMore tail) = (byteSteps c k e).withMore tail ∨
    ((byteSteps c k e).out <+: (byteSteps c k (e.withMore tail)).out) := by
  induction k generalizing e with
  | zero => exact .inl rfl
  | succ k ih =>
    rcases byteStep_withMore c e tail with heq | ⟨hhalt, hout⟩
    · rw [byteSteps, byteSteps, heq]
      exact ih (e.byteStep c)
    · have hstay : byteSteps c (k + 1) e = e.byteStep c := by
        rw [byteSteps, byteSteps_eq_iterate]
        exact Function.iterate_fixed hhalt k
      rw [hstay, hout]
      exact .inr (Reaches.out_prefix (c := c) (d := e.withMore tail) ⟨k + 1, rfl⟩)

theorem run_out_prefix (c : Cfg) (tail : List Byte) (d : Dec) : (d.run c).out <+: ((d.withMore tail).run c).out := by
  obtain ⟨hreach, hhalt⟩ := reaches_run c d
  obtain ⟨hreach', hhalt'⟩ := reaches_run c (d.withMore tail)
  obtain ⟨j, hj⟩ := hreach.eventually hhalt
  obtain ⟨k, hk⟩ := hreach'.eventually hhalt'
  have hcut := byteSteps_withMore c tail (j + k) d.start
  rw [hj (j + k) (by omega), show withMore tail d.start = (d.withMore tail).start from rfl, hk (j + k) (by omega)] at hcut
  rcases hcut with heq | hprefix
  · rw [heq]
    exact List.prefix_refl _
  · exact hprefix

end Dec

/-- Settles O59: the stream cut short, and the same with the rest of it behind. -/
theorem cutStreamGivesPrefix : Obligations.CutStreamGivesPrefix := by
  intro s t u bytes k hv ht hu
  rw [exec_decRun_setDec hv] at ht hu
  cases ht
  cases hu
  have hprefix := Dec.run_out_prefix s.cfg (bytes.drop k) (fedWith (bytes.take k) s.dec)
  rwa [show Dec.withMore (bytes.drop k) (fedWith (bytes.take k) s.dec) = fedWith bytes s.dec by
    simp [Dec.withMore, fedWith]] at hprefix

end Sys2Proof.Machine
end

section
/-! PROOFS. What a literal and a copy output and leave in the ring: the bytes of a literal come from `IN`, those of a copy from
the ring as it is while it is written. -/

namespace Sys2Proof.Machine

open Sys2Proof.Safety

variable {c : Cfg} {ring : Memory} {pos src n : Nat} {xs : List Byte}

/-! ## A run of bytes into the ring -/

/-- The ring behind the writes of some bytes, the first at `pos` (R43). -/
def writeRun (c : Cfg) (ring : Memory) (pos : Nat) : List Byte → Memory
  | [] => ring
  | x :: xs => writeRun c (SMap.put ring (c.ringIndex pos) x) (pos + 1) xs

/-- The last `mask + 1` bytes written are readable, and every index that was not written to is as it was. -/
theorem ringWritten_writeRun (c : Cfg) (ring : Memory) (pos : Nat) (xs : List Byte) :
    RingWritten c ring (writeRun c ring pos xs) pos xs := by
  induction xs generalizing ring pos with
  | nil => exact ⟨fun j hj => absurd hj (Nat.not_lt_zero j), fun _ _ => rfl⟩
  | cons x xs ih =>
    obtain ⟨hread, hframe⟩ := ih (SMap.put ring (c.ringIndex pos) x) (pos + 1)
    have hnext (j : Nat) : pos + 1 + j = pos + (j + 1) := by omega
    refine ⟨fun j hj hlast => ?_, fun a ha => ?_⟩
    · rw [List.length_cons] at hj hlast
      cases j with
      | zero =>
        refine (hframe _ fun i hi => ?_).trans ?_
        · exact mod_ne_mod_of_sub_lt (by omega) (by omega)
        · rw [Nat.add_zero, ← c.ringIndex_eq_mod, SMap.get?_put_self]
          rfl
      | succ j =>
        have h := hread j (by omega) (by omega)
        rwa [hnext] at h
    · refine (hframe a fun i hi => ?_).trans (SMap.get?_put_other _ _ ?_)
      · rw [hnext]
        exact ha (i + 1) (Nat.succ_lt_succ hi)
      · rw [c.ringIndex_eq_mod]
        exact ha 0 (Nat.succ_pos _)

/-! ## The bytes of a copy -/

/-- The bytes a copy outputs: each is read from the ring behind the writes of those before it (R147). -/
def copyBytes (c : Cfg) : Nat → Memory → Nat → BitVec 16 → List Byte
  | 0, _, _, _ => []
  | n + 1, ring, pos, src =>
    ringByte c ring src.toNat ::
      copyBytes c n (SMap.put ring (c.ringIndex pos) (ringByte c ring src.toNat)) (pos + 1) (src + 1)

@[simp] theorem length_copyBytes (c : Cfg) (n : Nat) (ring : Memory) (pos : Nat) (src : BitVec 16) :
    (copyBytes c n ring pos src).length = n := by
  induction n generalizing ring pos src with
  | zero => rfl
  | succ n ih => exact congrArg (· + 1) (ih _ _ _)

/-- Byte `j` of a copy is read behind the writes of the `j` bytes before it. -/
theorem copyBytes_getElem? (c : Cfg) (ring : Memory) (pos : Nat) (src : BitVec 16) {j : Nat} (hj : j < n) :
    (copyBytes c n ring pos src)[j]? =
      some (ringByte c (writeRun c ring pos ((copyBytes c n ring pos src).take j)) (src + BitVec.ofNat 16 j).toNat) := by
  induction n generalizing ring pos src j with
  | zero => omega
  | succ n ih =>
    cases j with
    | zero => simp [copyBytes, writeRun]
    | succ j =>
      have hsrc : src + 1 + BitVec.ofNat 16 j = src + BitVec.ofNat 16 (j + 1) := by
        rw [BitVec.ofNat_add, BitVec.add_assoc, BitVec.add_comm 1]
        rfl
      have h := ih (SMap.put ring (c.ringIndex pos) (ringByte c ring src.toNat)) (pos + 1) (src + 1) (j := j) (by omega)
      rwa [hsrc] at h

/-- The source distance as the indexes have it: from 1 to the whole ring (R147). -/
theorem copyDistance_spec (hsrc : src ≤ c.mask) :
    1 ≤ copyDistance c pos src ∧ copyDistance c pos src ≤ c.mask + 1 ∧
    (src + copyDistance c pos src) % (c.mask + 1) = pos % (c.mask + 1) := by
  unfold copyDistance
  rcases c.mask_cases with hm | hm <;> rw [hm] at hsrc ⊢ <;> split <;> omega

/-- The source register wraps at 16 bits, the ring index below that. -/
theorem ringIndex_source (c : Cfg) (src j : Nat) :
    c.ringIndex (BitVec.ofNat 16 src + BitVec.ofNat 16 j).toNat = (src + j) % (c.mask + 1) := by
  rw [c.ringIndex_eq_mod, ← BitVec.ofNat_add, BitVec.toNat_ofNat]
  rcases c.mask_cases with hm | hm <;> rw [hm] <;> omega

theorem ringByte_congr {ring' : Memory} {i i' : Nat} (hi : c.ringIndex i = c.ringIndex i')
    (h : SMap.get? ring (c.ringIndex i') = SMap.get? ring' (c.ringIndex i')) :
    ringByte c ring i = ringByte c ring' i' := by
  rw [ringByte, ringByte, hi, h]

/-- A byte of a copy is the ring's as it was, or, from the source distance on, the byte copied that distance before
(R147). -/
theorem copiedFrom_copyBytes (c : Cfg) (ring : Memory) (pos n : Nat) (hsrc : src ≤ c.mask) :
    CopiedFrom c ring pos src n (copyBytes c n ring pos (BitVec.ofNat 16 src)) := by
  refine ⟨length_copyBytes _ _ _ _ _, fun j hj => ?_⟩
  obtain ⟨hd1, hdm, hd⟩ := copyDistance_spec (pos := pos) hsrc
  have hread := copyBytes_getElem? c ring pos (BitVec.ofNat 16 src) hj
  have hlen := length_copyBytes c n ring pos (BitVec.ofNat 16 src)
  generalize copyBytes c n ring pos (BitVec.ofNat 16 src) = xs at hread hlen ⊢
  generalize copyDistance c pos src = dist at hd1 hdm hd ⊢
  obtain ⟨hlast, hframe⟩ := ringWritten_writeRun c ring pos (xs.take j)
  rw [List.length_take_of_le (by omega)] at hlast hframe
  rw [hread]
  split
  next hnear =>
    refine congrArg some (ringByte_congr (by rw [ringIndex_source, c.ringIndex_eq_mod]) ?_)
    rw [c.ringIndex_eq_mod]
    refine hframe _ fun i hi => ?_
    rcases c.mask_cases with hm | hm <;> rw [hm] at hdm hd ⊢ <;> omega
  next hfar =>
    have hindex : (pos + (j - dist)) % (c.mask + 1) = (src + j) % (c.mask + 1) := by
      rcases c.mask_cases with hm | hm <;> rw [hm] at hdm hd ⊢ <;> omega
    have hback := hlast (j - dist) (by omega) (by omega)
    rw [hindex, List.getElem?_take_of_lt (by omega), List.getElem?_eq_getElem (by omega)] at hback
    rw [ringByte, ringIndex_source, hback, List.getElem?_eq_getElem (by omega)]
    rfl

/-! ## The loops in closed form -/

namespace Dec

variable {d : Dec}

/-- A literal whose bytes are all in `IN` (R139). -/
theorem literalLoop_of_le (h : n ≤ d.inp.length) :
    d.literalLoop c n = { d with
      phase := .mlen, cnt := d.cnt - n, pos := d.pos + n, ip := d.ip + n, inp := d.inp.drop n
      out := d.out ++ d.inp.take n, ring := writeRun c d.ring d.pos (d.inp.take n) } := by
  induction n generalizing d with
  | zero => simp [writeRun]
  | succ n ih =>
    rcases hinp : d.inp with _ | ⟨b, rest⟩
    · simp [hinp] at h
    · have hrest : n ≤ rest.length := by simpa [hinp] using h
      rw [literalLoop_cons c n hinp, ih (by simpa using hrest)]
      simp [writeRun, Nat.sub_sub, Nat.add_assoc, Nat.add_comm 1]

/-- A literal that the end of `IN` cuts short, behind the bytes that were there (R139, R149). -/
theorem literalLoop_of_lt (h : d.inp.length < n) (hend : d.inEnd = true) :
    d.literalLoop c n = Dec.raiseTruncated .literalByte { d with
      cnt := d.cnt - d.inp.length, pos := d.pos + d.inp.length, ip := d.ip + d.inp.length, inp := []
      out := d.out ++ d.inp, ring := writeRun c d.ring d.pos d.inp } := by
  induction n generalizing d with
  | zero => omega
  | succ n ih =>
    rcases hinp : d.inp with _ | ⟨b, rest⟩
    · rw [literalLoop_eof c n hinp hend]
      simp [Dec.raiseTruncated, writeRun, hinp]
    · have hrest : rest.length < n := by simpa [hinp] using h
      rw [literalLoop_cons c n hinp, ih (by simpa using hrest) (by simpa using hend)]
      simp [writeRun, Nat.sub_sub, Nat.add_assoc, Nat.add_comm 1]

/-- A copy (R147). -/
theorem copyLoop_eq (c : Cfg) (n : Nat) (d : Dec) :
    d.copyLoop c n = { d with
      phase := .llen, cnt := d.cnt - n, src := d.src + BitVec.ofNat 16 n, pos := d.pos + n
      out := d.out ++ copyBytes c n d.ring d.pos d.src
      ring := writeRun c d.ring d.pos (copyBytes c n d.ring d.pos d.src) } := by
  induction n generalizing d with
  | zero => simp [copyBytes, writeRun]
  | succ n ih =>
    have hsrc : d.src + 1 + BitVec.ofNat 16 n = d.src + BitVec.ofNat 16 (n + 1) := by
      rw [BitVec.ofNat_add, BitVec.add_assoc, BitVec.add_comm 1]
      rfl
    rw [copyLoop_succ, ih]
    simp [copyBytes, writeRun, Nat.sub_sub, Nat.add_assoc, Nat.add_comm 1]
    exact hsrc

/-- A copy from a source index within the ring. -/
theorem exists_copy (h : d.src = BitVec.ofNat 16 src) (hsrc : src ≤ c.mask) :
    ∃ xs ring', d.copy c = { d with
        phase := .llen, cnt := 0, src := BitVec.ofNat 16 (src + d.cnt), pos := d.pos + d.cnt, out := d.out ++ xs
        ring := ring' } ∧
      CopiedFrom c d.ring d.pos src d.cnt xs ∧ RingWritten c d.ring ring' d.pos xs := by
  refine ⟨copyBytes c d.cnt d.ring d.pos d.src, _, ?_, h ▸ copiedFrom_copyBytes c d.ring d.pos d.cnt hsrc,
    ringWritten_writeRun _ _ _ _⟩
  rw [Dec.copy, copyLoop_eq, Nat.sub_self, BitVec.ofNat_add, ← h]

end Dec

/-! ## Literals -/

/-- Settles O42: each form is the loop of R139 over bytes that are there. -/
theorem literalBlockIsCopiedOut : Obligations.LiteralBlockIsCopiedOut := by
  intro s hp result
  obtain ⟨hlitB, hlitS, hlitW, hzlit⟩ := exec_literal hp
  have hblock (lenlo : Byte) (n : Nat) (hn : n ≤ s.dec.inp.length) :
      s.setDec (Dec.literal s.cfg n { s.dec with lenlo := lenlo }) =
        result lenlo n (writeRun s.cfg s.dec.ring s.dec.pos (s.dec.inp.take n)) := by
    rw [Dec.literal, Dec.literalLoop_of_le (by exact hn), Nat.sub_self]
    rfl
  have hwritten (n : Nat) := ringWritten_writeRun s.cfg s.dec.ring s.dec.pos (s.dec.inp.take n)
  refine ⟨fun n hl hn => ⟨_, ?_, hwritten n.toNat⟩, fun n hl hn => ⟨_, ?_, hwritten n.toNat⟩,
    fun lo hi hl hn => ⟨_, ?_, hwritten _⟩, ?_⟩
  · rw [hlitB n hl, ← hblock s.dec.lenlo n.toNat hn]
  · rw [hlitS n hl, ← hblock s.dec.lenlo n.toNat hn]
  · rw [hlitW lo hi hl, ← hblock (0x80 ||| lo.setWidth 8) _ hn]
    rfl
  · exact hzlit.trans (congrArg Host.Outcome.next (hblock s.dec.lenlo 0 (Nat.zero_le _)))

/-- Settles O43: each form is the loop of R139 over the bytes there are, and then their end. -/
theorem cutLiteralIsTruncated : Obligations.CutLiteralIsTruncated := by
  intro s hp hend result
  obtain ⟨hlitB, hlitS, hlitW, -⟩ := exec_literal hp
  have hblock (lenlo : Byte) (n : Nat) (hn : s.dec.inp.length < n) :
      s.setDec (Dec.literal s.cfg n { s.dec with lenlo := lenlo }) =
        result lenlo n (writeRun s.cfg s.dec.ring s.dec.pos s.dec.inp) := by
    rw [Dec.literal, Dec.literalLoop_of_lt (by exact hn) (by exact hend)]
    rfl
  have hwritten := ringWritten_writeRun s.cfg s.dec.ring s.dec.pos s.dec.inp
  refine ⟨fun n hl hn => ⟨_, ?_, hwritten⟩, fun n hl hn => ⟨_, ?_, hwritten⟩, fun lo hi hl hn => ⟨_, ?_, hwritten⟩⟩
  · rw [hlitB n hl, ← hblock s.dec.lenlo n.toNat hn]
  · rw [hlitS n hl, ← hblock s.dec.lenlo n.toNat hn]
  · rw [hlitW lo hi hl, ← hblock (0x80 ||| lo.setWidth 8) _ hn]
    rfl

end Sys2Proof.Machine
end

section
/-! PROOFS. What an offset field says (R141 to R146), and the match blocks and offset tokens that carry one. -/

namespace Sys2Proof.Machine

open Sys2Proof.Safety

variable {s : State} {c : Cfg} {off : BitVec 16} {b0 b1 : Byte} {rest : List Byte}

/-! ## The offset and its source -/

theorem sourceIndex_eq (c : Cfg) (pos : Nat) (off : BitVec 16) :
    c.sourceIndex pos off = BitVec.ofNat 16 (sourceOf c pos off) := by
  have hmod (i : Nat) : i &&& c.mask = i % (c.mask + 1) := c.ringIndex_eq_mod i
  unfold Cfg.sourceIndex sourceOf
  simp only [hmod]
  split <;> rfl

theorem sourceOf_le_mask (c : Cfg) (pos : Nat) (off : BitVec 16) : sourceOf c pos off ≤ c.mask := by
  unfold sourceOf
  split <;> exact Nat.le_of_lt_succ (Nat.mod_lt _ (Nat.succ_pos _))

/-- Under `BITS_MOFF ≤ 8` the complement keeps the high half of the offset 0 (R143). -/
theorem complement_setWidth (hb8 : ¬ 8 < c.bits) (b : Byte) :
    c.complement (b.setWidth 16) = (0x00 : Byte) ++ (~~~b : Byte) := by
  have hmask : c.mask = 0xFF := if_neg hb8
  rw [Cfg.complement, hmask]
  revert b
  decide

theorem complement_eq_not (hb8 : 8 < c.bits) (off : BitVec 16) : c.complement off = ~~~off := by
  have hmask : c.mask = 0xFFFF := if_pos hb8
  rw [Cfg.complement, hmask]
  exact BitVec.xor_allOnes

theorem setWidth_eq_zero_append (b : Byte) : b.setWidth 16 = (0x00 : Byte) ++ b := by
  revert b
  decide

namespace Dec

variable {d : Dec}

theorem rleSrc_eq (c : Cfg) (d : Dec) :
    d.rleSrc c = { d with off := 0, src := BitVec.ofNat 16 (sourceOf c d.pos 0) } := by
  rw [Dec.rleSrc, sourceIndex_eq]

theorem computeSrc_eq (h : (if c.exorOffset then c.complement d.off else d.off) = off) :
    d.computeSrc c = { d with off := off, src := BitVec.ofNat 16 (sourceOf c d.pos off) } := by
  subst h
  rw [← sourceIndex_eq]
  rfl

/-- One offset byte. -/
theorem computeSrc_lowOffset (hb8 : ¬ 8 < c.bits) (b0 : Byte) (d : Dec) :
    let off : BitVec 16 := (0x00 : Byte) ++ (if c.exorOffset then ~~~b0 else b0)
    (d.lowOffset b0).computeSrc c = { d with off := off, src := BitVec.ofNat 16 (sourceOf c d.pos off) } := by
  refine computeSrc_eq ?_
  rw [show (d.lowOffset b0).off = b0.setWidth 16 from rfl, complement_setWidth hb8, setWidth_eq_zero_append]
  split <;> rfl

/-- The second of two offset bytes, behind any first. -/
theorem computeSrc_highOffset (hb8 : 8 < c.bits) (b1 : Byte) (d : Dec) :
    let read : BitVec 16 := d.off ||| (b1 ++ (0x00 : Byte))
    let off : BitVec 16 := if c.exorOffset then ~~~read else read
    (d.highOffset b1).computeSrc c = { d with off := off, src := BitVec.ofNat 16 (sourceOf c d.pos off) } := by
  refine computeSrc_eq ?_
  have hshift : b1.setWidth 16 <<< 8 = b1 ++ (0x00 : Byte) := by
    revert b1
    decide
  rw [show (d.highOffset b1).off = d.off ||| (b1.setWidth 16 <<< 8) from rfl, hshift, complement_eq_not hb8]

/-- Two offset bytes, the low one first (R46). -/
theorem computeSrc_twoBytes (hb8 : 8 < c.bits) (b0 b1 : Byte) (d : Dec) :
    let off : BitVec 16 := if c.exorOffset then ~~~(b1 ++ b0) else b1 ++ b0
    ((d.lowOffset b0).highOffset b1).computeSrc c =
      { d with off := off, src := BitVec.ofNat 16 (sourceOf c d.pos off) } := by
  have hread : b0.setWidth 16 ||| (b1 ++ (0x00 : Byte)) = b1 ++ b0 := by
    rw [setWidth_eq_zero_append, BitVec.or_append]
    exact congrArg₂ _ BitVec.zero_or BitVec.or_zero
  have hcompute := computeSrc_highOffset hb8 b1 (d.lowOffset b0)
  rw [show (d.lowOffset b0).off = b0.setWidth 16 from rfl, hread] at hcompute
  exact hcompute

end Dec

/-! ## The field at the head of the stream -/

theorem offsetAhead_rle (hb : c.bits = 0) (inp : List Byte) : offsetAhead c inp = some 0 := if_pos hb

theorem offsetAhead_oneByte (hb : c.bits ≠ 0) (hb8 : ¬ 8 < c.bits) :
    offsetAhead c (b0 :: rest) = some ((0x00 : Byte) ++ (if c.exorOffset then ~~~b0 else b0)) := by
  have hnot : b0.setWidth 16 ^^^ 0x00FF = (0x00 : Byte) ++ (~~~b0 : Byte) := by
    revert b0
    decide
  unfold offsetAhead
  rw [if_neg hb, if_pos (by omega)]
  refine congrArg some ?_
  split
  · exact hnot
  · exact BitVec.xor_zero.trans (setWidth_eq_zero_append b0)

theorem offsetAhead_twoBytes (hb8 : 8 < c.bits) :
    offsetAhead c (b0 :: b1 :: rest) = some (if c.exorOffset then ~~~(b1 ++ b0) else b1 ++ b0) := by
  unfold offsetAhead
  rw [if_neg (by omega), if_neg (by omega)]
  refine congrArg some ?_
  split
  · exact BitVec.xor_allOnes
  · exact BitVec.xor_zero

/-- The field that starts a stream with as many bytes as it takes. -/
theorem exists_offsetAhead {field : List Byte} (h : field.length = c.offBytes) (rest : List Byte) :
    ∃ off, offsetAhead c (field ++ rest) = some off := by
  by_cases hb : c.bits = 0
  · exact ⟨_, offsetAhead_rle hb _⟩
  by_cases hb8 : 8 < c.bits
  · rw [offBytes_eq_two_iff.mpr hb8] at h
    obtain ⟨b0, b1, rfl⟩ := List.length_eq_two.mp h
    exact ⟨_, offsetAhead_twoBytes hb8⟩
  · rw [offBytes_eq_one_iff.mpr ⟨hb, hb8⟩] at h
    obtain ⟨b0, rfl⟩ := List.length_eq_one_iff.mp h
    exact ⟨_, offsetAhead_oneByte hb hb8⟩

/-- A field whose bytes are all there is taken whole, and the copy follows (R141 to R147). -/
theorem Dec.offsetField_of_ahead {d : Dec} (h : offsetAhead c d.inp = some off) :
    d.offsetField c = Dec.copy c { d with
      inp := d.inp.drop c.offBytes, ip := d.ip + c.offBytes, off := off
      src := BitVec.ofNat 16 (sourceOf c d.pos off) } := by
  by_cases hb : c.bits = 0
  · cases (offsetAhead_rle hb d.inp).symm.trans h
    rw [Dec.offsetField_rle hb, Dec.rleSrc_eq, offBytes_eq_zero_iff.mpr hb]
    rfl
  by_cases hb8 : 8 < c.bits
  · rcases hinp : d.inp with _ | ⟨b0, _ | ⟨b1, rest⟩⟩
    · simp [offsetAhead, hinp, hb, Nat.not_le.mpr hb8] at h
    · simp [offsetAhead, hinp, hb, Nat.not_le.mpr hb8] at h
    · rw [hinp] at h
      cases (offsetAhead_twoBytes hb8).symm.trans h
      rw [Dec.offsetField_twoBytes hb8 hinp, Dec.finishOffset, Dec.computeSrc_twoBytes hb8,
        offBytes_eq_two_iff.mpr hb8]
      rfl
  · rcases hinp : d.inp with _ | ⟨b0, rest⟩
    · simp [offsetAhead, hinp, hb, Nat.not_lt.mp hb8] at h
    · rw [hinp] at h
      cases (offsetAhead_oneByte hb hb8).symm.trans h
      rw [Dec.offsetField_oneByte hb hb8 hinp, Dec.finishOffset, Dec.computeSrc_lowOffset hb8,
        offBytes_eq_one_iff.mpr ⟨hb, hb8⟩]
      rfl

theorem Dec.copy_of_cnt_zero {d : Dec} (h : d.cnt = 0) : d.copy c = { d with phase := .llen } :=
  congrArg (Dec.copyLoop c · d) h

theorem Dec.finishOffset_of_cnt_zero {d : Dec} (h : d.cnt = 0) :
    d.finishOffset c = { d.computeSrc c with phase := .llen } :=
  copy_of_cnt_zero h

/-! ## Match blocks -/

/-- Settles O46: each form is a match block that is due its offset field, and the field is there. -/
theorem matchBlockIsCopied : Obligations.MatchBlockIsCopied := by
  intro s off hp hahead src result copied
  obtain ⟨hmatB, hmatS, hmatW, hzmat⟩ := exec_match hp
  have hfield (lenlo : Byte) (n : Nat) (hdue : 0 < n ∨ s.cfg.zeroOffset = true) :=
    (Dec.matchBlock_of_due (d := { s.dec with lenlo := lenlo }) hdue).trans
      (Dec.offsetField_of_ahead (d := { s.dec with lenlo := lenlo, cnt := n }) hahead)
  have hblock (lenlo : Byte) (n : Nat) (hdue : 0 < n ∨ s.cfg.zeroOffset = true) :
      ∃ xs ring', s.setDec (Dec.matchBlock s.cfg n { s.dec with lenlo := lenlo }) = result lenlo n xs ring' ∧
        copied n xs ring' := by
    obtain ⟨xs, ring', hcopy, hcopied⟩ := Dec.exists_copy (c := s.cfg) (d := { s.dec with
      lenlo := lenlo, cnt := n, inp := s.dec.inp.drop s.cfg.offBytes, ip := s.dec.ip + s.cfg.offBytes, off := off
      src := BitVec.ofNat 16 src }) rfl (sourceOf_le_mask _ _ _)
    exact ⟨xs, ring', congrArg s.setDec ((hfield lenlo n hdue).trans hcopy), hcopied⟩
  refine ⟨fun m hl hdue => ?_, fun m hl hdue => ?_, fun lo hi hl => ?_, fun hz => ?_⟩
  · rw [hmatB m hl]
    obtain ⟨xs, ring', hnext, hcopied⟩ := hblock s.dec.lenlo m.toNat hdue
    exact ⟨xs, ring', congrArg _ hnext, hcopied⟩
  · rw [hmatS m hl]
    obtain ⟨xs, ring', hnext, hcopied⟩ := hblock s.dec.lenlo m.toNat hdue
    exact ⟨xs, ring', congrArg _ hnext, hcopied⟩
  · rw [hmatW lo hi hl]
    obtain ⟨xs, ring', hnext, hcopied⟩ := hblock (0x80 ||| lo.setWidth 8) (128 + lo.toNat + 128 * hi.toNat) (.inl (by omega))
    exact ⟨xs, ring', congrArg _ hnext, hcopied⟩
  · have hblock0 : s.setDec (s.dec.matchBlock s.cfg 0) = result s.dec.lenlo 0 [] s.dec.ring := by
      refine congrArg s.setDec (((hfield s.dec.lenlo 0 (.inr hz)).trans (Dec.copy_of_cnt_zero rfl)).trans ?_)
      rw [List.append_nil]
      rfl
    rw [hzmat, hblock0]

/-- Settles O47: the offset as the token's bytes give it, and the copy from its source. -/
theorem offsetFieldCompletesTheMatch : Obligations.OffsetFieldCompletesTheMatch := by
  intro s hp result copied
  have hcopy (off : BitVec 16) : ∃ xs ring',
      s.setDec (Dec.copy s.cfg { s.dec with off := off, src := BitVec.ofNat 16 (sourceOf s.cfg s.dec.pos off) }) =
        result off xs ring' ∧ copied off xs ring' := by
    obtain ⟨xs, ring', hcopy, hcopied⟩ := Dec.exists_copy (c := s.cfg) (d := { s.dec with
      off := off, src := BitVec.ofNat 16 (sourceOf s.cfg s.dec.pos off) }) rfl (sourceOf_le_mask _ _ _)
    exact ⟨xs, ring', congrArg s.setDec hcopy, hcopied⟩
  refine ⟨fun hb => ?_, fun b0 hb hb8 => ?_, fun b0 b1 hb8 => ?_⟩
  · obtain ⟨xs, ring', hnext, hcopied⟩ := hcopy 0
    rw [exec_off0 hp hb, Dec.rleSrc_eq]
    exact ⟨xs, ring', congrArg _ hnext, hcopied⟩
  · obtain ⟨xs, ring', hnext, hcopied⟩ := hcopy ((0x00 : Byte) ++ (if s.cfg.exorOffset then ~~~b0 else b0))
    rw [exec_off1 hp (Nat.ne_of_gt hb) (Nat.not_lt.mpr hb8), Dec.finishOffset,
      Dec.computeSrc_lowOffset (Nat.not_lt.mpr hb8)]
    exact ⟨xs, ring', congrArg _ hnext, hcopied⟩
  · obtain ⟨xs, ring', hnext, hcopied⟩ := hcopy (if s.cfg.exorOffset then ~~~(b1 ++ b0) else b1 ++ b0)
    rw [exec_off2 hp hb8, Dec.finishOffset, Dec.computeSrc_twoBytes hb8]
    exact ⟨xs, ring', congrArg _ hnext, hcopied⟩

/-- Settles O58: a copy of no bytes leaves the offset and its source, and nothing else of the field's value. -/
theorem zeroMatchOffsetIsIgnored : Obligations.ZeroMatchOffsetIsIgnored := by
  intro s alike
  refine ⟨fun hp hcnt => ⟨fun b0 b0' hb hb8 => ?_, fun b0 b1 b0' b1' hb8 => ?_⟩,
    fun hp hz field field' rest hlen hlen' i hi => ?_⟩
  · have hexec (b : Byte) := (exec_off1 hp (Nat.ne_of_gt hb) (Nat.not_lt.mpr hb8) b).trans
      (congrArg (fun d => Host.Outcome.next (s.setDec d)) (Dec.finishOffset_of_cnt_zero hcnt))
    exact ⟨_, _, hexec b0, hexec b0', rfl, rfl, rfl, rfl, rfl, rfl⟩
  · have hexec (b b' : Byte) := (exec_off2 hp hb8 b b').trans
      (congrArg (fun d => Host.Outcome.next (s.setDec d)) (Dec.finishOffset_of_cnt_zero hcnt))
    exact ⟨_, _, hexec b0 b1, hexec b0' b1', rfl, rfl, rfl, rfl, rfl, rfl⟩
  · have hexec (inp : List Byte) : exec i (s.setDec { s.dec with inp := inp }) =
        .next (s.setDec (Dec.matchBlock s.cfg 0 { s.dec with inp := inp })) := by
      obtain ⟨hmatB, hmatS, -, hzmat⟩ := exec_match (s := s.setDec { s.dec with inp := inp }) hp
      rcases hi with rfl | ⟨rfl, hl⟩ | ⟨rfl, hl⟩
      · exact hzmat
      · exact hmatB 0 hl
      · exact hmatS 0 hl
    have hblock (field : List Byte) (h : field.length = s.cfg.offBytes) : ∃ off,
        exec i (s.setDec { s.dec with inp := field ++ rest }) = .next (s.setDec { s.dec with
          phase := .llen, cnt := 0, inp := rest, ip := s.dec.ip + s.cfg.offBytes, off := off
          src := BitVec.ofNat 16 (sourceOf s.cfg s.dec.pos off) }) := by
      obtain ⟨off, hoff⟩ := exists_offsetAhead h rest
      refine ⟨off, ?_⟩
      rw [hexec, Dec.matchBlock_of_due (.inr hz),
        Dec.offsetField_of_ahead (d := { s.dec with inp := field ++ rest, cnt := 0 }) hoff, Dec.copy_of_cnt_zero rfl,
        ← h, List.drop_left]
    obtain ⟨off, hnext⟩ := hblock field hlen
    obtain ⟨off', hnext'⟩ := hblock field' hlen'
    exact ⟨_, _, hnext, hnext', rfl, rfl, rfl, rfl, rfl, rfl⟩

end Sys2Proof.Machine
end

section
/-! PROOFS. Fields that the end of `IN` cuts short (R138, R141, R149). -/

namespace Sys2Proof.Machine

open Sys2Proof.Safety

variable {s : State} {c : Cfg} {d d' : Dec} {b : Byte}

/-! ## Steps where no whole token stands -/

theorem step_of_no_token (hno : NoCommandBegins s)
    (hcut : ∀ x i rest, tokenCtx s = some x → decode x s.dec.inp ≠ .instr i rest) :
    step s = .next (s.setDec (s.dec.byteStep s.cfg)) := by
  rw [step_of_noCommandBegins hno]
  rcases streamStep_cases s with ⟨i, rest, hf, -⟩ | ⟨-, hs⟩
  · obtain ⟨x, hx, hd⟩ := fetchToken_eq_some.mp hf
    exact absurd hd (hcut x i rest hx)
  · exact hs

/-- The first byte of a field leads to a phase that is no token's place, where the next step is the second byte's. -/
theorem step_step_of_cut_field (hno : NoCommandBegins s)
    (hcut : ∀ x i rest, tokenCtx s = some x → decode x s.dec.inp ≠ .instr i rest)
    (hd : s.dec.byteStep s.cfg = d) (hslot : d.phase.slot = none) (hstatus : d.status = s.dec.status)
    (hd' : d.byteStep s.cfg = d') : ∃ t, step s = .next t ∧ step t = .next (s.setDec d') := by
  subst hd hd'
  refine ⟨_, step_of_no_token hno hcut, step_of_no_token ?_ fun x i rest hx => ?_⟩
  · refine hno.imp_right fun ⟨i, hi, hwait⟩ => ⟨i, hi, ?_⟩
    rwa [mayBegin, show (s.setDec (s.dec.byteStep s.cfg)).dec.status = s.dec.status from hstatus]
  · obtain ⟨k, hk, -⟩ := tokenCtx_eq_some.mp hx
    cases hslot.symm.trans hk

/-- One byte of 128 or more is no token where lengths may take two (R66). -/
theorem decodeLength_cut {byteToken : Byte → Instr} {shortToken : BitVec 7 → Instr} {wideToken : BitVec 7 → Byte → Instr}
    {limit : Nat} {ended : Bool} (hl : 255 < limit) (hb : 128 ≤ b.toNat) (i : Instr) (rest : List Byte) :
    decodeLength byteToken shortToken wideToken limit ended [b] ≠ .instr i rest := by
  intro h
  rcases decodeLength_cases h with ⟨-, hbs, -⟩ | ⟨hl', -⟩ | ⟨-, b', hb', hbs, -⟩ | ⟨-, b', b2, -, hbs, -⟩
  · cases hbs
  · simp [wideLimit, hl] at hl'
  · cases hbs
    omega
  · cases hbs

namespace Dec

/-- The two rows of a length field whose second byte is missing. -/
theorem LengthRows.byteStep_cut {limit : Nat} {first second : Phase} {after : Dec → Dec}
    (rows : LengthRows c limit first second after) (hp : d.phase = first) (hinp : d.inp = [b]) (he : d.inEnd = true)
    (hl : 255 < limit) (hb : 128 ≤ b.toNat) :
    d.byteStep c = { d with inp := [], ip := d.ip + 1, lenlo := b, phase := second } ∧
    Dec.byteStep c { d with inp := [], ip := d.ip + 1, lenlo := b, phase := second } =
      cutAt .secondLengthByte { d with inp := [], ip := d.ip + 1, lenlo := b } :=
  ⟨((rows.firstByte d hp).trans (onByte_byte hinp)).trans (if_pos ⟨hl, hb⟩),
    (rows.secondByte _ rfl).trans (onByte_eof rfl he)⟩

theorem LengthRows.reaches_cut {limit : Nat} {first second : Phase} {after : Dec → Dec}
    (rows : LengthRows c limit first second after) (hp : d.phase = first) (hinp : d.inp = [b]) (he : d.inEnd = true)
    (hl : 255 < limit) (hb : 128 ≤ b.toNat) :
    d.Reaches c (cutAt .secondLengthByte { d with inp := [], ip := d.ip + 1, lenlo := b }) := by
  obtain ⟨hfirst, hsecond⟩ := rows.byteStep_cut hp hinp he hl hb
  exact (reaches_of_byteStep_eq hfirst).trans (reaches_of_byteStep_eq hsecond)

/-- A run is where its byte steps halt. -/
theorem run_eq_of_reaches (h : d.start.Reaches c d') (hd : d'.Halted c) : d.run c = d' := by
  obtain ⟨hreach, hhalt⟩ := reaches_run c d
  exact hreach.halted_unique hhalt h hd

/-- An offset field without its first byte, and one without its second (R141). -/
theorem offsetField_cut (hb : 1 ≤ c.bits) (he : d.inEnd = true) :
    (d.inp = [] → d.offsetField c = cutAt .offsetByte d) ∧
    (∀ b0 : Byte, d.inp = [b0] → 8 < c.bits → d.offsetField c =
      cutAt .offsetByte { d with inp := [], ip := d.ip + 1, off := (0x00 : Byte) ++ b0 }) := by
  refine ⟨fun hinp => offsetField_eof (Nat.ne_of_gt hb) hinp he, fun b0 hinp hb8 => ?_⟩
  rw [offsetField_cut_eof hb8 hinp he, Dec.lowOffset, setWidth_eq_zero_append]
  rfl

/-- The rows of an offset field without its first byte, and of one without its second. -/
theorem byteStep_cut_offset (hp : d.phase = .offlo) (hb : 1 ≤ c.bits) (he : d.inEnd = true) :
    (d.inp = [] → d.byteStep c = cutAt .offsetByte d) ∧
    (∀ b0 : Byte, d.inp = [b0] → 8 < c.bits →
      let d1 : Dec := { d with inp := [], ip := d.ip + 1, off := (0x00 : Byte) ++ b0, phase := .offhi }
      d.byteStep c = d1 ∧ d1.byteStep c = cutAt .offsetByte d1) := by
  have hrow := byteStep_offlo hp (Nat.ne_of_gt hb)
  refine ⟨fun hinp => hrow.trans (onByte_eof hinp he), fun b0 hinp hb8 => ⟨?_, ?_⟩⟩
  · refine (hrow.trans (onByte_byte hinp)).trans ?_
    rw [if_pos hb8, Dec.lowOffset, setWidth_eq_zero_append]
  · exact (byteStep_offhi rfl).trans (onByte_eof rfl he)

end Dec

/-- The place of the next token, by the phase. -/
theorem ctx_of_phase {x : Ctx} {k : Slot} (hk : s.dec.phase.slot = some k) (hx : tokenCtx s = some x) :
    x.slot = k ∧ x.cfg = s.cfg := by
  obtain ⟨k', hk', rfl⟩ := tokenCtx_eq_some.mp hx
  exact ⟨Option.some.inj (hk'.symm.trans hk), rfl⟩

/-- Settles O44: the rows of a field whose next byte is missing, in the stream, in a run, and behind a match's token. -/
theorem missingFieldByteIsTruncated : Obligations.MissingFieldByteIsTruncated := by
  intro s he
  refine ⟨fun b hno hinp hb hplace => ?_, ?_, ?_, fun hp hno => ?_⟩
  · rcases hplace with ⟨hp, hl⟩ | ⟨hp, hl⟩
    · obtain ⟨hfirst, hsecond⟩ := (Dec.literalLengthRows s.cfg).byteStep_cut hp hinp he hl hb
      refine step_step_of_cut_field hno (fun x i rest hx => ?_) hfirst rfl rfl hsecond
      obtain ⟨hslot, hcfg⟩ := ctx_of_phase (k := .literalLength) (by rw [hp]; rfl) hx
      rw [decode_literalLength hslot, hcfg, hinp]
      exact decodeLength_cut hl hb i rest
    · obtain ⟨hfirst, hsecond⟩ := (Dec.matchLengthRows s.cfg).byteStep_cut hp hinp he hl hb
      refine step_step_of_cut_field hno (fun x i rest hx => ?_) hfirst rfl rfl hsecond
      obtain ⟨hslot, hcfg⟩ := ctx_of_phase (k := .matchLength) (by rw [hp]; rfl) hx
      rw [decode_matchLength hslot, hcfg, hinp]
      exact decodeLength_cut hl hb i rest
  · intro b hv hb begun
    refine ⟨fun hinp hl => ?_, fun hinp hl => ?_⟩
    · have hcut := (Dec.literalLengthRows s.cfg).reaches_cut (d := s.dec.start) rfl hinp he hl hb
      rw [exec_decRun_of_valid hv, Dec.run_eq_of_reaches hcut (Dec.halted_raiseTruncated _ _)]
      rfl
    · have hzero : s.dec.start.byteStep s.cfg = { s.dec.start with inp := [b], ip := 1, phase := .mlen } :=
        ((Dec.byteStep_llen (d := s.dec.start) rfl).trans (Dec.onByte_byte hinp)).trans (if_neg (by simp))
      have hcut := (Dec.reaches_of_byteStep_eq hzero).trans
        ((Dec.matchLengthRows s.cfg).reaches_cut rfl rfl he hl hb)
      rw [exec_decRun_of_valid hv, Dec.run_eq_of_reaches hcut (Dec.halted_raiseTruncated _ _)]
      rfl
  · intro hp hbits cutOffset
    obtain ⟨hmatB, hmatS, hmatW, hzmat⟩ := exec_match hp
    have hcut (i : Instr) (n : Nat) (lenlo : Byte) (hdue : 0 < n ∨ s.cfg.zeroOffset = true)
        (hexec : exec i s = .next (s.setDec (Dec.matchBlock s.cfg n { s.dec with lenlo := lenlo }))) :
        cutOffset i n lenlo := by
      rw [Dec.matchBlock_of_due hdue] at hexec
      obtain ⟨hnone, hone⟩ := Dec.offsetField_cut (d := { s.dec with lenlo := lenlo, cnt := n }) hbits he
      exact ⟨fun hinp => hexec.trans (congrArg (fun d => Host.Outcome.next (s.setDec d)) (hnone hinp)),
        fun b0 hinp hb8 => hexec.trans (congrArg (fun d => Host.Outcome.next (s.setDec d)) (hone b0 hinp hb8))⟩
    exact ⟨fun m hl hdue => hcut _ _ _ hdue (hmatB m hl), fun m hl hdue => hcut _ _ _ hdue (hmatS m hl),
      fun lo hi hl => hcut _ _ _ (.inl (by omega)) (hmatW lo hi hl), fun hz => hcut _ _ _ (.inr hz) hzmat⟩
  · have hfield (x : Ctx) (hx : tokenCtx s = some x) : decode x s.dec.inp = decodeOffset s.cfg.offBytes s.dec.inp := by
      obtain ⟨hslot, hcfg⟩ := ctx_of_phase (k := .offsetField) (by rw [hp]; rfl) hx
      rw [decode_offsetField hslot, hcfg]
    refine ⟨fun hinp hbits => ?_, fun b0 hinp hb8 => ?_⟩
    · obtain ⟨hnone, -⟩ := Dec.byteStep_cut_offset hp hbits he
      refine (step_of_no_token hno fun x i rest hx hd => ?_).trans ?_
      · rw [hfield x hx, hinp] at hd
        rcases decodeOffset_cases hd with ⟨hn, -⟩ | ⟨-, b0, hbs, -⟩ | ⟨-, -, b0, b1, hbs, -⟩
        · exact absurd (offBytes_eq_zero_iff.mp hn) (Nat.ne_of_gt hbits)
        · cases hbs
        · cases hbs
      · rw [hnone hinp]
        rfl
    · obtain ⟨-, hone⟩ := Dec.byteStep_cut_offset (d := s.dec) (c := s.cfg) hp (Nat.zero_lt_of_lt hb8) he
      obtain ⟨hfirst, hsecond⟩ := hone b0 hinp hb8
      refine step_step_of_cut_field hno (fun x i rest hx hd => ?_) hfirst rfl rfl hsecond
      rw [hfield x hx, hinp, offBytes_eq_two_iff.mpr hb8] at hd
      cases hd

end Sys2Proof.Machine
end

section
/-! PROOFS. DEC.STEP as the table of R152: what a byte step takes and outputs, and each row with its transient decisions. -/

namespace Sys2Proof.Machine

open Sys2Proof.Safety

namespace Dec

variable {c : Cfg} {d d' : Dec} {b : Byte} {rest : List Byte}

/-! ## What a byte step outputs -/

/-- Nothing is output, or one byte, which is stored at the ring index of `POS` (R43, R45). -/
def OutputsAtMostOne (c : Cfg) (d d' : Dec) : Prop :=
  (d'.out = d.out ∧ d'.pos = d.pos ∧ d'.ring = d.ring) ∨
  ∃ x, d'.out = d.out ++ [x] ∧ d'.pos = d.pos + 1 ∧ RingWritten c d.ring d'.ring d.pos [x]

theorem outputsNothing (hout : d'.out = d.out) (hpos : d'.pos = d.pos) (hring : d'.ring = d.ring) :
    d.OutputsAtMostOne c d' :=
  .inl ⟨hout, hpos, hring⟩

theorem ringWritten_put (c : Cfg) (ring : Memory) (pos : Nat) (x : Byte) :
    RingWritten c ring (SMap.put ring (c.ringIndex pos) x) pos [x] :=
  ringWritten_writeRun c ring pos [x]

theorem outputsOne (x : Byte) (hout : d'.out = d.out ++ [x]) (hpos : d'.pos = d.pos + 1)
    (hring : d'.ring = SMap.put d.ring (c.ringIndex d.pos) x) : d.OutputsAtMostOne c d' :=
  .inr ⟨x, hout, hpos, hring ▸ ringWritten_put c d.ring d.pos x⟩

theorem onByte_output {atByte : Byte → Dec → Dec} {atEnd : Dec} (hbyte : ∀ b d', OutputsAtMostOne c d' (atByte b d'))
    (hend : d.OutputsAtMostOne c atEnd) : d.OutputsAtMostOne c (d.onByte atByte atEnd) := by
  rcases inByte_cases d with ⟨b, rest, hinp, -⟩ | ⟨hinp, he, -⟩ | ⟨hinp, he, -⟩
  · rw [onByte_byte hinp]
    exact hbyte b { d with inp := rest, ip := d.ip + 1 }
  · rwa [onByte_eof hinp he]
  · rw [onByte_wait hinp he]
    exact outputsNothing rfl rfl rfl

/-- `AfterMLen`, with its decisions written out. -/
theorem afterMLen_eq (c : Cfg) (d : Dec) :
    d.afterMLen c =
      if d.cnt = 0 ∧ c.zeroOffset = false then { d with phase := .llen }
      else if c.bits = 0 then
        { d with off := 0, src := BitVec.ofNat 16 (sourceOf c d.pos 0), phase := if 0 < d.cnt then .copy else .llen }
      else { d with phase := .offlo } := by
  rw [Dec.afterMLen, rleSrc_eq]
  rfl

theorem afterMLen_outputsNothing (c : Cfg) (d : Dec) : d.OutputsAtMostOne c (d.afterMLen c) := by
  rw [afterMLen_eq]
  split
  · exact outputsNothing rfl rfl rfl
  · split <;> exact outputsNothing rfl rfl rfl

theorem byteStep_output (c : Cfg) (d : Dec) : d.OutputsAtMostOne c (d.byteStep c) := by
  cases hp : d.phase
  case llen =>
    rw [byteStep_llen hp]
    refine onByte_output (fun b d' => ?_) (outputsNothing rfl rfl rfl)
    split <;> exact outputsNothing rfl rfl rfl
  case llen2 =>
    rw [byteStep_llen2 hp]
    exact onByte_output (fun b d' => outputsNothing rfl rfl rfl) (outputsNothing rfl rfl rfl)
  case lit =>
    rw [byteStep_lit hp]
    refine onByte_output (fun b d' => ?_) (outputsNothing rfl rfl rfl)
    split <;> exact outputsOne b rfl rfl rfl
  case mlen =>
    rw [byteStep_mlen hp]
    refine onByte_output (fun b d' => ?_) (outputsNothing rfl rfl rfl)
    split
    · exact outputsNothing rfl rfl rfl
    · exact afterMLen_outputsNothing c { d' with cnt := b.toNat }
  case mlen2 =>
    rw [byteStep_mlen2 hp]
    exact onByte_output (fun b d' => afterMLen_outputsNothing c { d' with cnt := wideLength d'.lenlo b })
      (outputsNothing rfl rfl rfl)
  case offlo =>
    by_cases hb : c.bits = 0
    · rw [byteStep_offlo_rle hp hb]
      exact outputsNothing rfl rfl rfl
    · rw [byteStep_offlo hp hb]
      refine onByte_output (fun b d' => ?_) (outputsNothing rfl rfl rfl)
      split <;> exact outputsNothing rfl rfl rfl
  case offhi =>
    rw [byteStep_offhi hp]
    exact onByte_output (fun b d' => outputsNothing rfl rfl rfl) (outputsNothing rfl rfl rfl)
  case copy =>
    rw [byteStep_copy hp]
    split <;> exact outputsOne (ringByte c d.ring d.src.toNat) rfl rfl rfl
  case idle | done | err =>
    rw [byteStep_of_not_busy (by simp [hp, Phase.unitState])]
    exact outputsNothing rfl rfl rfl

/-! ## The rows -/

theorem byteStep_lit_byte (hp : d.phase = .lit) (hinp : d.inp = b :: rest) :
    d.byteStep c = { d with
      inp := rest, ip := d.ip + 1, out := d.out ++ [b], pos := d.pos + 1, cnt := d.cnt - 1
      ring := SMap.put d.ring (c.ringIndex d.pos) b, phase := if d.cnt - 1 = 0 then .mlen else .lit } := by
  refine ((byteStep_lit hp).trans (onByte_byte hinp)).trans ?_
  split
  · rfl
  · rw [← hp]
    rfl

theorem byteStep_copy_eq (hp : d.phase = .copy) :
    let x := ringByte c d.ring d.src.toNat
    d.byteStep c = { d with
      out := d.out ++ [x], pos := d.pos + 1, src := d.src + 1, cnt := d.cnt - 1
      ring := SMap.put d.ring (c.ringIndex d.pos) x, phase := if d.cnt - 1 = 0 then .llen else .copy } := by
  refine (byteStep_copy hp).trans ?_
  split
  · rfl
  · rw [← hp]
    rfl

/-- The rows of an offset field on a byte, with `AfterOff`. -/
theorem byteStep_offlo_byte (hp : d.phase = .offlo) (hb : 1 ≤ c.bits) (hinp : d.inp = b :: rest) :
    let off : BitVec 16 := (0x00 : Byte) ++ (if c.exorOffset then ~~~b else b)
    d.byteStep c =
      if 8 < c.bits then { d with inp := rest, ip := d.ip + 1, off := (0x00 : Byte) ++ b, phase := .offhi }
      else { d with
        inp := rest, ip := d.ip + 1, off := off, src := BitVec.ofNat 16 (sourceOf c d.pos off)
        phase := if 0 < d.cnt then .copy else .llen } := by
  refine ((byteStep_offlo hp (Nat.ne_of_gt hb)).trans (onByte_byte hinp)).trans ?_
  split
  · rw [Dec.lowOffset, setWidth_eq_zero_append]
  next hb8 =>
    rw [Dec.afterOff, computeSrc_lowOffset hb8]
    rfl

theorem byteStep_offhi_byte (hp : d.phase = .offhi) (hb8 : 8 < c.bits) (hinp : d.inp = b :: rest) :
    let read : BitVec 16 := d.off ||| (b ++ (0x00 : Byte))
    let off : BitVec 16 := if c.exorOffset then ~~~read else read
    d.byteStep c = { d with
      inp := rest, ip := d.ip + 1, off := off, src := BitVec.ofNat 16 (sourceOf c d.pos off)
      phase := if 0 < d.cnt then .copy else .llen } := by
  refine ((byteStep_offhi hp).trans (onByte_byte hinp)).trans ?_
  rw [Dec.afterOff, computeSrc_highOffset hb8]
  rfl

end Dec

/-- Settles O49: what a byte step takes, what it outputs, and its row on a byte, at the end of `IN`, with neither, and in
phase COPY. -/
theorem decStepIsOneByte : Obligations.DecStepIsOneByte := by
  intro s hv
  by_cases herr : s.dec.status.state = .err
  · refine ⟨s.dec, ?_, .inl ⟨rfl, rfl⟩, .inl ⟨rfl, rfl, rfl⟩, fun _ => rfl, fun h => absurd herr h⟩
    rw [exec_decStep_of_valid hv, if_pos herr]
    rfl
  refine ⟨s.dec.byteStep s.cfg, ?_, s.dec.byteStep_input s.cfg, s.dec.byteStep_output s.cfg, fun hp => ?_, fun _ => ?_⟩
  · rw [exec_decStep_of_valid hv, if_neg herr]
    rfl
  · refine Dec.byteStep_of_not_busy ?_
    rcases hp with hp | hp | hp <;> simp [hp, Phase.unitState]
  intro src
  refine ⟨?_, fun hinp he => ⟨?_, ?_, fun hp => ?_, ?_⟩, fun hinp he hcopy hoff => ?_, fun hp => ?_⟩
  · intro b rest hinp d0 wide2 afterLLen afterMLen afterOff
    refine ⟨fun hp => ?_, fun hp => ?_, fun hp => ?_, fun hp => ?_, fun hp => ?_, fun hp hb => ?_, fun hp hb8 => ?_⟩
    · exact (Dec.byteStep_llen hp).trans (Dec.onByte_byte hinp)
    · exact ((Dec.byteStep_llen2 hp).trans (Dec.onByte_byte hinp)).trans
        (congrArg afterLLen (wideLength_eq_add_mul s.dec.lenlo b))
    · rw [Dec.byteStep_lit_byte hp hinp]
      exact ⟨rfl, Dec.ringWritten_put _ _ _ _⟩
    · refine ((Dec.byteStep_mlen hp).trans (Dec.onByte_byte hinp)).trans ?_
      rw [Dec.afterMLen_eq]
    · refine ((Dec.byteStep_mlen2 hp).trans (Dec.onByte_byte hinp)).trans ?_
      rw [Dec.afterMLen_eq]
      exact congrArg afterMLen (wideLength_eq_add_mul s.dec.lenlo b)
    · exact Dec.byteStep_offlo_byte hp hb hinp
    · exact Dec.byteStep_offhi_byte hp hb8 hinp
  · rintro (hp | hp)
    · exact (Dec.byteStep_llen hp).trans (Dec.onByte_eof hinp he)
    · exact (Dec.byteStep_mlen hp).trans (Dec.onByte_eof hinp he)
  · rintro (hp | hp)
    · exact (Dec.byteStep_llen2 hp).trans (Dec.onByte_eof hinp he)
    · exact (Dec.byteStep_mlen2 hp).trans (Dec.onByte_eof hinp he)
  · exact (Dec.byteStep_lit hp).trans (Dec.onByte_eof hinp he)
  · rintro (⟨hp, hb⟩ | hp)
    · exact (Dec.byteStep_offlo hp (Nat.ne_of_gt hb)).trans (Dec.onByte_eof hinp he)
    · exact (Dec.byteStep_offhi hp).trans (Dec.onByte_eof hinp he)
  · exact Dec.halted_waiting hinp he hcopy fun hp => Nat.ne_of_gt (hoff hp)
  · rw [Dec.byteStep_copy_eq hp]
    exact ⟨rfl, Dec.ringWritten_put _ _ _ _⟩

end Sys2Proof.Machine
end

section
/-! PROOFS. The fields that the reference emitter writes, as the decoder reads them, and what a match restores. -/

namespace Sys2Proof.Machine

open Sys2Proof.Safety Sys2Proof.Emitter

variable {c : Cfg} {dat : Nat → Byte} {n p m mpos limit : Nat} {rest : List Byte} {d : Dec}

/-! ## Runs of data -/

@[simp] theorem length_dataRun (dat : Nat → Byte) (p l : Nat) : (dataRun dat p l).length = l := by simp [dataRun]

@[simp] theorem dataRun_zero (dat : Nat → Byte) (p : Nat) : dataRun dat p 0 = [] := rfl

theorem dataRun_getElem? {j l : Nat} (hj : j < l) : (dataRun dat p l)[j]? = some (dat (p + j)) := by
  simp [dataRun, hj]

theorem dataRun_add (dat : Nat → Byte) (p a b : Nat) : dataRun dat p (a + b) = dataRun dat p a ++ dataRun dat (p + a) b := by
  simp [dataRun, List.range_add, Nat.add_assoc, Function.comp_def]

/-! ## Length fields -/

/-- The decoder reads a length field as the length it was written for (R66, R124, R138). -/
theorem Dec.getLen_lenField {x : Nat} {second : Phase} (hx : x ≤ limit) (hlimit : limit ≤ Config.lenMax)
    (hinp : d.inp = lenField limit x ++ rest) :
    ∃ ip lenlo, d.getLen limit second = .length x { d with inp := rest, ip := ip, lenlo := lenlo } := by
  by_cases hwide : 255 < limit ∧ 127 < x
  · obtain ⟨hl, hx128⟩ := hwide
    obtain ⟨b, b2, hfield, hb, hvalue, -⟩ := lenField_value hl hx128 (hx.trans hlimit)
    rw [hfield] at hinp
    refine ⟨d.ip + 1 + 1, b, ?_⟩
    rw [Dec.getLen_twoBytes hinp (by omega), hvalue]
    rfl
  · have hbyte : (BitVec.ofNat 8 x).toNat = x := by
      rw [BitVec.toNat_ofNat]
      omega
    rw [lenField, if_neg hwide] at hinp
    refine ⟨d.ip + 1, d.lenlo, ?_⟩
    rw [Dec.getLen_oneByte hinp (by omega), hbyte]
    rfl

/-! ## Offset fields -/

theorem length_offsetBytes (c : Cfg) (mpos p : Nat) : (offsetBytes c mpos p).length = c.offBytes := by
  by_cases hb : c.bits = 0
  · simp [offsetBytes, Cfg.offBytes, hb]
  by_cases hb8 : 8 < c.bits
  · simp [offsetBytes, offBytes_eq_two_iff.mpr hb8, hb8, Nat.pos_of_ne_zero hb]
  · simp [offsetBytes, offBytes_eq_one_iff.mpr ⟨hb, hb8⟩, hb8, Nat.pos_of_ne_zero hb]

theorem toNat_and_mask (c : Cfg) (off : BitVec 16) : (off &&& BitVec.ofNat 16 c.mask).toNat = off.toNat % (c.mask + 1) := by
  have hmask : (BitVec.ofNat 16 c.mask).toNat = c.mask := Nat.mod_eq_of_lt (Nat.lt_succ_of_le c.mask_le)
  rw [BitVec.toNat_and, hmask]
  exact c.ringIndex_eq_mod off.toNat

/-- The two bytes of an offset, the high one before the low one. -/
theorem append_bytes (x : BitVec 16) : ((x >>> 8).setWidth 8 : Byte) ++ (x.setWidth 8 : Byte) = x := by
  ext i hi
  rw [BitVec.getElem_append]
  split
  · rw [BitVec.getElem_setWidth, BitVec.getLsbD_eq_getElem hi]
  · simp only [BitVec.getElem_setWidth, BitVec.getLsbD_ushiftRight]
    rw [show 8 + (i - 8) = i by omega, BitVec.getLsbD_eq_getElem hi]

theorem zero_append_setWidth (x : BitVec 16) : (0x00 : Byte) ++ (x.setWidth 8 : Byte) = x &&& 0x00FF := by
  have hmod : x.toNat &&& 255 = x.toNat % 2 ^ 8 := Nat.and_two_pow_sub_one_eq_mod x.toNat 8
  rw [← setWidth_eq_zero_append]
  apply BitVec.eq_of_toNat_eq
  rw [BitVec.toNat_setWidth, BitVec.toNat_setWidth, BitVec.toNat_and]
  exact (by omega : x.toNat % 2 ^ 8 % 2 ^ 16 = x.toNat % 2 ^ 8).trans hmod.symm

theorem not_setWidth_xor (x : BitVec 16) : ~~~((x ^^^ 0x00FF).setWidth 8 : Byte) = x.setWidth 8 := by
  rw [BitVec.setWidth_xor]
  exact (congrArg (~~~ ·) BitVec.xor_allOnes).trans BitVec.not_not

/-- The decoder reads the offset that was written, as far as the ring is large: the complement is applied twice (R126, R143). -/
theorem offsetAhead_offsetBytes (hb : c.bits ≠ 0) (mpos p : Nat) (rest : List Byte) :
    offsetAhead c (offsetBytes c mpos p ++ rest) = some (offsetValue c mpos p &&& BitVec.ofNat 16 c.mask) := by
  unfold offsetBytes
  generalize offsetValue c mpos p = off
  by_cases hb8 : 8 < c.bits
  · have hmask : c.mask = 0xFFFF := if_pos hb8
    simp only [if_pos hb8, if_pos (Nat.pos_of_ne_zero hb), List.cons_append, List.nil_append, complement_eq_not hb8]
    rw [offsetAhead_twoBytes hb8, append_bytes, hmask]
    refine congrArg some (Eq.trans ?_ BitVec.and_allOnes.symm)
    split
    · exact BitVec.not_not
    · rfl
  · have hmask : c.mask = 0xFF := if_neg hb8
    simp only [if_neg hb8, if_pos (Nat.pos_of_ne_zero hb), List.cons_append, List.nil_append, List.append_nil]
    rw [offsetAhead_oneByte hb hb8, Cfg.complement, hmask]
    refine congrArg some (Eq.trans ?_ (zero_append_setWidth off))
    split
    · exact congrArg ((0x00 : Byte) ++ ·) (not_setWidth_xor off)
    · rfl

theorem maxOff_le_ring (hv : c.valid = true) : c.maxOff ≤ c.mask + 1 := by
  obtain ⟨hbits, -⟩ := (Cfg.configurationValidity c).mp hv
  rw [Cfg.maxOff_eq_two_pow]
  by_cases hb8 : 8 < c.bits
  · have hmask : c.mask = 0xFFFF := if_pos hb8
    rw [hmask]
    exact Nat.pow_le_pow_right (by decide) hbits
  · have hmask : c.mask = 0xFF := if_neg hb8
    rw [hmask]
    exact Nat.pow_le_pow_right (by decide) (Nat.not_lt.mp hb8)

/-- In address-relative mode the offset names a ring index (R125, R146). -/
theorem sourceOf_offsetValue_relative (hv : c.valid = true) (hrelEn : c.offsetRelEn = true) (hle : mpos ≤ p) :
    sourceOf c p (offsetValue c mpos p &&& BitVec.ofNat 16 c.mask) = (p - mpos) % (c.mask + 1) := by
  obtain ⟨-, -, -, hrel⟩ := (Cfg.configurationValidity c).mp hv
  obtain ⟨-, hrel⟩ := hrel hrelEn
  have hsmall : c.offsetRel.toNat ≤ c.mask :=
    hrel.trans (Nat.sub_le_iff_le_add.mpr (c.maxOff_eq_two_pow ▸ maxOff_le_ring hv))
  have hand : (p + c.offsetRel.toNat - mpos) &&& 0xFFFF = (p + c.offsetRel.toNat - mpos) % 2 ^ 16 :=
    Nat.and_two_pow_sub_one_eq_mod _ 16
  rw [sourceOf, if_pos hrelEn, toNat_and_mask, offsetValue, if_pos hrelEn, BitVec.toNat_ofNat, hand]
  rcases c.mask_cases with hm | hm <;> rw [hm] at hsmall ⊢ <;> omega

/-- In normal mode the offset is one less than the distance (R125, R145). -/
theorem sourceOf_offsetValue_normal (hrelEn : c.offsetRelEn = false) (h1 : 1 ≤ mpos) (hle : mpos ≤ p)
    (hring : mpos ≤ c.mask + 1) :
    sourceOf c p (offsetValue c mpos p &&& BitVec.ofNat 16 c.mask) = (p - mpos) % (c.mask + 1) := by
  have hoff : ¬ c.offsetRelEn = true := by simp [hrelEn]
  rw [sourceOf, if_neg hoff, toNat_and_mask, offsetValue, if_neg hoff, BitVec.toNat_ofNat]
  rcases c.mask_cases with hm | hm <;> rw [hm] at hring ⊢ <;> omega

/-- The source that the decoder computes from the offset written for a distance is that distance back (R125, R145, R146). -/
theorem exists_offsetAhead_offsetBytes (hv : c.valid = true) (h1 : 1 ≤ mpos) (hle : mpos ≤ min p c.maxOff)
    (rest : List Byte) :
    ∃ off, offsetAhead c (offsetBytes c mpos p ++ rest) = some off ∧ sourceOf c p off = (p - mpos) % (c.mask + 1) := by
  have hring : mpos ≤ c.mask + 1 := (hle.trans (Nat.min_le_right _ _)).trans (maxOff_le_ring hv)
  have hp : mpos ≤ p := hle.trans (Nat.min_le_left _ _)
  by_cases hb : c.bits = 0
  · refine ⟨0, offsetAhead_rle hb _, ?_⟩
    obtain ⟨-, -, -, hrel⟩ := (Cfg.configurationValidity c).mp hv
    have hrelEn : ¬ c.offsetRelEn = true := fun h => by
      obtain ⟨hbits | hbits, -⟩ := hrel h <;> cases hb.symm.trans hbits
    have hmax : c.maxOff = 1 := by
      rw [Cfg.maxOff_eq_two_pow, hb]
      rfl
    obtain rfl : mpos = 1 := by omega
    rw [sourceOf, if_neg hrelEn]
    exact (congrArg (· % (c.mask + 1)) (by simp; omega : p + c.mask - BitVec.toNat 0 = p - 1 + (c.mask + 1))).trans
      (Nat.add_mod_right _ _)
  · refine ⟨_, offsetAhead_offsetBytes hb mpos p rest, ?_⟩
    rcases Bool.eq_false_or_eq_true c.offsetRelEn with hrelEn | hrelEn
    · exact sourceOf_offsetValue_relative hv hrelEn hp
    · exact sourceOf_offsetValue_normal hrelEn h1 hp hring

/-! ## The copy of a match -/

/-- A copy from a distance at which the input matches, on a ring that holds what was output, restores the input (R92, R147). -/
theorem eq_dataRun_of_copiedFrom {out0 xs : List Byte} (hout : d.out = out0 ++ dataRun dat 0 d.pos)
    (hring : RingHoldsRecentOutput c d) (h1 : 1 ≤ mpos) (hpos : mpos ≤ d.pos) (hmask : mpos ≤ c.mask + 1)
    (hmatch : ∀ j, j < m → dat (d.pos + j) = dat (d.pos - mpos + j))
    (hcopied : CopiedFrom c d.ring d.pos ((d.pos - mpos) % (c.mask + 1)) m xs) : xs = dataRun dat d.pos m := by
  obtain ⟨hlen, hbytes⟩ := hcopied
  obtain ⟨-, hrecent⟩ := hring
  have hdist : copyDistance c d.pos ((d.pos - mpos) % (c.mask + 1)) = mpos := by
    unfold copyDistance
    rcases c.mask_cases with hm | hm <;> rw [hm] at hmask ⊢ <;> split <;> omega
  rw [hdist] at hbytes
  have hbyte (j : Nat) : j < m → xs[j]? = some (dat (d.pos + j)) := by
    induction j using Nat.strong_induction_on with
    | _ j ih =>
      intro hj
      rw [hbytes j hj, hmatch j hj]
      split
      next hnear =>
        have hread := hrecent (mpos - 1 - j) (by omega)
        rw [show d.pos - 1 - (mpos - 1 - j) = d.pos - mpos + j by omega, hout, List.length_append, length_dataRun,
          show out0.length + d.pos - 1 - (mpos - 1 - j) = out0.length + (d.pos - mpos + j) by omega,
          List.getElem?_append_right (Nat.le_add_right _ _), Nat.add_sub_cancel_left,
          dataRun_getElem? (by omega), Nat.zero_add] at hread
        rw [ringByte, c.ringIndex_eq_mod, Nat.mod_add_mod, hread]
        rfl
      next hfar =>
        rw [ih (j - mpos) (by omega) (by omega)]
        congr 2
        omega
  refine List.ext_getElem? fun j => ?_
  by_cases hj : j < m
  · rw [hbyte j hj, dataRun_getElem? hj]
  · rw [List.getElem?_eq_none (by omega), List.getElem?_eq_none (by simpa using hj)]

end Sys2Proof.Machine
end

section
/-! PROOFS. The round trip (R154): the decoder goes with the reference emitter, a block at a time. -/

namespace Sys2Proof.Machine

open Sys2Proof.Safety Sys2Proof.Emitter

variable {c : Cfg} {dat : Nat → Byte} {out0 : List Byte} {n l m mpos : Nat} {e e' e'' : Progress} {d : Dec}
  {cell : Nat → SpCell}

/-! ## The emitter's blocks -/

/-- A literal block as a literal is written where no other precedes it (R122). -/
def literalBlock (c : Cfg) (dat : Nat → Byte) (l : Nat) (e : Progress) : Progress :=
  { p := e.p + l, inLiteral := true, stream := e.stream ++ (lenField c.llenLimit l ++ dataRun dat e.p l) }

/-- A match block as a match is written behind a literal (R123). -/
def matchBlock (c : Cfg) (m mpos : Nat) (e : Progress) : Progress :=
  { p := e.p + m
    inLiteral := false
    stream := e.stream ++ (lenField c.mlenLimit m ++ if c.offsetDue m then offsetBytes c mpos e.p else []) }

/-- A match that no literal precedes has an empty one before it. -/
theorem emitMatch_eq (c : Cfg) (dat : Nat → Byte) (m mpos : Nat) (e : Progress) :
    emitMatch c m mpos e = matchBlock c m mpos (if e.inLiteral then e else literalBlock c dat 0 e) := by
  unfold emitMatch
  split
  · simp [matchBlock]
  · simp [matchBlock, literalBlock, lenField]

/-- A literal that another precedes has an empty match before it. -/
theorem emitLiteral_eq (c : Cfg) (dat : Nat → Byte) (llen : Nat) (e : Progress) :
    emitLiteral c dat llen e =
      literalBlock c dat (min llen c.llenLimit) (if e.inLiteral then matchBlock c 0 1 e else e) := by
  unfold emitLiteral
  split
  next h => simp [matchBlock, literalBlock, emitMatch, h]
  next h => simp [literalBlock]

/-! ## The decoder at the emitter's place -/

/-- The decoder has restored what the emitter has written, and is where the emitter's next block starts. -/
structure Synced (c : Cfg) (dat : Nat → Byte) (out0 : List Byte) (e : Progress) (d : Dec) : Prop where
  phase : d.phase = if e.inLiteral then .mlen else .llen
  pos : d.pos = e.p
  out : d.out = out0 ++ dataRun dat 0 e.p
  ring : RingHoldsRecentOutput c d
  inEnd : d.inEnd = true
  status : d.status = Status.started

/-- On what the emitter writes from the one progress to the other, the decoder goes from the one to the other. -/
def Restores (c : Cfg) (dat : Nat → Byte) (out0 : List Byte) (e e' : Progress) : Prop :=
  ∃ bytes, e'.stream = e.stream ++ bytes ∧
    ∀ (d : Dec) (rest : List Byte), Synced c dat out0 e d → d.inp = bytes ++ rest →
      ∃ d', d.Reaches c d' ∧ Synced c dat out0 e' d' ∧ d'.inp = rest

theorem Restores.refl (e : Progress) : Restores c dat out0 e e :=
  ⟨[], (List.append_nil _).symm, fun d _ hd hinp => ⟨d, .refl d, hd, hinp⟩⟩

theorem Restores.trans (h : Restores c dat out0 e e') (h' : Restores c dat out0 e' e'') : Restores c dat out0 e e'' := by
  obtain ⟨bytes, hstream, hreach⟩ := h
  obtain ⟨bytes', hstream', hreach'⟩ := h'
  refine ⟨bytes ++ bytes', by rw [hstream', hstream, List.append_assoc], fun d rest hd hinp => ?_⟩
  obtain ⟨d1, hr1, hd1, hinp1⟩ := hreach d (bytes' ++ rest) hd (by rw [hinp, List.append_assoc])
  obtain ⟨d2, hr2, hd2, hinp2⟩ := hreach' d1 rest hd1 hinp1
  exact ⟨d2, hr1.trans hr2, hd2, hinp2⟩

/-- What a block adds to the output it adds to the place. -/
theorem Synced.next {d' : Dec} (h : Synced c dat out0 e d)
    (hphase : d'.phase = if e'.inLiteral then .mlen else .llen) (hp : e'.p = e.p + l) (hpos : d'.pos = d.pos + l)
    (hout : d'.out = d.out ++ dataRun dat e.p l) (hemits : d.Emits c d') (hend : d'.inEnd = d.inEnd)
    (hstatus : d'.status = d.status) : Synced c dat out0 e' d' where
  phase := hphase
  pos := by rw [hpos, h.pos, hp]
  out := by rw [hout, h.out, hp, dataRun_add, Nat.zero_add, List.append_assoc]
  ring := hemits.ringHoldsRecentOutput h.ring
  inEnd := hend.trans h.inEnd
  status := hstatus.trans h.status

theorem restores_literalBlock (hv : c.valid = true) (he : e.inLiteral = false) (hl : l ≤ c.llenLimit) :
    Restores c dat out0 e (literalBlock c dat l e) := by
  obtain ⟨-, -, ⟨-, hlimit⟩, -⟩ := (Cfg.configurationValidity c).mp hv
  refine ⟨_, rfl, fun d rest hd hinp => ?_⟩
  have hphase := hd.phase
  rw [he] at hphase
  rw [List.append_assoc] at hinp
  obtain ⟨ip, lenlo, hlen⟩ := Dec.getLen_lenField (second := .llen2) hl hlimit hinp
  have hreach := ((Dec.literalLengthRows c).reaches_length hphase hlen).trans (Dec.reaches_literal c l _).1
  have hliteral : Dec.literal c l { d with inp := dataRun dat e.p l ++ rest, ip := ip, lenlo := lenlo } = _ :=
    Dec.literalLoop_of_le (by simp)
  have hemits : d.Emits c (Dec.literal c l { d with inp := dataRun dat e.p l ++ rest, ip := ip, lenlo := lenlo }) :=
    (Dec.emits_literal _ l).after_quiet rfl rfl rfl
  rw [hliteral] at hreach hemits
  refine ⟨_, hreach, hd.next (l := l) rfl rfl rfl ?_ hemits rfl rfl, ?_⟩
  · exact congrArg (d.out ++ ·) (List.take_left' (length_dataRun _ _ _))
  · exact List.drop_left' (length_dataRun _ _ _)

/-- The offset field behind a match's length is there, and where bytes are to be copied it names the distance. -/
theorem exists_offset_of_match {p : Nat} (hv : c.valid = true) (hm : m = 0 ∨ IsMatch c dat n p m mpos)
    (rest : List Byte) :
    ∃ off, offsetAhead c (offsetBytes c mpos p ++ rest) = some off ∧
      (m ≠ 0 → sourceOf c p off = (p - mpos) % (c.mask + 1)) := by
  rcases hm with hzero | ⟨-, -, h1, hle, -⟩
  · obtain ⟨off, hoff⟩ := exists_offsetAhead (length_offsetBytes c mpos p) rest
    exact ⟨off, hoff, fun h => absurd hzero h⟩
  · obtain ⟨off, hoff, hsrc⟩ := exists_offsetAhead_offsetBytes hv h1 hle rest
    exact ⟨off, hoff, fun _ => hsrc⟩

/-- The match block on what the emitter writes behind the length. -/
theorem exists_matchBlock_restored {rest : List Byte} (hv : c.valid = true)
    (hm : m = 0 ∨ IsMatch c dat n d.pos m mpos) (hout : d.out = out0 ++ dataRun dat 0 d.pos)
    (hring : RingHoldsRecentOutput c d)
    (hinp : d.inp = (if c.offsetDue m then offsetBytes c mpos d.pos else []) ++ rest) :
    ∃ ip off src ring, d.matchBlock c m = { d with
      phase := .llen, cnt := 0, pos := d.pos + m, out := d.out ++ dataRun dat d.pos m, inp := rest
      ip := ip, off := off, src := src, ring := ring } := by
  by_cases hdue : c.offsetDue m = true
  · obtain ⟨off, hoff, hsrc⟩ := exists_offset_of_match hv hm rest
    rw [if_pos hdue] at hinp
    rw [← hinp] at hoff
    have hrest : d.inp.drop c.offBytes = rest := by rw [hinp, ← length_offsetBytes c mpos d.pos, List.drop_left]
    have hfield := Dec.offsetField_of_ahead (d := { d with cnt := m }) hoff
    simp only [hrest] at hfield
    obtain ⟨xs, ring', hcopy, hcopied, -⟩ := Dec.exists_copy (c := c) (d := { d with
      cnt := m, inp := rest, ip := d.ip + c.offBytes, off := off
      src := BitVec.ofNat 16 (sourceOf c d.pos off) }) rfl (sourceOf_le_mask _ _ _)
    have hxs : xs = dataRun dat d.pos m := by
      rcases hm with rfl | ⟨h0, -, h1, hle, hmatch⟩
      · exact List.eq_nil_of_length_eq_zero hcopied.1
      · rw [hsrc (Nat.ne_of_gt h0)] at hcopied
        exact eq_dataRun_of_copiedFrom hout hring h1 (hle.trans (Nat.min_le_left _ _))
          ((hle.trans (Nat.min_le_right _ _)).trans (maxOff_le_ring hv)) hmatch hcopied
    subst hxs
    exact ⟨_, _, _, _, ((if_pos hdue).trans hfield).trans hcopy⟩
  · obtain ⟨rfl, hz⟩ : m = 0 ∧ c.zeroOffset = false := by simpa [Cfg.offsetDue] using hdue
    rw [if_neg hdue, List.nil_append] at hinp
    refine ⟨d.ip, d.off, d.src, d.ring, ?_⟩
    rw [Dec.matchBlock_zero hz, dataRun_zero, List.append_nil, ← hinp]
    rfl

theorem restores_matchBlock (hv : c.valid = true) (he : e.inLiteral = true)
    (hm : m = 0 ∨ IsMatch c dat n e.p m mpos) : Restores c dat out0 e (matchBlock c m mpos e) := by
  obtain ⟨-, ⟨-, hlimit⟩, -⟩ := (Cfg.configurationValidity c).mp hv
  refine ⟨_, rfl, fun d rest hd hinp => ?_⟩
  have hphase := hd.phase
  rw [he] at hphase
  rw [List.append_assoc] at hinp
  have hfits : m ≤ c.mlenLimit := by
    rcases hm with rfl | ⟨-, hle, -⟩
    · exact Nat.zero_le _
    · exact hle.trans (Nat.min_le_left _ _)
  obtain ⟨ip, lenlo, hlen⟩ := Dec.getLen_lenField (second := .mlen2) hfits hlimit hinp
  have hreach := ((Dec.matchLengthRows c).reaches_length hphase hlen).trans (Dec.reaches_matchBlock c m _).1
  have hemits : d.Emits c (Dec.matchBlock c m { d with
      inp := (if c.offsetDue m then offsetBytes c mpos e.p else []) ++ rest, ip := ip, lenlo := lenlo }) :=
    (Dec.emits_matchBlock _ m).after_quiet rfl rfl rfl
  rw [← hd.pos] at hm hreach hemits
  obtain ⟨_, _, _, _, hblock⟩ := exists_matchBlock_restored (d := { d with
    inp := (if c.offsetDue m then offsetBytes c mpos d.pos else []) ++ rest, ip := ip, lenlo := lenlo }) hv hm
    (hd.pos.symm ▸ hd.out) hd.ring rfl
  rw [hblock] at hreach hemits
  exact ⟨_, hreach, hd.next (l := m) rfl rfl rfl (congrArg (fun p => d.out ++ dataRun dat p m) hd.pos) hemits rfl rfl, rfl⟩

theorem restores_emitLiteral (hv : c.valid = true) (llen : Nat) (e : Progress) :
    Restores c dat out0 e (emitLiteral c dat llen e) := by
  rw [emitLiteral_eq]
  have hl : min llen c.llenLimit ≤ c.llenLimit := Nat.min_le_right _ _
  split
  next he => exact (restores_matchBlock (n := 0) hv he (.inl rfl)).trans (restores_literalBlock hv rfl hl)
  next he => exact restores_literalBlock hv (by simpa using he) hl

theorem restores_emitMatch (hv : c.valid = true) (h : IsMatch c dat n e.p m mpos) :
    Restores c dat out0 e (emitMatch c m mpos e) := by
  rw [emitMatch_eq c dat]
  split
  next he => exact restores_matchBlock hv he (.inr h)
  next he =>
    exact (restores_literalBlock hv (by simpa using he) (Nat.zero_le _)).trans (restores_matchBlock hv rfl (.inr h))

/-! ## The whole stream -/

/-- The emitter's main loop reaches the end of the input, and the decoder goes with it: each choice of DP.SELECT advances
(R108, R109, R121). -/
theorem exists_emitFrom {k : Nat} (hv : c.valid = true) (hcells : ∀ p, p ≤ n → CellSound c dat n p (cell p))
    (hp : e.p ≤ n) (hk : n - e.p ≤ k) :
    ∃ e', emitFrom c dat n cell k e = some e'.stream ∧ e'.p = n ∧ Restores c dat out0 e e' := by
  induction k generalizing e with
  | zero =>
    refine ⟨e, ?_, by omega, .refl e⟩
    rw [emitFrom, if_neg (by omega)]
  | succ k ih =>
    unfold emitFrom
    split
    next hlt =>
      have hcell := hcells e.p hp
      obtain ⟨hle, hpos⟩ := hcell.llenRange
      have hlimit := Cfg.one_le_llenLimit hv
      rw [selectChoice_of_feasible fun h => hcell.lbitsFinite h.1]
      split
      next h => cases h
      next h =>
        have hadvance : (emitLiteral c dat (cell e.p).llen e).p = e.p + min (cell e.p).llen c.llenLimit := by
          rw [emitLiteral_eq]
          split <;> rfl
        have hone := hpos hlt
        obtain ⟨e', hemit, hend, hrest⟩ := ih (e := emitLiteral c dat (cell e.p).llen e) (by omega) (by omega)
        exact ⟨e', hemit, hend, (restores_emitLiteral hv _ e).trans hrest⟩
      next h =>
        have hfinite : (cell e.p).mbits ≠ .inf := fun hinf => by simp [hinf] at h
        have hmatch := hcell.matchRange (hcell.mbitsFinite.mp hfinite)
        obtain ⟨hone, hlen, -⟩ := id hmatch
        obtain ⟨e', hemit, hend, hrest⟩ := ih (e := emitMatch c (cell e.p).mlen (cell e.p).mpos e)
          (by simp only [emitMatch]; omega) (by simp only [emitMatch]; omega)
        exact ⟨e', hemit, hend, (restores_emitMatch hv hmatch).trans hrest⟩
    next hge => exact ⟨e, rfl, by omega, .refl e⟩

/-- At the end of the stream the decoder is at the start of a block, and ends cleanly (R148). -/
theorem Synced.byteStep_eq_finish (h : Synced c dat out0 e d) (hinp : d.inp = []) : d.byteStep c = d.finish := by
  have hphase := h.phase
  split at hphase
  · exact (Dec.byteStep_mlen hphase).trans (Dec.onByte_eof hinp h.inEnd)
  · exact (Dec.byteStep_llen hphase).trans (Dec.onByte_eof hinp h.inEnd)

/-- Settles O60: the emitter reaches the end of the input, and the run on its stream restores the input and halts there. -/
theorem roundTrip : Obligations.RoundTrip := by
  intro s hv hcap
  obtain ⟨t, ht⟩ : ∃ t, execDpRun s = .next t := ⟨_, execDpRun_completes hv hcap⟩
  have hcells := tableFinal_cellSound hv (execDpRun_tableFinal hv hcap ht)
  have hframe : t.cfg = s.cfg ∧ t.dec = s.dec := by
    rw [execDpRun_completes hv hcap] at ht
    cases ht
    exact ⟨rfl, rfl⟩
  obtain ⟨hcfg, hdec⟩ := hframe
  obtain ⟨e', hemit, hend, bytes, hstream, hrestores⟩ := exists_emitFrom (out0 := s.dec.out)
    (e := { p := 0, inLiteral := false, stream := [] }) hv (fun p hp => hcells p p.zero_le hp) (Nat.zero_le _) le_rfl
  rw [List.nil_append] at hstream
  obtain ⟨d', hreach, hd', hinp'⟩ := hrestores (fedWith bytes s.dec).start []
    { phase := rfl, pos := rfl, out := (List.append_nil _).symm, ring := Dec.ringHoldsRecentOutput_start _, inEnd := rfl,
      status := rfl } (List.append_nil _).symm
  have hrun : (fedWith bytes s.dec).run s.cfg = d'.finish :=
    Dec.run_eq_of_reaches (hreach.trans (Dec.reaches_of_byteStep_eq (hd'.byteStep_eq_finish hinp'))) (Dec.halted_finish d')
  refine ⟨t, bytes, t.setDec d'.finish, ht, ?_, ?_, ?_, rfl, ?_, ?_⟩
  · exact hstream ▸ hemit
  · rw [hdec, exec_decRun_setDec (hcfg ▸ hv), hcfg, hrun]
  · refine hd'.out.trans ?_
    simp [hend, dataRun]
  · exact congrArg Status.finished hd'.status
  · exact hd'.pos.trans hend

end Sys2Proof.Machine
end

section
/-! PROOFS. What stops an operation before it begins: `ERR`, an invalid `CFG`, an input above the cap; and a decoder that has
to wait for `IN`. -/

namespace Sys2Proof

/-- Where `IN` is empty and open no token stands, but for an offset field of no bytes (R64, R71). -/
theorem decode_nil_ne_instr {x : Ctx} (hended : x.ended = false) (hoff : x.slot = .offsetField → x.cfg.offBytes ≠ 0)
    (i : Instr) (rest : List Byte) : decode x [] ≠ .instr i rest := by
  cases hslot : x.slot with
  | command => simp [decode, hslot]
  | literalLength => simp [decode_literalLength hslot, decodeLength, hended]
  | matchLength => simp [decode_matchLength hslot, decodeLength, hended]
  | offsetField => simp [decode_offsetField hslot, decodeOffset, hoff hslot]

namespace Machine

open Sys2Proof.Safety

variable {s : State}

/-! ## A unit in ERR (R169) -/

theorem execDpFill_of_err (h : s.dp.status.state = .err) : execDpFill s = .next s := if_pos h

theorem execDpSelect_of_err (h : s.dp.status.state = .err) : execDpSelect s = .next s := if_pos h

theorem execDecStep_of_err (h : s.dec.status.state = .err) : execDecStep s = .next s := if_pos h

/-- Settles O17: the three commands test for ERR first. -/
theorem unitInErrorDoesNotGoOn : Obligations.UnitInErrorDoesNotGoOn := fun _ =>
  ⟨fun h => ⟨execDpFill_of_err h, execDpSelect_of_err h⟩, execDecStep_of_err⟩

/-! ## An invalid configuration (R161) -/

/-- Under an invalid `CFG` the cost does not matter (R80). -/
theorem answerCost_of_invalid (hv : s.cfg.valid = false) (x : Cost) :
    answerCost x s = s.setCm { s.cm with result := .cfgError } := by
  simp [answerCost, hv]

theorem execMfFind_of_invalid (hv : s.cfg.valid = false) : execMfFind s = .next (s.setMf (s.mf.raise .cfgError)) :=
  if_pos hv

theorem execDpInit_of_invalid (hv : s.cfg.valid = false) : execDpInit s = .next (s.setDp (s.dp.raise .cfgError)) :=
  if_pos hv

theorem execDpRun_of_invalid (hv : s.cfg.valid = false) : execDpRun s = .next (s.setDp (s.dp.raise .cfgError)) :=
  if_pos hv

theorem execDpFill_of_invalid (herr : s.dp.status.state ≠ .err) (hv : s.cfg.valid = false) :
    execDpFill s = .next (s.setDp (s.dp.raise .cfgError)) :=
  (if_neg herr).trans (if_pos hv)

theorem execDpSelect_of_invalid (herr : s.dp.status.state ≠ .err) (hv : s.cfg.valid = false) :
    execDpSelect s = .next (s.setDp (s.dp.raise .cfgError)) :=
  (if_neg herr).trans (if_pos hv)

theorem execDecStart_of_invalid (hv : s.cfg.valid = false) : execDecStart s = .next (s.setDec s.dec.raiseCfg) := if_pos hv

theorem execDecRun_of_invalid (hv : s.cfg.valid = false) : execDecRun s = .next (s.setDec s.dec.raiseCfg) := if_pos hv

theorem execDecStep_of_invalid (herr : s.dec.status.state ≠ .err) (hv : s.cfg.valid = false) :
    execDecStep s = .next (s.setDec s.dec.raiseCfg) :=
  (if_neg herr).trans (if_pos hv)

/-- Settles O15: `CfgValid` is the first test, or the second behind that for ERR. -/
theorem invalidConfigurationRaisesCfgError : Obligations.InvalidConfigurationRaisesCfgError := by
  intro s hv cmErr mfErr dpErr decErr
  have hcm (x : Cost) : (.next (answerCost x s) : Host.Outcome State Fault Refusal) = .next cmErr :=
    congrArg _ (answerCost_of_invalid hv x)
  exact ⟨hcm _, hcm _, hcm _, hcm _, execMfFind_of_invalid hv, execDpInit_of_invalid hv, execDpRun_of_invalid hv,
    execDecStart_of_invalid hv, execDecRun_of_invalid hv,
    fun herr => ⟨execDpFill_of_invalid herr hv, execDpSelect_of_invalid herr hv⟩, fun herr => execDecStep_of_invalid herr hv⟩

/-! ## An input above the cap (R163) -/

theorem execMfFind_of_oversize (hv : s.cfg.valid = true) (hcap : Config.nCap < s.mf.n.toNat) :
    execMfFind s = .next (s.setMf (s.mf.raise .oversize)) := by
  rw [execMfFind, if_neg (by simp [hv]), if_pos hcap]

theorem execDpInit_of_oversize (hv : s.cfg.valid = true) (hcap : Config.nCap < s.dp.n.toNat) :
    execDpInit s = .next (s.setDp (s.dp.raise .oversize)) := by
  rw [execDpInit, if_neg (by simp [hv]), if_pos hcap]

theorem execDpRun_of_oversize (hv : s.cfg.valid = true) (hcap : Config.nCap < s.dp.n.toNat) :
    execDpRun s = .next (s.setDp (s.dp.raise .oversize)) := by
  rw [execDpRun, if_neg (by simp [hv]), if_pos hcap]

/-- The cap is tested before the position, so `p ≥ N` does not matter (log 14). -/
theorem execDpFill_of_oversize (herr : s.dp.status.state ≠ .err) (hv : s.cfg.valid = true)
    (hcap : Config.nCap < s.dp.n.toNat) : execDpFill s = .next (s.setDp (s.dp.raise .oversize)) := by
  rw [execDpFill, if_neg herr, if_neg (by simp [hv]), if_pos hcap]

/-- Settles O16: under a valid `CFG` the cap is the next test. -/
theorem oversizedInputRaisesOversize : Obligations.OversizedInputRaisesOversize := fun _ hv =>
  ⟨execMfFind_of_oversize hv, fun hcap =>
    ⟨execDpInit_of_oversize hv hcap, execDpRun_of_oversize hv hcap, fun herr => execDpFill_of_oversize herr hv hcap⟩⟩

/-! ## A decoder that waits (R170) -/

theorem Phase.eq_offlo_of_slot {p : Phase} (h : p.slot = some .offsetField) : p = .offlo := by
  cases p <;> simp [Phase.slot] at h ⊢

/-- With `IN` empty and open the stream has no token, and the byte step waits. -/
theorem step_of_waiting (hno : NoCommandBegins s) (hinp : s.dec.inp = []) (he : s.dec.inEnd = false)
    (hcopy : s.dec.phase ≠ .copy) (hoff : s.dec.phase = .offlo → s.cfg.bits ≠ 0) : step s = .next s := by
  have hcut (x : Ctx) (i : Instr) (rest : List Byte) (hx : tokenCtx s = some x) : decode x s.dec.inp ≠ .instr i rest := by
    obtain ⟨k, hk, rfl⟩ := tokenCtx_eq_some.mp hx
    rw [hinp]
    refine decode_nil_ne_instr (by simp [he]) (fun hslot => ?_) i rest
    exact offBytes_eq_zero_iff.not.mpr (hoff (Phase.eq_offlo_of_slot (hslot ▸ hk)))
  calc step s = .next (s.setDec (s.dec.byteStep s.cfg)) := step_of_no_token hno hcut
    _ = .next (s.setDec s.dec) := by rw [Dec.halted_waiting hinp he hcopy hoff]
    _ = .next s := rfl

/-- Settles O10: no phase that takes a byte is COPY, and the offset phase has a byte to take. -/
theorem decoderWaitsForInput : Obligations.DecoderWaitsForInput := by
  intro s hno hinp he hphase
  refine step_of_waiting hno hinp he ?_ ?_
  · intro hp
    simp [hp] at hphase
  · intro hp
    simpa [hp, Nat.pos_iff_ne_zero] using hphase

end Machine

end Sys2Proof
end

section
/-! PROOFS. A block on which no operation runs (R180), and DP.FILL out of order (R186). -/

namespace Sys2Proof.Machine

open Sys2Proof.Safety

variable {s : State}

/-! ## A decoder that is not running (R180) -/

/-- With no command and a decoder that is not running there is no token's place, and the byte step does nothing. -/
theorem step_of_not_running (hno : NoCommandBegins s) (hp : s.dec.phase.unitState ≠ .busy) : step s = .next s := by
  have hcut (x : Ctx) (i : Instr) (rest : List Byte) (hx : tokenCtx s = some x) : decode x s.dec.inp ≠ .instr i rest := by
    obtain ⟨k, hk, -⟩ := tokenCtx_eq_some.mp hx
    exact absurd (Phase.unitState_of_slot hk) hp
  calc step s = .next (s.setDec (s.dec.byteStep s.cfg)) := step_of_no_token hno hcut
    _ = .next (s.setDec s.dec) := by rw [Dec.byteStep_of_not_busy hp]
    _ = .next s := rfl

/-- Settles O9: IDLE, DONE and ERR are the phases of a decoder that is not running, and reset is in IDLE. -/
theorem idleBlockStaysPut : Obligations.IdleBlockStaysPut := by
  refine ⟨step_of_not_running (.inl rfl) nofun, fun s hreq hphase => step_of_not_running (.inl hreq) ?_⟩
  rcases hphase with hp | hp | hp <;> simp [hp, Phase.unitState]

/-! ## DP.FILL out of order (R186) -/

theorem finalAbove_eq_none {fill : Option (Nat × Nat)} {n p : Nat} (h : ∀ f, fill = some (n, f) → p + 1 < f) :
    finalAbove fill n p = none := by
  refine Option.eq_none_iff_forall_ne_some.mpr fun f hf => ?_
  obtain ⟨hfill, hle⟩ := finalAbove_eq_some.mp hf
  exact absurd hle (Nat.not_le.mpr (h f hfill))

/-- A fill in a unit that accepts it, at a position of the input, completes (R102, R107). -/
theorem execDpFill_completes (herr : s.dp.status.state ≠ .err) (hv : s.cfg.valid = true)
    (hcap : s.dp.n.toNat ≤ Config.nCap) (hp : s.dp.p.toNat < s.dp.n.toNat) :
    execDpFill s = .next ((fillEffect s).holdData s.dp.n.toNat) := by
  rcases execDpFill_cases s with ⟨he, -⟩ | ⟨hinv, -⟩ | ⟨-, hover, -⟩ | ⟨-, hout, -⟩ | ⟨-, -, -, he⟩
  · exact absurd he herr
  · simp [hv] at hinv
  · exact absurd hcap (Nat.not_le.mpr hover)
  · exact absurd hp (Nat.not_lt.mpr hout)
  · exact he

/-- A fill out of order writes a free value; the mark stays where it is one of this encode (R186; log 8). -/
theorem fillEffect_of_not_final (h : ∀ f, s.dp.fill = some (s.dp.n.toNat, f) → s.dp.p.toNat + 1 < f) :
    fillEffect s = { s with
      sp := SMap.put s.sp s.dp.p.toNat (Config.freeCell s.freeCount)
      freeCount := s.freeCount + 1
      dp := { s.dp with fill := if s.dp.fill.map Prod.fst = some s.dp.n.toNat then s.dp.fill else none } } := by
  simp only [fillEffect, finalAbove_eq_none h]
  rfl

/-- Settles O30: the cell of a fill out of order, read back, is the free value; the others are as before. -/
theorem outOfOrderFillWritesAnyValue : Obligations.OutOfOrderFillWritesAnyValue := by
  intro s herr hv hcap hp hout
  have hfill := execDpFill_completes herr hv hcap hp
  rw [fillEffect_of_not_final hout] at hfill
  refine ⟨_, hfill, (cellAt_put ..).trans (if_pos rfl), rfl, fun q hq => ?_, rfl⟩
  exact (cellAt_put ..).trans (if_neg hq.symm)

end Sys2Proof.Machine
end
